-- ==== Sys2Proof/Word.lean ====
section
/-! DEFINITION. The word types of the machine (00_scope.md R4, R6). -/

namespace Sys2Proof

/-- A word, 32 bits: a general register, `MS`, an instruction, a port (R4). -/
abbrev Word := BitVec 32

/-- A byte, the addressable unit of memory (R4). -/
abbrev Byte := BitVec 8

/-- A memory address, 20 bits (R4, R50). -/
abbrev Addr := BitVec 20

/-- An I/O port number 0..63 (R30). -/
abbrev Port := BitVec 6

/-- An interrupt vector number 0..63 (R244). -/
abbrev IntVec := Fin 64

end Sys2Proof
end

