-- ==== Sys2Proof/Syntax.lean ====
section
/-! DEFINITION. The instructions of Pixie: one constructor for each of the 71 rows of the opcode table
(30_encoding.md). Raw encodings end at the decoder: an operand is a register number, an immediate, an address or
a register-or-indirect operand. -/

namespace Sys2Proof

/-- A general register number 0..15 (R82). -/
abbrev RegNum := BitVec 4

/-- A register-or-indirect operand `SO`, `SO1`, `SO2`, `DO` (R86). -/
inductive Operand where
  /-- `Rn`: the operand is the register. -/
  | reg (r : RegNum)
  /-- `[Rn]`: the operand is in memory at the address in bits 19..0 of the register. -/
  | ind (r : RegNum)
deriving DecidableEq, Repr

/-- The instructions, one constructor per row of the opcode table. A name that ends in `R` is the form with a
register-or-indirect or `[SR]`/`[DR]` operand, in `I` the immediate form, in `A` the `addr20` form. -/
inductive Instr where
  /-- `ADD DO, SO1, SO2` (R120). -/
  | addR (d o1 o2 : Operand)
  /-- `ADD DO, SO1, imm16` (R120). -/
  | addI (d o1 : Operand) (imm : BitVec 16)
  /-- `SUB DO, SO1, SO2` (R121). -/
  | subR (d o1 o2 : Operand)
  /-- `SUB DO, SO1, imm16` (R121). -/
  | subI (d o1 : Operand) (imm : BitVec 16)
  /-- `AND DO, SO1, SO2` (R140). -/
  | andR (d o1 o2 : Operand)
  /-- `AND DO, SO1, imm16` (R140). -/
  | andI (d o1 : Operand) (imm : BitVec 16)
  /-- `OR DO, SO1, SO2` (R141). -/
  | orR (d o1 o2 : Operand)
  /-- `OR DO, SO1, imm16` (R141). -/
  | orI (d o1 : Operand) (imm : BitVec 16)
  /-- `XOR DO, SO1, SO2` (R143). -/
  | xorR (d o1 o2 : Operand)
  /-- `XOR DO, SO1, imm16` (R143). -/
  | xorI (d o1 : Operand) (imm : BitVec 16)
  /-- `CMP SO1, SO2` (R130). -/
  | cmpR (o1 o2 : Operand)
  /-- `CMP SO1, imm16` (R130). -/
  | cmpI (o1 : Operand) (imm : BitVec 16)
  /-- `IMULB DO, SO1, SO2` (R123). -/
  | imulB (d o1 o2 : Operand)
  /-- `IMULS DO, SO1, SO2` (R124). -/
  | imulS (d o1 o2 : Operand)
  /-- `IMULW DO, SO1, SO2` (R125). -/
  | imulW (d o1 o2 : Operand)
  /-- `UMULB DO, SO1, SO2` (R126). -/
  | umulB (d o1 o2 : Operand)
  /-- `UMULS DO, SO1, SO2` (R127). -/
  | umulS (d o1 o2 : Operand)
  /-- `UMULW DO, SO1, SO2` (R128). -/
  | umulW (d o1 o2 : Operand)
  /-- `NEG DO, addr20` (R129). -/
  | negA (d : Operand) (addr : Addr)
  /-- `NEG DO, SO` (R129). -/
  | negR (d o : Operand)
  /-- `NOT DO, addr20` (R142). -/
  | notA (d : Operand) (addr : Addr)
  /-- `NOT DO, SO` (R142). -/
  | notR (d o : Operand)
  /-- `SHFL DO, SO, imm5` (R144). -/
  | shfl (d o : Operand) (imm : BitVec 5)
  /-- `SHFRL DO, SO, imm5` (R145). -/
  | shfrl (d o : Operand) (imm : BitVec 5)
  /-- `SHFRA DO, SO, imm5` (R146). -/
  | shfra (d o : Operand) (imm : BitVec 5)
  /-- `JC<c> addr20` (R160); all three letters together are JMP (R161). -/
  | jcA (n p z : Bool) (addr : Addr)
  /-- `JC<c> [SR]` (R160). -/
  | jcR (n p z : Bool) (sr : RegNum)
  /-- `JMP addr20` (R161). -/
  | jmpA (addr : Addr)
  /-- `JMP [SR]` (R161). -/
  | jmpR (sr : RegNum)
  /-- `CALL addr20` (R162). -/
  | callA (addr : Addr)
  /-- `CALL [SR]` (R162). -/
  | callR (sr : RegNum)
  /-- `SCL imm5` (R163). -/
  | scl (imm : BitVec 5)
  /-- `RET` (R164). -/
  | ret
  /-- `RETI` (R165). -/
  | reti
  /-- `RETS`, the second mnemonic of the one word of RETI (R114, R165): the decoder answers `reti` (log 26). -/
  | rets
  /-- `LDB DR, addr20` (R180). -/
  | ldbA (dr : RegNum) (addr : Addr)
  /-- `LDB DR, [SR]` (R180). -/
  | ldbR (dr sr : RegNum)
  /-- `LDS DR, addr20` (R181). -/
  | ldsA (dr : RegNum) (addr : Addr)
  /-- `LDS DR, [SR]` (R181). -/
  | ldsR (dr sr : RegNum)
  /-- `LDW DR, addr20` (R182). -/
  | ldwA (dr : RegNum) (addr : Addr)
  /-- `LDW DR, [SR]` (R182). -/
  | ldwR (dr sr : RegNum)
  /-- `STB addr20, SR` (R183). -/
  | stbA (addr : Addr) (sr : RegNum)
  /-- `STB [DR], SR` (R183). -/
  | stbR (dr sr : RegNum)
  /-- `STS addr20, SR` (R184). -/
  | stsA (addr : Addr) (sr : RegNum)
  /-- `STS [DR], SR` (R184). -/
  | stsR (dr sr : RegNum)
  /-- `STW addr20, SR` (R185). -/
  | stwA (addr : Addr) (sr : RegNum)
  /-- `STW [DR], SR` (R185). -/
  | stwR (dr sr : RegNum)
  /-- `CPYI DR, imm16` (R186). -/
  | cpyI (dr : RegNum) (imm : BitVec 16)
  /-- `CPYU DR, imm16` (R187). -/
  | cpyU (dr : RegNum) (imm : BitVec 16)
  /-- `CPY DR, SR` (R188). -/
  | cpy (dr sr : RegNum)
  /-- `PUSHI imm16` (R200). -/
  | pushI (imm : BitVec 16)
  /-- `PUSHU imm16` (R201). -/
  | pushU (imm : BitVec 16)
  /-- `PUSHB addr20` (R202). -/
  | pushbA (addr : Addr)
  /-- `PUSHB SO` (R202). -/
  | pushbR (o : Operand)
  /-- `PUSHS addr20` (R203). -/
  | pushsA (addr : Addr)
  /-- `PUSHS SO` (R203). -/
  | pushsR (o : Operand)
  /-- `PUSHW addr20` (R204). -/
  | pushwA (addr : Addr)
  /-- `PUSHW SO` (R204). -/
  | pushwR (o : Operand)
  /-- `POPB addr20` (R205). -/
  | popbA (addr : Addr)
  /-- `POPB DO` (R205). -/
  | popbR (d : Operand)
  /-- `POPS addr20` (R206). -/
  | popsA (addr : Addr)
  /-- `POPS DO` (R206). -/
  | popsR (d : Operand)
  /-- `POPW addr20` (R207). -/
  | popwA (addr : Addr)
  /-- `POPW DO` (R207). -/
  | popwR (d : Operand)
  /-- `IN DO, imm5` (R220). -/
  | inI (d : Operand) (imm : BitVec 5)
  /-- `IN DO, SO` (R220). -/
  | inR (d o : Operand)
  /-- `OUT imm5, SO` (R221). -/
  | outI (imm : BitVec 5) (o : Operand)
  /-- `OUT DO, SO` (R221); the operand DO is read: it holds the port number. -/
  | outR (d o : Operand)
  /-- `SSSP addr20` (R222). -/
  | ssspA (addr : Addr)
  /-- `SSSP SO` (R222). -/
  | ssspR (o : Operand)
  /-- `HALT` (R223). -/
  | halt
deriving DecidableEq, Repr

end Sys2Proof
end

