-- ==== Sys2Proof/WellFormed.lean ====
section
/-! DEFINITION. Which terms of `Instr` are instructions. Every field has exactly the values its encoding admits
(the types say so), so one check remains: JC with all three condition letters is the instruction JMP
(30_encoding.md R97, R115), not a JC. -/

namespace Sys2Proof

/-- A JC has at most two of its three condition letters: the word with `n = p = z = 1` is JMP (R115, log 27). -/
def Instr.conditionsOk (n p z : Bool) : Bool := !(n && p && z)

/-- The well-formed instructions. -/
def Instr.wellFormed : Instr → Bool
  | .addR _ _ _ => true
  | .addI _ _ _ => true
  | .subR _ _ _ => true
  | .subI _ _ _ => true
  | .andR _ _ _ => true
  | .andI _ _ _ => true
  | .orR _ _ _ => true
  | .orI _ _ _ => true
  | .xorR _ _ _ => true
  | .xorI _ _ _ => true
  | .cmpR _ _ => true
  | .cmpI _ _ => true
  | .imulB _ _ _ => true
  | .imulS _ _ _ => true
  | .imulW _ _ _ => true
  | .umulB _ _ _ => true
  | .umulS _ _ _ => true
  | .umulW _ _ _ => true
  | .negA _ _ => true
  | .negR _ _ => true
  | .notA _ _ => true
  | .notR _ _ => true
  | .shfl _ _ _ => true
  | .shfrl _ _ _ => true
  | .shfra _ _ _ => true
  | .jcA n p z _ => Instr.conditionsOk n p z
  | .jcR n p z _ => Instr.conditionsOk n p z
  | .jmpA _ => true
  | .jmpR _ => true
  | .callA _ => true
  | .callR _ => true
  | .scl _ => true
  | .ret => true
  | .reti => true
  | .rets => true
  | .ldbA _ _ => true
  | .ldbR _ _ => true
  | .ldsA _ _ => true
  | .ldsR _ _ => true
  | .ldwA _ _ => true
  | .ldwR _ _ => true
  | .stbA _ _ => true
  | .stbR _ _ => true
  | .stsA _ _ => true
  | .stsR _ _ => true
  | .stwA _ _ => true
  | .stwR _ _ => true
  | .cpyI _ _ => true
  | .cpyU _ _ => true
  | .cpy _ _ => true
  | .pushI _ => true
  | .pushU _ => true
  | .pushbA _ => true
  | .pushbR _ => true
  | .pushsA _ => true
  | .pushsR _ => true
  | .pushwA _ => true
  | .pushwR _ => true
  | .popbA _ => true
  | .popbR _ => true
  | .popsA _ => true
  | .popsR _ => true
  | .popwA _ => true
  | .popwR _ => true
  | .inI _ _ => true
  | .inR _ _ => true
  | .outI _ _ => true
  | .outR _ _ => true
  | .ssspA _ => true
  | .ssspR _ => true
  | .halt => true

/-- The instruction the decoder names by a word of `i`: RETS is the second mnemonic of RETI's one word (R114),
every other instruction has a word of its own. -/
def Instr.canonical : Instr → Instr
  | .rets => .reti
  | i => i

end Sys2Proof
end

