-- ==== Sys2Proof/Decode.lean ====
section
/-! DEFINITION. The decoder and the encoder, each written from the encoding tables of 30_encoding.md (R91 to R108).
The decoder follows R117: the opcode, then the sub-selector bits R110 names, then the Reserved fields. It is total
and rejects by name; every rejection is the one error `IllegalInstruction` of R112 when a cycle meets it. -/

namespace Sys2Proof

/-- Why a word is illegal (R112). -/
inductive DecodeError where
  /-- The opcode is one of the twelve not assigned (R112, 1). -/
  | unassignedOpcode
  /-- A sub-selector has a value that no table gives (R112, 2). -/
  | unassignedSelector
  /-- A Reserved field is not zero (R111, R112, 3). -/
  | reservedBits
  /-- Fewer than the four bytes of an instruction (R80). -/
  | truncated
deriving DecidableEq, Repr

/-! ## Fields -/

/-- The field of `len` bits of an instruction word that begins at bit `lo` (R6). -/
def field (w : Word) (lo len : Nat) : BitVec len := w.extractLsb' lo len

/-- The field is zero: the check of a Reserved field (R111). -/
def fieldZero (w : Word) (lo len : Nat) : Bool := field w lo len == 0#len

/-- A register-or-indirect operand from its 5-bit field: bit 4 set means the operand is in memory (R86). -/
def operandOf (o : BitVec 5) : Operand :=
  if o.getLsbD 4 then .ind (o.extractLsb' 0 4) else .reg (o.extractLsb' 0 4)

/-- The 5-bit field of a register-or-indirect operand (R86). -/
def operandBits : Operand → BitVec 5
  | .reg r => 0#1 ++ r
  | .ind r => 1#1 ++ r

/-- The instruction, if the Reserved fields of its format are zero (R111). -/
def accept (reservedZero : Bool) (i : Instr) : Except DecodeError Instr :=
  if reservedZero then .ok i else .error .reservedBits

/-! ## Decoding, one function per format or opcode -/

/-- Formats ALU-R and ALU-I (R91, R92). -/
def decodeAlu (rr : Operand → Operand → Operand → Instr) (ri : Operand → Operand → BitVec 16 → Instr) (w : Word) :
    Except DecodeError Instr :=
  let d := operandOf (field w 22 5)
  let a := operandOf (field w 17 5)
  if fieldZero w 16 1 then accept (fieldZero w 5 11) (rr d a (operandOf (field w 0 5)))
  else .ok (ri d a (field w 0 16))

/-- CMP (R93). -/
def decodeCmp (w : Word) : Except DecodeError Instr :=
  let a := operandOf (field w 17 5)
  if fieldZero w 16 1 then
    accept (fieldZero w 22 5 && fieldZero w 5 11) (.cmpR a (operandOf (field w 0 5)))
  else accept (fieldZero w 22 5) (.cmpI a (field w 0 16))

/-- Format MUL (R94): bit 26 is the signedness, bits 25..24 the size. -/
def decodeMul (w : Word) : Except DecodeError Instr :=
  let d := operandOf (field w 10 5)
  let a := operandOf (field w 5 5)
  let b := operandOf (field w 0 5)
  match (field w 24 3).toNat with
  | 0b001 => accept (fieldZero w 15 9) (.imulB d a b)
  | 0b010 => accept (fieldZero w 15 9) (.imulS d a b)
  | 0b011 => accept (fieldZero w 15 9) (.imulW d a b)
  | 0b101 => accept (fieldZero w 15 9) (.umulB d a b)
  | 0b110 => accept (fieldZero w 15 9) (.umulS d a b)
  | 0b111 => accept (fieldZero w 15 9) (.umulW d a b)
  | _ => .error .unassignedSelector

/-- Formats UN-A and UN-R (R95). -/
def decodeUn (ra : Operand → Addr → Instr) (rr : Operand → Operand → Instr) (w : Word) :
    Except DecodeError Instr :=
  let d := operandOf (field w 21 5)
  if fieldZero w 20 1 then accept (fieldZero w 26 1) (ra d (field w 0 20))
  else accept (fieldZero w 26 1 && fieldZero w 5 15) (rr d (operandOf (field w 0 5)))

/-- Format SHF (R96). -/
def decodeShf (w : Word) : Except DecodeError Instr :=
  let d := operandOf (field w 10 5)
  let o := operandOf (field w 5 5)
  match (field w 25 2).toNat with
  | 0b00 => accept (fieldZero w 15 10) (.shfl d o (field w 0 5))
  | 0b10 => accept (fieldZero w 15 10) (.shfrl d o (field w 0 5))
  | 0b11 => accept (fieldZero w 15 10) (.shfra d o (field w 0 5))
  | _ => .error .unassignedSelector

/-- JC and JMP (R97): the word with all three condition bits is JMP (R117). -/
def decodeJump (w : Word) : Except DecodeError Instr :=
  let n := !fieldZero w 26 1
  let p := !fieldZero w 25 1
  let z := !fieldZero w 24 1
  let all := n && p && z
  if fieldZero w 20 1 then
    accept (fieldZero w 21 3) (if all then .jmpA (field w 0 20) else .jcA n p z (field w 0 20))
  else
    accept (fieldZero w 21 3 && fieldZero w 4 16) (if all then .jmpR (field w 0 4) else .jcR n p z (field w 0 4))

/-- CALL and SCL (R98). -/
def decodeCall (w : Word) : Except DecodeError Instr :=
  if fieldZero w 26 1 then
    if fieldZero w 20 1 then accept (fieldZero w 21 5) (.callA (field w 0 20))
    else accept (fieldZero w 21 5 && fieldZero w 4 16) (.callR (field w 0 4))
  else accept (fieldZero w 5 21) (.scl (field w 0 5))

/-- RET and RETI/RETS (R99). -/
def decodeRet (w : Word) : Except DecodeError Instr :=
  accept (fieldZero w 0 26) (if fieldZero w 26 1 then .ret else .reti)

/-- One size of LD (R100). -/
def decodeLdSize (ra : RegNum → Addr → Instr) (rr : RegNum → RegNum → Instr) (w : Word) :
    Except DecodeError Instr :=
  let d := field w 21 4
  if fieldZero w 20 1 then .ok (ra d (field w 0 20))
  else accept (fieldZero w 4 16) (rr d (field w 0 4))

/-- LD (R100). -/
def decodeLd (w : Word) : Except DecodeError Instr :=
  match (field w 25 2).toNat with
  | 0b01 => decodeLdSize .ldbA .ldbR w
  | 0b10 => decodeLdSize .ldsA .ldsR w
  | 0b11 => decodeLdSize .ldwA .ldwR w
  | _ => .error .unassignedSelector

/-- One size of ST (R101): the form bit is bit 24 and `addr20` is in bits 23..4. -/
def decodeStSize (ra : Addr → RegNum → Instr) (rr : RegNum → RegNum → Instr) (w : Word) :
    Except DecodeError Instr :=
  let sr := field w 0 4
  if fieldZero w 24 1 then .ok (ra (field w 4 20) sr)
  else accept (fieldZero w 8 16) (rr (field w 4 4) sr)

/-- ST (R101). -/
def decodeSt (w : Word) : Except DecodeError Instr :=
  match (field w 25 2).toNat with
  | 0b01 => decodeStSize .stbA .stbR w
  | 0b10 => decodeStSize .stsA .stsR w
  | 0b11 => decodeStSize .stwA .stwR w
  | _ => .error .unassignedSelector

/-- CPY (R102): `DR` is bits 21..18, the selector bits 17..16 (90_conflicts.md C1). -/
def decodeCpy (w : Word) : Except DecodeError Instr :=
  let d := field w 18 4
  match (field w 16 2).toNat with
  | 0b00 => accept (fieldZero w 22 5) (.cpyI d (field w 0 16))
  | 0b01 => accept (fieldZero w 22 5) (.cpyU d (field w 0 16))
  | 0b10 => accept (fieldZero w 22 5 && fieldZero w 4 12) (.cpy d (field w 0 4))
  | _ => .error .unassignedSelector

/-- One size of PUSH or POP (R103, R104). -/
def decodeStackSize (ra : Addr → Instr) (rr : Operand → Instr) (w : Word) : Except DecodeError Instr :=
  if fieldZero w 20 1 then accept (fieldZero w 21 3) (ra (field w 0 20))
  else accept (fieldZero w 21 3 && fieldZero w 5 15) (rr (operandOf (field w 0 5)))

/-- PUSH and POP (R103, R104): bit 26 and the size in bits 25..24 read as one selector. -/
def decodeStack (w : Word) : Except DecodeError Instr :=
  match (field w 24 3).toNat with
  | 0b000 =>
    accept (fieldZero w 17 7) (if fieldZero w 16 1 then .pushI (field w 0 16) else .pushU (field w 0 16))
  | 0b001 => decodeStackSize .pushbA .pushbR w
  | 0b010 => decodeStackSize .pushsA .pushsR w
  | 0b011 => decodeStackSize .pushwA .pushwR w
  | 0b101 => decodeStackSize .popbA .popbR w
  | 0b110 => decodeStackSize .popsA .popsR w
  | 0b111 => decodeStackSize .popwA .popwR w
  | _ => .error .unassignedSelector

/-- IN and OUT (R105, R106). -/
def decodeIo (w : Word) : Except DecodeError Instr :=
  if fieldZero w 26 1 then
    accept (fieldZero w 11 15)
      (if fieldZero w 5 1 then .inI (operandOf (field w 6 5)) (field w 0 5)
       else .inR (operandOf (field w 6 5)) (operandOf (field w 0 5)))
  else
    accept (fieldZero w 11 15)
      (if fieldZero w 10 1 then .outI (field w 5 5) (operandOf (field w 0 5))
       else .outR (operandOf (field w 5 5)) (operandOf (field w 0 5)))

/-- SSSP (R107). -/
def decodeSssp (w : Word) : Except DecodeError Instr :=
  if fieldZero w 20 1 then accept (fieldZero w 21 6) (.ssspA (field w 0 20))
  else accept (fieldZero w 21 6 && fieldZero w 5 15) (.ssspR (operandOf (field w 0 5)))

/-- HALT (R108): bits 26..21 and bit 20 are zero, bits 19..0 are ignored (90_conflicts.md C3, log 22). -/
def decodeHalt (w : Word) : Except DecodeError Instr :=
  accept (fieldZero w 20 7) .halt

/-- The decoder (R110, R117). -/
def decode (w : Word) : Except DecodeError Instr :=
  match (field w 27 5).toNat with
  | 0b00000 => decodeAlu .subR .subI w
  | 0b00001 => decodeSt w
  | 0b00010 => decodeCpy w
  | 0b00011 => decodeRet w
  | 0b00100 => decodeAlu .addR .addI w
  | 0b00101 => decodeAlu .andR .andI w
  | 0b00110 => decodeSssp w
  | 0b01000 => decodeCall w
  | 0b01001 => decodeLd w
  | 0b01101 => decodeAlu .orR .orI w
  | 0b01110 => decodeIo w
  | 0b01111 => decodeMul w
  | 0b10000 => decodeShf w
  | 0b10001 => decodeHalt w
  | 0b10101 => decodeAlu .xorR .xorI w
  | 0b10110 => decodeUn .notA .notR w
  | 0b10111 => decodeJump w
  | 0b11000 => decodeUn .negA .negR w
  | 0b11100 => decodeCmp w
  | 0b11111 => decodeStack w
  | _ => .error .unassignedOpcode

/-- A word from its four bytes, the least significant at the lowest address (R52). -/
def wordOfBytes (b0 b1 b2 b3 : Byte) : Word := b3 ++ b2 ++ b1 ++ b0

/-- The decoder on the bytes of memory from the lowest address up: the instruction and the bytes after it. -/
def decodeBytes : List Byte → Except DecodeError (Instr × List Byte)
  | b0 :: b1 :: b2 :: b3 :: rest =>
    match decode (wordOfBytes b0 b1 b2 b3) with
    | .ok i => .ok (i, rest)
    | .error e => .error e
  | _ => .error .truncated

/-- The four bytes of a word as the hardware stores them, the lowest address first (R52). -/
def bytesOfWord (w : Word) : List Byte :=
  [w.extractLsb' 0 8, w.extractLsb' 8 8, w.extractLsb' 16 8, w.extractLsb' 24 8]

/-- The word whose low `nbits` bits are those of `w` and whose other bits are zero. -/
def tableWord (nbits w : Nat) : Word := BitVec.ofNat 32 (w % 2 ^ nbits)

/-- What the decoder reads from an instruction of the opcode table, its bits numbered as the table numbers them. -/
def decodeTableWord (nbits w : Nat) : Option Instr :=
  match decodeBytes (bytesOfWord (tableWord nbits w)) with
  | .ok (i, _) => some i
  | .error _ => none

/-! ## Encoding, one function per format; each line is the format's table, from bit 31 down -/

/-- Format ALU-R (R91). -/
def fmtAluR (op d a b : BitVec 5) : Word := op ++ d ++ a ++ 0#1 ++ 0#11 ++ b

/-- Format ALU-I (R92). -/
def fmtAluI (op d a : BitVec 5) (imm : BitVec 16) : Word := op ++ d ++ a ++ 1#1 ++ imm

/-- `CMP SO1, SO2` (R93). -/
def fmtCmpR (a b : BitVec 5) : Word := 0b11100#5 ++ 0#5 ++ a ++ 0#1 ++ 0#11 ++ b

/-- `CMP SO1, imm16` (R93). -/
def fmtCmpI (a : BitVec 5) (imm : BitVec 16) : Word := 0b11100#5 ++ 0#5 ++ a ++ 1#1 ++ imm

/-- Format MUL (R94). -/
def fmtMul (u : BitVec 1) (size : BitVec 2) (d a b : BitVec 5) : Word :=
  0b01111#5 ++ u ++ size ++ 0#9 ++ d ++ a ++ b

/-- Format UN-A (R95). -/
def fmtUnA (op d : BitVec 5) (addr : Addr) : Word := op ++ 0#1 ++ d ++ 0#1 ++ addr

/-- Format UN-R (R95). -/
def fmtUnR (op d o : BitVec 5) : Word := op ++ 0#1 ++ d ++ 1#1 ++ 0#15 ++ o

/-- Format SHF (R96). -/
def fmtShf (kind : BitVec 2) (d o imm : BitVec 5) : Word := 0b10000#5 ++ kind ++ 0#10 ++ d ++ o ++ imm

/-- `JC<c> addr20` and `JMP addr20` (R97). -/
def fmtJumpA (n p z : Bool) (addr : Addr) : Word :=
  0b10111#5 ++ BitVec.ofBool n ++ BitVec.ofBool p ++ BitVec.ofBool z ++ 0#3 ++ 0#1 ++ addr

/-- `JC<c> [SR]` and `JMP [SR]` (R97). -/
def fmtJumpR (n p z : Bool) (sr : RegNum) : Word :=
  0b10111#5 ++ BitVec.ofBool n ++ BitVec.ofBool p ++ BitVec.ofBool z ++ 0#3 ++ 1#1 ++ 0#16 ++ sr

/-- `CALL addr20` (R98). -/
def fmtCallA (addr : Addr) : Word := 0b01000#5 ++ 0#1 ++ 0#5 ++ 0#1 ++ addr

/-- `CALL [SR]` (R98). -/
def fmtCallR (sr : RegNum) : Word := 0b01000#5 ++ 0#1 ++ 0#5 ++ 1#1 ++ 0#16 ++ sr

/-- `SCL imm5` (R98). -/
def fmtScl (imm : BitVec 5) : Word := 0b01000#5 ++ 1#1 ++ 0#21 ++ imm

/-- RET (bit 26 clear) and RETI/RETS (bit 26 set) (R99). -/
def fmtRet (sys : BitVec 1) : Word := 0b00011#5 ++ sys ++ 0#26

/-- `LDx DR, addr20` (R100). -/
def fmtLdA (size : BitVec 2) (dr : RegNum) (addr : Addr) : Word := 0b01001#5 ++ size ++ dr ++ 0#1 ++ addr

/-- `LDx DR, [SR]` (R100). -/
def fmtLdR (size : BitVec 2) (dr sr : RegNum) : Word := 0b01001#5 ++ size ++ dr ++ 1#1 ++ 0#16 ++ sr

/-- `STx addr20, SR` (R101). -/
def fmtStA (size : BitVec 2) (addr : Addr) (sr : RegNum) : Word := 0b00001#5 ++ size ++ 0#1 ++ addr ++ sr

/-- `STx [DR], SR` (R101). -/
def fmtStR (size : BitVec 2) (dr sr : RegNum) : Word := 0b00001#5 ++ size ++ 1#1 ++ 0#16 ++ dr ++ sr

/-- `CPYI DR, imm16` and `CPYU DR, imm16` (R102). -/
def fmtCpyI (sel : BitVec 2) (dr : RegNum) (imm : BitVec 16) : Word := 0b00010#5 ++ 0#5 ++ dr ++ sel ++ imm

/-- `CPY DR, SR` (R102). -/
def fmtCpy (dr sr : RegNum) : Word := 0b00010#5 ++ 0#5 ++ dr ++ 0b10#2 ++ 0#12 ++ sr

/-- `PUSHI imm16` and `PUSHU imm16` (R103). -/
def fmtPushI (s : BitVec 1) (imm : BitVec 16) : Word := 0b11111#5 ++ 0#1 ++ 0#2 ++ 0#7 ++ s ++ imm

/-- `PUSHx addr20` (bit 26 clear) and `POPx addr20` (bit 26 set) (R103, R104). -/
def fmtStackA (pop : BitVec 1) (size : BitVec 2) (addr : Addr) : Word :=
  0b11111#5 ++ pop ++ size ++ 0#3 ++ 0#1 ++ addr

/-- `PUSHx SO` and `POPx DO` (R103, R104). -/
def fmtStackR (pop : BitVec 1) (size : BitVec 2) (o : BitVec 5) : Word :=
  0b11111#5 ++ pop ++ size ++ 0#3 ++ 1#1 ++ 0#15 ++ o

/-- IN (R105): `form` is bit 5, `src` is `imm5` or `SO`. -/
def fmtIn (form : BitVec 1) (d src : BitVec 5) : Word := 0b01110#5 ++ 0#1 ++ 0#15 ++ d ++ form ++ src

/-- OUT (R106): `form` is bit 10, `port` is `imm5` or `DO`. -/
def fmtOut (form : BitVec 1) (port o : BitVec 5) : Word := 0b01110#5 ++ 1#1 ++ 0#15 ++ form ++ port ++ o

/-- `SSSP addr20` (R107). -/
def fmtSsspA (addr : Addr) : Word := 0b00110#5 ++ 0#6 ++ 0#1 ++ addr

/-- `SSSP SO` (R107). -/
def fmtSsspR (o : BitVec 5) : Word := 0b00110#5 ++ 0#6 ++ 1#1 ++ 0#15 ++ o

/-- HALT with the ignored bits 19..0 zero, as an assembler emits it (R108). -/
def fmtHalt : Word := 0b10001#5 ++ 0#6 ++ 0#1 ++ 0#20

/-- The word of an instruction (R91 to R108). -/
def encode : Instr → Word
  | .addR d a b => fmtAluR 0b00100#5 (operandBits d) (operandBits a) (operandBits b)
  | .addI d a imm => fmtAluI 0b00100#5 (operandBits d) (operandBits a) imm
  | .subR d a b => fmtAluR 0b00000#5 (operandBits d) (operandBits a) (operandBits b)
  | .subI d a imm => fmtAluI 0b00000#5 (operandBits d) (operandBits a) imm
  | .andR d a b => fmtAluR 0b00101#5 (operandBits d) (operandBits a) (operandBits b)
  | .andI d a imm => fmtAluI 0b00101#5 (operandBits d) (operandBits a) imm
  | .orR d a b => fmtAluR 0b01101#5 (operandBits d) (operandBits a) (operandBits b)
  | .orI d a imm => fmtAluI 0b01101#5 (operandBits d) (operandBits a) imm
  | .xorR d a b => fmtAluR 0b10101#5 (operandBits d) (operandBits a) (operandBits b)
  | .xorI d a imm => fmtAluI 0b10101#5 (operandBits d) (operandBits a) imm
  | .cmpR a b => fmtCmpR (operandBits a) (operandBits b)
  | .cmpI a imm => fmtCmpI (operandBits a) imm
  | .imulB d a b => fmtMul 0#1 0b01#2 (operandBits d) (operandBits a) (operandBits b)
  | .imulS d a b => fmtMul 0#1 0b10#2 (operandBits d) (operandBits a) (operandBits b)
  | .imulW d a b => fmtMul 0#1 0b11#2 (operandBits d) (operandBits a) (operandBits b)
  | .umulB d a b => fmtMul 1#1 0b01#2 (operandBits d) (operandBits a) (operandBits b)
  | .umulS d a b => fmtMul 1#1 0b10#2 (operandBits d) (operandBits a) (operandBits b)
  | .umulW d a b => fmtMul 1#1 0b11#2 (operandBits d) (operandBits a) (operandBits b)
  | .negA d addr => fmtUnA 0b11000#5 (operandBits d) addr
  | .negR d o => fmtUnR 0b11000#5 (operandBits d) (operandBits o)
  | .notA d addr => fmtUnA 0b10110#5 (operandBits d) addr
  | .notR d o => fmtUnR 0b10110#5 (operandBits d) (operandBits o)
  | .shfl d o imm => fmtShf 0b00#2 (operandBits d) (operandBits o) imm
  | .shfrl d o imm => fmtShf 0b10#2 (operandBits d) (operandBits o) imm
  | .shfra d o imm => fmtShf 0b11#2 (operandBits d) (operandBits o) imm
  | .jcA n p z addr => fmtJumpA n p z addr
  | .jcR n p z sr => fmtJumpR n p z sr
  | .jmpA addr => fmtJumpA true true true addr
  | .jmpR sr => fmtJumpR true true true sr
  | .callA addr => fmtCallA addr
  | .callR sr => fmtCallR sr
  | .scl imm => fmtScl imm
  | .ret => fmtRet 0#1
  | .reti => fmtRet 1#1
  | .rets => fmtRet 1#1
  | .ldbA dr addr => fmtLdA 0b01#2 dr addr
  | .ldbR dr sr => fmtLdR 0b01#2 dr sr
  | .ldsA dr addr => fmtLdA 0b10#2 dr addr
  | .ldsR dr sr => fmtLdR 0b10#2 dr sr
  | .ldwA dr addr => fmtLdA 0b11#2 dr addr
  | .ldwR dr sr => fmtLdR 0b11#2 dr sr
  | .stbA addr sr => fmtStA 0b01#2 addr sr
  | .stbR dr sr => fmtStR 0b01#2 dr sr
  | .stsA addr sr => fmtStA 0b10#2 addr sr
  | .stsR dr sr => fmtStR 0b10#2 dr sr
  | .stwA addr sr => fmtStA 0b11#2 addr sr
  | .stwR dr sr => fmtStR 0b11#2 dr sr
  | .cpyI dr imm => fmtCpyI 0b00#2 dr imm
  | .cpyU dr imm => fmtCpyI 0b01#2 dr imm
  | .cpy dr sr => fmtCpy dr sr
  | .pushI imm => fmtPushI 0#1 imm
  | .pushU imm => fmtPushI 1#1 imm
  | .pushbA addr => fmtStackA 0#1 0b01#2 addr
  | .pushbR o => fmtStackR 0#1 0b01#2 (operandBits o)
  | .pushsA addr => fmtStackA 0#1 0b10#2 addr
  | .pushsR o => fmtStackR 0#1 0b10#2 (operandBits o)
  | .pushwA addr => fmtStackA 0#1 0b11#2 addr
  | .pushwR o => fmtStackR 0#1 0b11#2 (operandBits o)
  | .popbA addr => fmtStackA 1#1 0b01#2 addr
  | .popbR d => fmtStackR 1#1 0b01#2 (operandBits d)
  | .popsA addr => fmtStackA 1#1 0b10#2 addr
  | .popsR d => fmtStackR 1#1 0b10#2 (operandBits d)
  | .popwA addr => fmtStackA 1#1 0b11#2 addr
  | .popwR d => fmtStackR 1#1 0b11#2 (operandBits d)
  | .inI d imm => fmtIn 0#1 (operandBits d) imm
  | .inR d o => fmtIn 1#1 (operandBits d) (operandBits o)
  | .outI imm o => fmtOut 0#1 imm (operandBits o)
  | .outR d o => fmtOut 1#1 (operandBits d) (operandBits o)
  | .ssspA addr => fmtSsspA addr
  | .ssspR o => fmtSsspR (operandBits o)
  | .halt => fmtHalt

end Sys2Proof
end

