-- ==== Sys2Proof/Machine/State.lean ====
section
/-! DEFINITION. The state of the machine, plain data (10_state.md; INVENTORY.md, State), the reasons a step can
stop, and the machine after reset. The operations over these types are in Memory.lean, Flags.lean, Ops.lean and the
files after them. -/

namespace Sys2Proof.Machine

/-- The two privilege modes (R253). The mode is the bit `MI` of `MS`; it is no field of its own. -/
inductive Mode where
  /-- `MI` = 0. -/
  | user
  /-- `MI` = 1. -/
  | supervisor
deriving DecidableEq, Repr

/-- What a device does between two cycles (R245, R258): the model's input (log 28). -/
inductive DeviceEvent where
  /-- A device of the implementation raises a vector. -/
  | vector (v : IntVec)
  /-- A character arrives at the character input device. -/
  | char (c : BitVec 7)
deriving DecidableEq, Repr

/-- Memory as a list of (address, byte) pairs in one canonical form (`Memory.wf`; log 21). -/
abbrev Memory := List Host.Cell

/-- Everything the spec gives the machine, and two fields of the model's own (`arrivals`, `freeTick`). -/
structure State where
  /-- The general registers `x[0]` .. `x[15]` (R20); `x[15]` is the stack pointer (R21). -/
  regs : Vector Word 16
  /-- The program counter (R24). -/
  pc : Addr
  /-- The machine status register (R26), held whole so that its reserved bits are state (R37). -/
  ms : Word
  /-- The supervisor stack pointer (R29). -/
  ssp : Addr
  /-- Memory (R34, R50). -/
  mem : Memory
  /-- The pending interrupt vectors (R31), strictly ascending (log 11). -/
  pending : List IntVec
  /-- The halted state (R32). -/
  halted : Bool
  /-- Character input: the `AVL` bit (R258). -/
  avl : Bool
  /-- Character input: the character code (R258). -/
  ch : BitVec 7
  /-- Character input: no further interrupt until a zero is written to port 8 (R258). -/
  busy : Bool
  /-- `OUT_TRACE`: the codes written to port 12, oldest first (R259). -/
  outTrace : List (BitVec 7)
  /-- THE MODEL'S OWN: the device events before each coming cycle, one list per cycle (R245; log 28). -/
  arrivals : List (List DeviceEvent)
  /-- THE MODEL'S OWN: the counter the free values are applied to (R248, R260; log 29). -/
  freeTick : Nat
deriving DecidableEq, Repr

/-- The kinds of error (R240). -/
inductive ErrorKind where
  | alignment
  | protection
  | privilegeViolation
  | sctDisabled
  | illegalInstruction
  | addressRange
  | reservedValue
deriving DecidableEq, Repr

/-- Why the machine stopped: the final state `Faulted(kind)` of R241. Each reason carries the state that the
statements before the raise made (R243). All are safe: the model stops where an implementation "handles" the error in
a manner the spec leaves open (log 1). -/
inductive Fault where
  /-- A memory access, a jump target, a handler address or an `SSP` value that is not aligned (R240). Raised by every
  memory access, by `SetPC` and by SSSP. Safe. -/
  | alignment (at_ : State)
  /-- An access below `0x08000` in user mode (R58), the fetch among them. Raised by every checked access. Safe. -/
  | protection (at_ : State)
  /-- IN, OUT, SSSP, HALT, RETI or RETS in user mode (R255). Raised by these. Safe. -/
  | privilegeViolation (at_ : State)
  /-- SCL through a disabled entry of the SCT (R163). Raised by SCL. Safe. -/
  | sctDisabled (at_ : State)
  /-- A fetched word that matches no encoding (R112). Raised by the cycle after the fetch. Safe. -/
  | illegalInstruction (at_ : State)
  /-- A stack access with `x[15]` above 20 bits (R14). Raised by every push and pop. Safe. -/
  | addressRange (at_ : State)
  /-- A reserved bit set in an `MS` image or in an enabled IVT or SCT entry (R165, R163, R247). Raised by
  RETI/RETS, SCL and interrupt entry. Safe. -/
  | reservedValue (at_ : State)
deriving DecidableEq, Repr

/-- Why the model has no meaning for an instruction. -/
inductive Refusal where
  /-- An instruction without a meaning. No arm of `exec` answers it: every instruction is modelled. Safe. -/
  | notModelled (mnemonic : String)
deriving DecidableEq, Repr

/-- The machine right after start-up (R35, R280, R281): supervisor mode with `ZF` set, the program counter at
`0x00200`. Nothing is listed in memory, so the IVT and the SCT read zero and the rest is `INIT_MEM`. `arrivals` and
`freeTick`, the model's own, start empty and at 0 (DESIGN CHOICE, log 28 and 29). -/
def State.reset : State where
  regs := Vector.replicate 16 0#32
  pc := 0x00200#20
  ms := 0x00010001#32
  ssp := 0x00000#20
  mem := []
  pending := []
  halted := false
  avl := false
  ch := 0#7
  busy := false
  outTrace := []
  arrivals := []
  freeTick := 0

end Sys2Proof.Machine
end

