-- ==== Sys2Proof/Machine/Flags.lean ====
section
/-! DEFINITION. The bits of `MS` and every flag computation (00_scope.md R12, 10_state.md R26 to R28, R37). -/

namespace Sys2Proof.Machine

/-- `ZF`, bit 0 of `MS` (R26). -/
def State.zf (s : State) : Bool := s.ms.getLsbD 0

/-- `PF`, bit 1 of `MS` (R26). -/
def State.pf (s : State) : Bool := s.ms.getLsbD 1

/-- `NF`, bit 2 of `MS` (R26). -/
def State.nf (s : State) : Bool := s.ms.getLsbD 2

/-- `MI`, bit 16 of `MS` (R26, R28). -/
def State.mi (s : State) : Bool := s.ms.getLsbD 16

/-- The mode the machine is in (R253). -/
def State.mode (s : State) : Mode := if s.mi then .supervisor else .user

/-- The zero flag of a result (R12). -/
def zeroFlag {w : Nat} (v : BitVec w) : Bool := v == 0#w

/-- The negative flag of a result: its own most significant bit (R12, log 9). -/
def negativeFlag {w : Nat} (v : BitVec w) : Bool := v.msb

/-- The positive flag of a result (R12). -/
def positiveFlag {w : Nat} (v : BitVec w) : Bool := !zeroFlag v && !negativeFlag v

/-- An `MS` whose three flags are replaced and whose other bits are kept (R12). -/
def withFlags (ms : Word) (z p n : Bool) : Word :=
  ms.extractLsb' 3 29 ++ BitVec.ofBool n ++ BitVec.ofBool p ++ BitVec.ofBool z

/-- `SetFlags_N` (R12): the flags of a result of any width; no other bit of `MS` changes. -/
def State.setFlags {w : Nat} (s : State) (v : BitVec w) : State :=
  { s with ms := withFlags s.ms (zeroFlag v) (positiveFlag v) (negativeFlag v) }

/-- `MI <- 1` (R163, R247). -/
def State.setMI (s : State) : State := { s with ms := s.ms ||| 0x00010000#32 }

/-- The reserved bits of `MS` (R37). -/
def msReservedMask : Word := 0xFFFEFFF8#32

/-- No reserved bit is set in an `MS` image (R37, R165). -/
def msReservedZero (m : Word) : Bool := m &&& msReservedMask == 0#32

end Sys2Proof.Machine
end

