-- ==== Sys2Proof/Config.lean ====
section
/-! DEFINITION. The parameters of the spec (92_eei_decisions.md: `INIT_MEM`, `PORT_ORACLE`, `CLOCK_ORACLE`,
`IRQ_ORDER`) as free values: constants without a body, so that nothing can be proved of what they are and a
statement holds for every value of them. Where a value may differ from one use to the next, its first argument is
the counter `freeTick` of the state, which every use advances. -/

namespace Sys2Proof.Config

/-- `INIT_MEM` (R71, R283): what the byte at an address of `0x00200`..`0xfffff` holds when the first cycle begins.
Log 21. -/
opaque initMem : Nat → Byte

/-- `PORT_ORACLE` (R260): what a read, made at the given tick, of a port without a device (or of the
write-only port 12) returns. Log 15. -/
opaque portOracle : Nat → Port → Word

/-- The 24 undefined bits 30..7 of a read of port 8 (R258). Log 17. -/
opaque charUndefined : Nat → BitVec 24

/-- `CLOCK_ORACLE` (R257): the year that a read of port 4 returns. Log 16. -/
opaque clockYear : Nat → BitVec 16

/-- `CLOCK_ORACLE` (R257): the month counted from 0, taken modulo 12. Log 16. -/
opaque clockMonth : Nat → Nat

/-- `CLOCK_ORACLE` (R257): the day counted from 0, taken modulo 31. Log 16. -/
opaque clockDay : Nat → Nat

/-- `CLOCK_ORACLE` (R257): the hour, taken modulo 24. Log 16. -/
opaque clockHour : Nat → Nat

/-- `CLOCK_ORACLE` (R257): the minute, taken modulo 60. Log 16. -/
opaque clockMinute : Nat → Nat

/-- `CLOCK_ORACLE` (R257): the second, taken modulo 60. Log 16. -/
opaque clockSecond : Nat → Nat

/-- The Reserved bits 31..25 of a read of port 4 (R257). Log 16. -/
opaque clockDateReserved : Nat → BitVec 7

/-- The Reserved bits 31..17 of a read of port 5 (R257). Log 16. -/
opaque clockTimeReserved : Nat → BitVec 15

/-- `IRQ_ORDER` (R248): which of the pending vectors, two or more, is taken, as a position counted modulo
their number. Log 12. -/
opaque irqPick : Nat → List IntVec → Nat

/-- `IRQ_ORDER` (R248): whether step 1 of the cycle goes on with another pending vector. Log 12. -/
opaque irqContinue : Nat → List IntVec → Bool

end Sys2Proof.Config
end

