-- ==== Sys2Proof/Machine/Memory.lean ====
section
/-! DEFINITION. Memory as data: what an address holds, the bytes of shorts, words and doublewords (20_memory.md R50 to
R53, R69), and the canonical form. Alignment and protection are checked in Ops.lean. -/

namespace Sys2Proof.Machine

/-- What an unlisted address holds: the IVT and the SCT are zero at reset (R35, R280); elsewhere the list says
nothing, and the byte is `INIT_MEM`'s (R71, R283; log 21). -/
def Memory.unlisted (a : Nat) : Option Byte := if a < 0x200 then some 0#8 else none

/-- What the list determines of the byte at an address. -/
def Memory.lookup : Memory → Nat → Option Byte
  | [], a => Memory.unlisted a
  | (k, b) :: m, a => if a = k then some b else Memory.lookup m a

/-- The byte at an address (`M[a]`, R52): what is listed or zero at reset, else the parameter `INIT_MEM` (R71). -/
def Memory.byte (m : Memory) (a : Nat) : Byte := (Memory.lookup m a).getD (Config.initMem a)

/-- The list with a byte put at its place in the order of addresses. -/
def Memory.insert (a : Nat) (b : Byte) : Memory → Memory
  | [] => [(a, b)]
  | (k, c) :: m =>
    if a < k then (a, b) :: (k, c) :: m
    else if a = k then (a, b) :: m
    else (k, c) :: Memory.insert a b m

/-- The list without an address. -/
def Memory.erase (a : Nat) (m : Memory) : Memory := m.filter (fun c => c.1 != a)

/-- The store of one byte: a byte equal to what the unlisted address holds is not listed. -/
def Memory.writeByte (m : Memory) (a : Nat) (b : Byte) : Memory :=
  if Memory.unlisted a = some b then Memory.erase a m else Memory.insert a b m

/-- The store of bytes at consecutive addresses, the first at `a`. -/
def Memory.writeBytes (m : Memory) (a : Nat) : List Byte → Memory
  | [] => m
  | b :: bs => Memory.writeBytes (Memory.writeByte m a b) (a + 1) bs

/-- `MemRead(a, 2)` without its checks (R52). -/
def Memory.short (m : Memory) (a : Nat) : BitVec 16 := Memory.byte m (a + 1) ++ Memory.byte m a

/-- `MemRead(a, 4)` without its checks (R52). -/
def Memory.word (m : Memory) (a : Nat) : Word :=
  Memory.byte m (a + 3) ++ Memory.byte m (a + 2) ++ Memory.byte m (a + 1) ++ Memory.byte m a

/-- The `n` bytes of a value, the least significant first (R52, R69). -/
def littleEndian {w : Nat} : Nat → BitVec w → List Byte
  | 0, _ => []
  | n + 1, v => v.setWidth 8 :: littleEndian n (v >>> 8)

/-- A listed byte is inside the address space and is not what its address would hold unlisted. -/
def Memory.cellOk (c : Host.Cell) : Bool := c.1 < 2 ^ 20 && Memory.unlisted c.1 != some c.2

/-- The canonical form: addresses strictly rising, every cell inside the address space and not redundant. -/
def Memory.wf : Memory → Bool
  | [] => true
  | [c] => Memory.cellOk c
  | c :: d :: m => Memory.cellOk c && c.1 < d.1 && Memory.wf (d :: m)

/-- The byte at an address of the machine's memory. -/
def State.byteAt (s : State) (a : Nat) : Byte := Memory.byte s.mem a

/-- The word at an address of the machine's memory, without checks. -/
def State.wordAt (s : State) (a : Nat) : Word := Memory.word s.mem a

end Sys2Proof.Machine
end

