-- ==== Sys2Proof/Machine/Ops.lean ====
section
/-! DEFINITION. The shared operations: errors, registers, checked memory accesses, the stack, `SetPC`, entering a
handler (the one operation of system calls and interrupts) and returning from it. An operation that can raise an
error answers in `Except Fault`; the fault carries the state at the raise (60_exceptions.md R241, R243). -/

namespace Sys2Proof.Machine

/-- `raise Error(kind)` (R13): the fault of a kind, with the state made so far. -/
def raise (k : ErrorKind) (s : State) : Fault :=
  match k with
  | .alignment => .alignment s
  | .protection => .protection s
  | .privilegeViolation => .privilegeViolation s
  | .sctDisabled => .sctDisabled s
  | .illegalInstruction => .illegalInstruction s
  | .addressRange => .addressRange s
  | .reservedValue => .reservedValue s

/-- A meaning's result as the outcome of a step (R241). -/
def outcomeOf (r : Except Fault State) : Host.Outcome State Fault Refusal :=
  match r with
  | .ok s => .next s
  | .error f => .fault f

/-! ## Registers -/

/-- `x[r]` (R9, R20). -/
def State.reg (s : State) (r : RegNum) : Word := s.regs.get (Fin.cast rfl r.toFin)

/-- `x[r] <- v` (R9, R20). -/
def State.setReg (s : State) (r : RegNum) (v : Word) : State :=
  { s with regs := s.regs.set r.toNat v r.isLt }

/-- The stack pointer's register number (R21). -/
def sp : RegNum := 15#4

/-- `NextReg(n)` is `(n + 1) mod 8` (R23). -/
def nextReg (n : RegNum) : RegNum := BitVec.ofNat 4 ((n.toNat + 1) % 8)

/-- The address in a register: its low 20 bits (R61 b). -/
def addrOf (v : Word) : Addr := v.extractLsb' 0 20

/-! ## Memory accesses -/

/-- The first memory address open to user mode (R58). -/
def protectedBelow : Nat := 0x08000

/-- The checks of an access of `n` bytes, in order: alignment, then protection (R54, R58, R60). A system access
(R59) is one made as supervisor. -/
def accessError (priv : Mode) (n : Nat) (a : Addr) : Option ErrorKind :=
  if a.toNat % n ≠ 0 then some .alignment
  else if priv = .user ∧ a.toNat < protectedBelow then some .protection
  else none

/-- A value that a check must allow. -/
def checked {α : Type} (e : Option ErrorKind) (s : State) (x : α) : Except Fault α :=
  match e with
  | none => .ok x
  | some k => .error (raise k s)

/-- `MemRead(a, 1)` (R10, R60). -/
def loadByte (priv : Mode) (a : Addr) (s : State) : Except Fault Byte :=
  checked (accessError priv 1 a) s (Memory.byte s.mem a.toNat)

/-- `MemRead(a, 2)` (R10, R60). -/
def loadShort (priv : Mode) (a : Addr) (s : State) : Except Fault (BitVec 16) :=
  checked (accessError priv 2 a) s (Memory.short s.mem a.toNat)

/-- `MemRead(a, 4)` (R10, R60). -/
def loadWord (priv : Mode) (a : Addr) (s : State) : Except Fault Word :=
  checked (accessError priv 4 a) s (Memory.word s.mem a.toNat)

/-- The state with the low `n` bytes of a value at an address (R52). -/
def State.putBytes {w : Nat} (s : State) (a : Addr) (n : Nat) (v : BitVec w) : State :=
  { s with mem := Memory.writeBytes s.mem a.toNat (littleEndian n v) }

/-- `MemWrite(a, n, v)` (R10, R60). -/
def store {w : Nat} (priv : Mode) (a : Addr) (n : Nat) (v : BitVec w) (s : State) : Except Fault State :=
  checked (accessError priv n a) s (s.putBytes a n v)

/-! ## Program counter -/

/-- `SetPC(a)` (R9, R56, R166). -/
def setPC (a : Addr) (s : State) : Except Fault State :=
  if a.extractLsb' 0 2 ≠ 0#2 then .error (raise .alignment s) else .ok { s with pc := a }

/-! ## Stack -/

/-- `StackAddr()` (R14): the stack pointer must be below `0x100000` (log 5). -/
def stackAddr (s : State) : Except Fault Addr :=
  if (s.reg sp).extractLsb' 20 12 ≠ 0#12 then .error (raise .addressRange s) else .ok (addrOf (s.reg sp))

/-- `Push(v)` (R14), and `PushSys(v)` when made as supervisor (R59): the stack pointer goes down before the store is
checked, and stays down if the store raises an error. -/
def push (priv : Mode) (v : Word) (s : State) : Except Fault State := do
  let s1 := s.setReg sp (s.reg sp - 4#32)
  let a ← stackAddr s1
  store priv a 4 v s1

/-- The word at the stack top, the stack pointer unchanged: `MemRead(StackAddr(), 4)` (R164, R165, R207). -/
def stackTop (priv : Mode) (s : State) : Except Fault Word := do
  let a ← stackAddr s
  loadWord priv a s

/-- `x[15] <- x[15] + 4` (R208). -/
def State.popped (s : State) : State := s.setReg sp (s.reg sp + 4#32)

/-! ## Entering a handler and returning from it -/

/-- The enable bit 31 of an IVT or SCT entry (R163, R246). -/
def entryEnabled (e : Word) : Bool := e.getLsbD 31

/-- The reserved bits 30..20 of an IVT or SCT entry are zero (R163, R246). -/
def entryReservedZero (e : Word) : Bool := e.extractLsb' 20 11 == 0#11

/-- The switch to the supervisor stack: `x[15]` becomes `SSP`, and the old `x[15]` is pushed there (R163, R247). -/
def switchStack (s : State) : Except Fault State :=
  push .supervisor (s.reg sp) (s.setReg sp (s.ssp.setWidth 32))

/-- The stack a handler is entered on: the supervisor stack if a switch is asked, else the current one (R247, 2). -/
def handlerStack (switch : Bool) (s : State) : Except Fault State := if switch then switchStack s else .ok s

/-- Entering a handler through an enabled table entry, shared by SCL (R163) and interrupt service (R247): the
reserved bits of the entry are checked, the stack is switched if asked, `MS` and `PC` are pushed, `MI` is set, and
`PC` takes the handler's address. All accesses are system accesses (R59). -/
def enterHandler (entry : Word) (switch : Bool) (s : State) : Except Fault State :=
  if !entryReservedZero entry then .error (raise .reservedValue s)
  else do
    let s1 ← handlerStack switch s
    let s2 ← push .supervisor s1.ms s1
    let s3 ← push .supervisor (s2.pc.setWidth 32) s2
    setPC (addrOf entry) s3.setMI

/-- Returning from a handler: the Operation of RETI/RETS after its privilege test (R165, R252). It undoes what
`enterHandler` pushed; all accesses are made as supervisor (R59). -/
def returnFromHandler (s : State) : Except Fault State := do
  let t ← stackTop .supervisor s
  let s1 ← setPC (addrOf t) s.popped
  let m ← stackTop .supervisor s1
  if !msReservedZero m then .error (raise .reservedValue s1)
  else
    let s2 := State.popped { s1 with ms := m }
    if s2.mi then .ok s2
    else do
      let u ← stackTop .supervisor s2
      .ok (s2.setReg sp u)

/-- The privilege test of IN, OUT, SSSP, HALT and RETI/RETS (R255): the state, in supervisor mode. -/
def privileged (s : State) : Except Fault State :=
  if s.mi then .ok s else .error (raise .privilegeViolation s)

end Sys2Proof.Machine
end

