-- ==== Sys2Proof/Machine/Operands.lean ====
section
/-! DEFINITION. The operand forms (30_encoding.md R82 to R90): reading a register-or-indirect operand, resolving a
destination before the instruction changes anything, and writing it, whole or its low part. -/

namespace Sys2Proof.Machine

/-- A resolved destination (R88). -/
inductive Dest where
  /-- A register. -/
  | reg (r : RegNum)
  /-- The memory at an address. -/
  | mem (a : Addr)
deriving DecidableEq, Repr

/-- `RdOp(o)` (R87): a register, or the aligned word at the address in a register (log 3). -/
def readOperand (priv : Mode) (o : Operand) (s : State) : Except Fault Word :=
  match o with
  | .reg r => .ok (s.reg r)
  | .ind r => loadWord priv (addrOf (s.reg r)) s

/-- `OpDest(o)` (R88): no access and no check. -/
def destOf (o : Operand) (s : State) : Dest :=
  match o with
  | .reg r => .reg r
  | .ind r => .mem (addrOf (s.reg r))

/-- `WrDest(d, v)` (R89). -/
def writeDest (priv : Mode) (d : Dest) (v : Word) (s : State) : Except Fault State :=
  match d with
  | .reg r => .ok (s.setReg r v)
  | .mem a => store priv a 4 v s

/-- `x[r][7:0] <- b` (R9): bits 31..8 keep their value. -/
def mergeByte (old : Word) (b : Byte) : Word := old.extractLsb' 8 24 ++ b

/-- `x[r][15:0] <- h` (R9): bits 31..16 keep their value. -/
def mergeShort (old : Word) (h : BitVec 16) : Word := old.extractLsb' 16 16 ++ h

/-- The memory destination of a partial write (R89): the address must be a multiple of 4, and only the low `n` bytes
of the word there are stored (log 3). -/
def storePart {w : Nat} (priv : Mode) (a : Addr) (n : Nat) (v : BitVec w) (s : State) : Except Fault State :=
  if a.toNat % 4 ≠ 0 then .error (raise .alignment s) else store priv a n v s

/-- `WrDestLow(d, 1, b)` (R89). -/
def writeDestByte (priv : Mode) (d : Dest) (b : Byte) (s : State) : Except Fault State :=
  match d with
  | .reg r => .ok (s.setReg r (mergeByte (s.reg r) b))
  | .mem a => storePart priv a 1 b s

/-- `WrDestLow(d, 2, h)` (R89). -/
def writeDestShort (priv : Mode) (d : Dest) (h : BitVec 16) (s : State) : Except Fault State :=
  match d with
  | .reg r => .ok (s.setReg r (mergeShort (s.reg r) h))
  | .mem a => storePart priv a 2 h s

/-- The doubleword destination of IMULW and UMULW (R125, R128): the pair `n`, `NextReg(n)`, or 8 bytes in memory. -/
def writeDestDouble (priv : Mode) (d : Dest) (v : BitVec 64) (s : State) : Except Fault State :=
  match d with
  | .reg n => .ok ((s.setReg n (v.extractLsb' 0 32)).setReg (nextReg n) (v.extractLsb' 32 32))
  | .mem a => store priv a 8 v s

/-- The sign extension of an `imm16` (R109). -/
def signImm (imm : BitVec 16) : Word := imm.signExtend 32

/-- The zero extension of an `imm16` (R109). -/
def zeroImm (imm : BitVec 16) : Word := imm.setWidth 32

/-! ## The shapes of the operand instructions: sources read in syntax order, then the destination resolved, then the
result written and the flags set (R90). The checks of every access use the mode at the start (log 8). -/

/-- A result written to a destination, then the flags from it; a failing write leaves the flags unchanged
(40_arithmetic.md, the common errors). -/
def writeResult (d : Operand) (r : Word) (s : State) : Except Fault State := do
  let s1 ← writeDest s.mode (destOf d s) r s
  .ok (s1.setFlags r)

/-- `OP DO, SO1, SO2` with a 32-bit result. -/
def binaryOp (f : Word → Word → Word) (d o1 o2 : Operand) (s : State) : Except Fault State := do
  let a ← readOperand s.mode o1 s
  let b ← readOperand s.mode o2 s
  writeResult d (f a b) s

/-- `OP DO, SO1, imm16` with a 32-bit result; the immediate is sign-extended (R109). -/
def binaryImm (f : Word → Word → Word) (d o1 : Operand) (imm : BitVec 16) (s : State) : Except Fault State := do
  let a ← readOperand s.mode o1 s
  writeResult d (f a (signImm imm)) s

/-- `OP DO, SO` with a 32-bit result. -/
def unaryOp (f : Word → Word) (d o : Operand) (s : State) : Except Fault State := do
  let v ← readOperand s.mode o s
  writeResult d (f v) s

/-- `OP DO, addr20` with a 32-bit result: the operand is the word stored at the address (R84). -/
def unaryAbs (f : Word → Word) (d : Operand) (addr : Addr) (s : State) : Except Fault State := do
  let v ← loadWord s.mode addr s
  writeResult d (f v) s

/-- `OP DO, SO1, SO2` with a 16-bit result in the low half of the destination. -/
def binaryShort (f : Word → Word → BitVec 16) (d o1 o2 : Operand) (s : State) : Except Fault State := do
  let a ← readOperand s.mode o1 s
  let b ← readOperand s.mode o2 s
  let s1 ← writeDestShort s.mode (destOf d s) (f a b) s
  .ok (s1.setFlags (f a b))

/-- `OP DO, SO1, SO2` with a 64-bit result. -/
def binaryDouble (f : Word → Word → BitVec 64) (d o1 o2 : Operand) (s : State) : Except Fault State := do
  let a ← readOperand s.mode o1 s
  let b ← readOperand s.mode o2 s
  let s1 ← writeDestDouble s.mode (destOf d s) (f a b) s
  .ok (s1.setFlags (f a b))

end Sys2Proof.Machine
end

