-- ==== Sys2Proof/Machine/Arithmetic.lean ====
section
/-! DEFINITION. The arithmetic instructions (40_arithmetic.md): ADD, SUB, CMP, the six multiplies, NEG. -/

namespace Sys2Proof.Machine

/-- The signed product of two N-bit values, N being `n`, at the double width `m` (R122 to R125, R131). -/
def signedProduct (m : Nat) {n : Nat} (a b : BitVec n) : BitVec m := BitVec.ofInt m (a.toInt * b.toInt)

/-- The unsigned product of two N-bit values, N being `n`, at the double width `m` (R122, R126 to R128, R131). -/
def unsignedProduct (m : Nat) {n : Nat} (a b : BitVec n) : BitVec m := BitVec.ofNat m (a.toNat * b.toNat)

/-- CMP: the flags of the difference, nothing else (R130). -/
def compareWith (o1 : Operand) (b : Except Fault Word) (s : State) : Except Fault State := do
  let x ← readOperand s.mode o1 s
  let y ← b
  .ok (s.setFlags (x - y))

/-- `ADD DO, SO1, SO2` (R120). -/
def execAddR (d o1 o2 : Operand) (s : State) : Host.Outcome State Fault Refusal :=
  outcomeOf (binaryOp (· + ·) d o1 o2 s)

/-- `ADD DO, SO1, imm16` (R120). -/
def execAddI (d o1 : Operand) (imm : BitVec 16) (s : State) : Host.Outcome State Fault Refusal :=
  outcomeOf (binaryImm (· + ·) d o1 imm s)

/-- `SUB DO, SO1, SO2` (R121). -/
def execSubR (d o1 o2 : Operand) (s : State) : Host.Outcome State Fault Refusal :=
  outcomeOf (binaryOp (· - ·) d o1 o2 s)

/-- `SUB DO, SO1, imm16` (R121). -/
def execSubI (d o1 : Operand) (imm : BitVec 16) (s : State) : Host.Outcome State Fault Refusal :=
  outcomeOf (binaryImm (· - ·) d o1 imm s)

/-- `CMP SO1, SO2` (R130). -/
def execCmpR (o1 o2 : Operand) (s : State) : Host.Outcome State Fault Refusal :=
  outcomeOf (compareWith o1 (readOperand s.mode o2 s) s)

/-- `CMP SO1, imm16` (R130). -/
def execCmpI (o1 : Operand) (imm : BitVec 16) (s : State) : Host.Outcome State Fault Refusal :=
  outcomeOf (compareWith o1 (.ok (signImm imm)) s)

/-- `IMULB DO, SO1, SO2` (R123): the low bytes multiplied, a 16-bit result. -/
def execImulB (d o1 o2 : Operand) (s : State) : Host.Outcome State Fault Refusal :=
  outcomeOf (binaryShort (fun a b => signedProduct 16 (a.extractLsb' 0 8) (b.extractLsb' 0 8)) d o1 o2 s)

/-- `IMULS DO, SO1, SO2` (R124): the low shorts multiplied, a 32-bit result. -/
def execImulS (d o1 o2 : Operand) (s : State) : Host.Outcome State Fault Refusal :=
  outcomeOf (binaryOp (fun a b => signedProduct 32 (a.extractLsb' 0 16) (b.extractLsb' 0 16)) d o1 o2 s)

/-- `IMULW DO, SO1, SO2` (R125): the words multiplied, a 64-bit result. -/
def execImulW (d o1 o2 : Operand) (s : State) : Host.Outcome State Fault Refusal :=
  outcomeOf (binaryDouble (fun a b => signedProduct 64 a b) d o1 o2 s)

/-- `UMULB DO, SO1, SO2` (R126): the low bytes multiplied, a 16-bit result. -/
def execUmulB (d o1 o2 : Operand) (s : State) : Host.Outcome State Fault Refusal :=
  outcomeOf (binaryShort (fun a b => unsignedProduct 16 (a.extractLsb' 0 8) (b.extractLsb' 0 8)) d o1 o2 s)

/-- `UMULS DO, SO1, SO2` (R127): the low shorts multiplied, a 32-bit result. -/
def execUmulS (d o1 o2 : Operand) (s : State) : Host.Outcome State Fault Refusal :=
  outcomeOf (binaryOp (fun a b => unsignedProduct 32 (a.extractLsb' 0 16) (b.extractLsb' 0 16)) d o1 o2 s)

/-- `UMULW DO, SO1, SO2` (R128): the words multiplied, a 64-bit result. -/
def execUmulW (d o1 o2 : Operand) (s : State) : Host.Outcome State Fault Refusal :=
  outcomeOf (binaryDouble (fun a b => unsignedProduct 64 a b) d o1 o2 s)

/-- `NEG DO, addr20` (R129). -/
def execNegA (d : Operand) (addr : Addr) (s : State) : Host.Outcome State Fault Refusal :=
  outcomeOf (unaryAbs (fun v => 0#32 - v) d addr s)

/-- `NEG DO, SO` (R129). -/
def execNegR (d o : Operand) (s : State) : Host.Outcome State Fault Refusal :=
  outcomeOf (unaryOp (fun v => 0#32 - v) d o s)

end Sys2Proof.Machine
end

