-- ==== Sys2Proof/Machine/Control.lean ====
section
/-! DEFINITION. The control transfer instructions (42_control.md): JC, JMP, CALL, SCL, RET, RETI/RETS. On entry the
program counter holds the address of the next instruction (R15). -/

namespace Sys2Proof.Machine

/-- The condition of a JC (R160): a flag whose letter is present is set. -/
def jumpTaken (n p z : Bool) (s : State) : Bool := (n && s.nf) || (p && s.pf) || (z && s.zf)

/-- A jump on a condition (R160): a misaligned target is an error only if the jump is taken. -/
def jumpIf (taken : Bool) (target : Addr) (s : State) : Except Fault State :=
  if taken then setPC target s else .ok s

/-- CALL (R162): the return address is pushed, then the target is checked. -/
def callTo (target : Addr) (s : State) : Except Fault State := do
  let s1 ← push s.mode (s.pc.setWidth 32) s
  setPC target s1

/-- The address of entry `n` of the SCT (R163). -/
def sctEntry (n : BitVec 5) : Addr := BitVec.ofNat 20 (0x00100 + 4 * n.toNat)

/-- SCL (R163): the entry is read as a system access; a disabled one is an error; then the handler is entered, the
stack switched whatever the mode. -/
def systemCall (n : BitVec 5) (s : State) : Except Fault State := do
  let e ← loadWord .supervisor (sctEntry n) s
  if !entryEnabled e then .error (raise .sctDisabled s)
  else enterHandler e true s

/-- RET (R164). -/
def returnFromCall (s : State) : Except Fault State := do
  let t ← stackTop s.mode s
  setPC (addrOf t) s.popped

/-- RETI/RETS (R165). -/
def privilegedReturn (s : State) : Except Fault State := do
  let s1 ← privileged s
  returnFromHandler s1

/-- `JC<c> addr20` (R160). -/
def execJcA (n p z : Bool) (addr : Addr) (s : State) : Host.Outcome State Fault Refusal :=
  outcomeOf (jumpIf (jumpTaken n p z s) addr s)

/-- `JC<c> [SR]` (R160): the register holds the target. -/
def execJcR (n p z : Bool) (sr : RegNum) (s : State) : Host.Outcome State Fault Refusal :=
  outcomeOf (jumpIf (jumpTaken n p z s) (addrOf (s.reg sr)) s)

/-- `JMP addr20` (R161): the flags are not tested. -/
def execJmpA (addr : Addr) (s : State) : Host.Outcome State Fault Refusal :=
  outcomeOf (setPC addr s)

/-- `JMP [SR]` (R161). -/
def execJmpR (sr : RegNum) (s : State) : Host.Outcome State Fault Refusal :=
  outcomeOf (setPC (addrOf (s.reg sr)) s)

/-- `CALL addr20` (R162). -/
def execCallA (addr : Addr) (s : State) : Host.Outcome State Fault Refusal :=
  outcomeOf (callTo addr s)

/-- `CALL [SR]` (R162): the target is the register before the push (log 7). -/
def execCallR (sr : RegNum) (s : State) : Host.Outcome State Fault Refusal :=
  outcomeOf (callTo (addrOf (s.reg sr)) s)

/-- `SCL imm5` (R163). -/
def execScl (imm : BitVec 5) (s : State) : Host.Outcome State Fault Refusal :=
  outcomeOf (systemCall imm s)

/-- `RET` (R164). -/
def execRet (s : State) : Host.Outcome State Fault Refusal :=
  outcomeOf (returnFromCall s)

/-- `RETI` (R165). -/
def execReti (s : State) : Host.Outcome State Fault Refusal :=
  outcomeOf (privilegedReturn s)

/-- `RETS`, the same instruction as RETI (R114, R165). -/
def execRets (s : State) : Host.Outcome State Fault Refusal :=
  outcomeOf (privilegedReturn s)

end Sys2Proof.Machine
end

