-- ==== Sys2Proof/Machine/LoadStore.lean ====
section
/-! DEFINITION. The load, store and copy instructions (43_load_store_copy.md). -/

namespace Sys2Proof.Machine

/-- The end of a load (R180 to R182): the destination register and the flags take the 32-bit value. -/
def loadInto (dr : RegNum) (v : Word) (s : State) : State := (s.setReg dr v).setFlags v

/-- LDB from an address (R180). -/
def loadByteInto (dr : RegNum) (a : Addr) (s : State) : Except Fault State := do
  let b ← loadByte s.mode a s
  .ok (loadInto dr (b.signExtend 32) s)

/-- LDS from an address (R181). -/
def loadShortInto (dr : RegNum) (a : Addr) (s : State) : Except Fault State := do
  let h ← loadShort s.mode a s
  .ok (loadInto dr (h.signExtend 32) s)

/-- LDW from an address (R182). -/
def loadWordInto (dr : RegNum) (a : Addr) (s : State) : Except Fault State := do
  let v ← loadWord s.mode a s
  .ok (loadInto dr v s)

/-- `LDB DR, addr20` (R180). -/
def execLdbA (dr : RegNum) (addr : Addr) (s : State) : Host.Outcome State Fault Refusal :=
  outcomeOf (loadByteInto dr addr s)

/-- `LDB DR, [SR]` (R180). -/
def execLdbR (dr sr : RegNum) (s : State) : Host.Outcome State Fault Refusal :=
  outcomeOf (loadByteInto dr (addrOf (s.reg sr)) s)

/-- `LDS DR, addr20` (R181). -/
def execLdsA (dr : RegNum) (addr : Addr) (s : State) : Host.Outcome State Fault Refusal :=
  outcomeOf (loadShortInto dr addr s)

/-- `LDS DR, [SR]` (R181). -/
def execLdsR (dr sr : RegNum) (s : State) : Host.Outcome State Fault Refusal :=
  outcomeOf (loadShortInto dr (addrOf (s.reg sr)) s)

/-- `LDW DR, addr20` (R182). -/
def execLdwA (dr : RegNum) (addr : Addr) (s : State) : Host.Outcome State Fault Refusal :=
  outcomeOf (loadWordInto dr addr s)

/-- `LDW DR, [SR]` (R182). -/
def execLdwR (dr sr : RegNum) (s : State) : Host.Outcome State Fault Refusal :=
  outcomeOf (loadWordInto dr (addrOf (s.reg sr)) s)

/-- `STB addr20, SR` (R183). -/
def execStbA (addr : Addr) (sr : RegNum) (s : State) : Host.Outcome State Fault Refusal :=
  outcomeOf (store s.mode addr 1 (s.reg sr) s)

/-- `STB [DR], SR` (R183). -/
def execStbR (dr sr : RegNum) (s : State) : Host.Outcome State Fault Refusal :=
  outcomeOf (store s.mode (addrOf (s.reg dr)) 1 (s.reg sr) s)

/-- `STS addr20, SR` (R184). -/
def execStsA (addr : Addr) (sr : RegNum) (s : State) : Host.Outcome State Fault Refusal :=
  outcomeOf (store s.mode addr 2 (s.reg sr) s)

/-- `STS [DR], SR` (R184). -/
def execStsR (dr sr : RegNum) (s : State) : Host.Outcome State Fault Refusal :=
  outcomeOf (store s.mode (addrOf (s.reg dr)) 2 (s.reg sr) s)

/-- `STW addr20, SR` (R185). -/
def execStwA (addr : Addr) (sr : RegNum) (s : State) : Host.Outcome State Fault Refusal :=
  outcomeOf (store s.mode addr 4 (s.reg sr) s)

/-- `STW [DR], SR` (R185). -/
def execStwR (dr sr : RegNum) (s : State) : Host.Outcome State Fault Refusal :=
  outcomeOf (store s.mode (addrOf (s.reg dr)) 4 (s.reg sr) s)

/-- `CPYI DR, imm16` (R186). -/
def execCpyI (dr : RegNum) (imm : BitVec 16) (s : State) : Host.Outcome State Fault Refusal :=
  outcomeOf (.ok (s.setReg dr (signImm imm)))

/-- `CPYU DR, imm16` (R187). -/
def execCpyU (dr : RegNum) (imm : BitVec 16) (s : State) : Host.Outcome State Fault Refusal :=
  outcomeOf (.ok (s.setReg dr (zeroImm imm)))

/-- `CPY DR, SR` (R188). -/
def execCpy (dr sr : RegNum) (s : State) : Host.Outcome State Fault Refusal :=
  outcomeOf (.ok (s.setReg dr (s.reg sr)))

end Sys2Proof.Machine
end

