-- ==== Sys2Proof/Machine/Logic.lean ====
section
/-! DEFINITION. The logical and shift instructions (41_logic_shift.md): AND, OR, XOR, NOT, SHFL, SHFRL, SHFRA. All
are bitwise on 32 bits (90_conflicts.md C5). -/

namespace Sys2Proof.Machine

/-- `AND DO, SO1, SO2` (R140). -/
def execAndR (d o1 o2 : Operand) (s : State) : Host.Outcome State Fault Refusal :=
  outcomeOf (binaryOp (· &&& ·) d o1 o2 s)

/-- `AND DO, SO1, imm16` (R140). -/
def execAndI (d o1 : Operand) (imm : BitVec 16) (s : State) : Host.Outcome State Fault Refusal :=
  outcomeOf (binaryImm (· &&& ·) d o1 imm s)

/-- `OR DO, SO1, SO2` (R141). -/
def execOrR (d o1 o2 : Operand) (s : State) : Host.Outcome State Fault Refusal :=
  outcomeOf (binaryOp (· ||| ·) d o1 o2 s)

/-- `OR DO, SO1, imm16` (R141). -/
def execOrI (d o1 : Operand) (imm : BitVec 16) (s : State) : Host.Outcome State Fault Refusal :=
  outcomeOf (binaryImm (· ||| ·) d o1 imm s)

/-- `XOR DO, SO1, SO2` (R143). -/
def execXorR (d o1 o2 : Operand) (s : State) : Host.Outcome State Fault Refusal :=
  outcomeOf (binaryOp (· ^^^ ·) d o1 o2 s)

/-- `XOR DO, SO1, imm16` (R143). -/
def execXorI (d o1 : Operand) (imm : BitVec 16) (s : State) : Host.Outcome State Fault Refusal :=
  outcomeOf (binaryImm (· ^^^ ·) d o1 imm s)

/-- `NOT DO, addr20` (R142). -/
def execNotA (d : Operand) (addr : Addr) (s : State) : Host.Outcome State Fault Refusal :=
  outcomeOf (unaryAbs (fun v => ~~~v) d addr s)

/-- `NOT DO, SO` (R142). -/
def execNotR (d o : Operand) (s : State) : Host.Outcome State Fault Refusal :=
  outcomeOf (unaryOp (fun v => ~~~v) d o s)

/-- `SHFL DO, SO, imm5` (R144, R8): vacated bits zero. -/
def execShfl (d o : Operand) (imm : BitVec 5) (s : State) : Host.Outcome State Fault Refusal :=
  outcomeOf (unaryOp (fun v => v <<< imm.toNat) d o s)

/-- `SHFRL DO, SO, imm5` (R145, R8): vacated bits zero. -/
def execShfrl (d o : Operand) (imm : BitVec 5) (s : State) : Host.Outcome State Fault Refusal :=
  outcomeOf (unaryOp (fun v => v >>> imm.toNat) d o s)

/-- `SHFRA DO, SO, imm5` (R146, R8): vacated bits copies of bit 31. -/
def execShfra (d o : Operand) (imm : BitVec 5) (s : State) : Host.Outcome State Fault Refusal :=
  outcomeOf (unaryOp (fun v => v.sshiftRight imm.toNat) d o s)

end Sys2Proof.Machine
end

