-- ==== Sys2Proof/Machine/Stack.lean ====
section
/-! DEFINITION. The stack instructions (44_stack.md). Operands and destination addresses are taken before the stack
pointer moves (R209, log 7). -/

namespace Sys2Proof.Machine

/-- PUSHB, PUSHS, PUSHW: an operand is read, then pushed as a word (R202 to R204). -/
def pushOperand (v : Except Fault Word) (s : State) : Except Fault State := do
  let x ← v
  push s.mode x s

/-- POPB (R205): one byte is read at the stack top, written, and the stack pointer goes up by 4. -/
def popByte (write : Byte → State → Except Fault State) (s : State) : Except Fault State := do
  let a ← stackAddr s
  let b ← loadByte s.mode a s
  let s1 ← write b s
  .ok s1.popped

/-- POPS (R206). -/
def popShort (write : BitVec 16 → State → Except Fault State) (s : State) : Except Fault State := do
  let a ← stackAddr s
  let h ← loadShort s.mode a s
  let s1 ← write h s
  .ok s1.popped

/-- POPW (R207). -/
def popWord (write : Word → State → Except Fault State) (s : State) : Except Fault State := do
  let v ← stackTop s.mode s
  let s1 ← write v s
  .ok s1.popped

/-- `PUSHI imm16` (R200). -/
def execPushI (imm : BitVec 16) (s : State) : Host.Outcome State Fault Refusal :=
  outcomeOf (push s.mode (signImm imm) s)

/-- `PUSHU imm16` (R201). -/
def execPushU (imm : BitVec 16) (s : State) : Host.Outcome State Fault Refusal :=
  outcomeOf (push s.mode (zeroImm imm) s)

/-- `PUSHB addr20` (R202): the byte at the address. -/
def execPushbA (addr : Addr) (s : State) : Host.Outcome State Fault Refusal :=
  outcomeOf (pushOperand ((loadByte s.mode addr s).map (·.signExtend 32)) s)

/-- `PUSHB SO` (R202): the low byte of the 32-bit operand. -/
def execPushbR (o : Operand) (s : State) : Host.Outcome State Fault Refusal :=
  outcomeOf (pushOperand ((readOperand s.mode o s).map (fun v => (v.extractLsb' 0 8).signExtend 32)) s)

/-- `PUSHS addr20` (R203). -/
def execPushsA (addr : Addr) (s : State) : Host.Outcome State Fault Refusal :=
  outcomeOf (pushOperand ((loadShort s.mode addr s).map (·.signExtend 32)) s)

/-- `PUSHS SO` (R203). -/
def execPushsR (o : Operand) (s : State) : Host.Outcome State Fault Refusal :=
  outcomeOf (pushOperand ((readOperand s.mode o s).map (fun v => (v.extractLsb' 0 16).signExtend 32)) s)

/-- `PUSHW addr20` (R204). -/
def execPushwA (addr : Addr) (s : State) : Host.Outcome State Fault Refusal :=
  outcomeOf (pushOperand (loadWord s.mode addr s) s)

/-- `PUSHW SO` (R204). -/
def execPushwR (o : Operand) (s : State) : Host.Outcome State Fault Refusal :=
  outcomeOf (pushOperand (readOperand s.mode o s) s)

/-- `POPB addr20` (R205): one byte is stored at any address. -/
def execPopbA (addr : Addr) (s : State) : Host.Outcome State Fault Refusal :=
  outcomeOf (popByte (store s.mode addr 1) s)

/-- `POPB DO` (R205). -/
def execPopbR (d : Operand) (s : State) : Host.Outcome State Fault Refusal :=
  outcomeOf (popByte (writeDestByte s.mode (destOf d s)) s)

/-- `POPS addr20` (R206): a short is stored at an even address. -/
def execPopsA (addr : Addr) (s : State) : Host.Outcome State Fault Refusal :=
  outcomeOf (popShort (store s.mode addr 2) s)

/-- `POPS DO` (R206). -/
def execPopsR (d : Operand) (s : State) : Host.Outcome State Fault Refusal :=
  outcomeOf (popShort (writeDestShort s.mode (destOf d s)) s)

/-- `POPW addr20` (R207). -/
def execPopwA (addr : Addr) (s : State) : Host.Outcome State Fault Refusal :=
  outcomeOf (popWord (writeDest s.mode (.mem addr)) s)

/-- `POPW DO` (R207): `POPW R15` ends with the popped word plus 4 (log 7). -/
def execPopwR (d : Operand) (s : State) : Host.Outcome State Fault Refusal :=
  outcomeOf (popWord (writeDest s.mode (destOf d s)) s)

end Sys2Proof.Machine
end

