-- ==== Sys2Proof/Machine/Devices.lean ====
section
/-! DEFINITION. The I/O ports and the standard devices (60_exceptions.md R257 to R260), and what devices do between
two cycles (R245, R258). -/

namespace Sys2Proof.Machine

/-- A date word of the clock (R257): day 1..31, month 1..12, year; the Reserved bits are free (log 16). -/
def clockDate (t : Nat) : Word :=
  Config.clockDateReserved t ++ BitVec.ofNat 5 (Config.clockDay t % 31 + 1)
    ++ BitVec.ofNat 4 (Config.clockMonth t % 12 + 1) ++ Config.clockYear t

/-- A time word of the clock (R257): hour 0..23, minute 0..59, second 0..59; the Reserved bits are free (log 16). -/
def clockTime (t : Nat) : Word :=
  Config.clockTimeReserved t ++ BitVec.ofNat 5 (Config.clockHour t % 24)
    ++ BitVec.ofNat 6 (Config.clockMinute t % 60) ++ BitVec.ofNat 6 (Config.clockSecond t % 60)

/-- What a read of port 8 returns (R258): `AVL`, 24 undefined bits, the character code (log 17). -/
def charWord (s : State) : Word := BitVec.ofBool s.avl ++ Config.charUndefined s.freeTick ++ s.ch

/-- The value `PortRead(p)` returns (R257 to R260). -/
def portValue (p : Port) (s : State) : Word :=
  if p = 4#6 then clockDate s.freeTick
  else if p = 5#6 then clockTime s.freeTick
  else if p = 8#6 then charWord s
  else Config.portOracle s.freeTick p

/-- The state after `PortRead(p)`: no device changes (R258, R260); the model's counter of free values advances, so
that the next read may return something else (log 29). -/
def State.afterPortRead (s : State) : State := { s with freeTick := s.freeTick + 1 }

/-- `PortWrite(p, v)` (R257 to R260): a zero written to port 8 acknowledges the character, a word written to port 12
appends its low 7 bits to the output, every other write has no effect. -/
def portWrite (p : Port) (v : Word) (s : State) : State :=
  if p = 8#6 then (if v = 0#32 then { s with avl := false, busy := false } else s)
  else if p = 12#6 then { s with outTrace := s.outTrace ++ [v.extractLsb' 0 7] }
  else s

/-- The port number of IN and OUT: 5 bits, so ports 32..63 are not reached (R30, log 25). -/
def portNumber (p : BitVec 5) : Port := p.setWidth 6

/-- The set of pending vectors with a vector added (R245): the list stays strictly ascending (log 11). -/
def insertVector (v : IntVec) : List IntVec → List IntVec
  | [] => [v]
  | u :: us => if v < u then v :: u :: us else if v = u then u :: us else u :: insertVector v us

/-- A vector is raised (R245). -/
def State.raiseVector (s : State) (v : IntVec) : State := { s with pending := insertVector v s.pending }

/-- The vector of the character input device (R258). -/
def charVector : IntVec := 8

/-- One device event (R245, R258). A character is admitted only while the device is not busy, and vector 8 is raised
by the character input device only; an event not admitted changes nothing (log 30). -/
def deviceEvent (s : State) (e : DeviceEvent) : State :=
  match e with
  | .vector v => if v = charVector then s else s.raiseVector v
  | .char c => if s.busy then s else State.raiseVector { s with avl := true, ch := c, busy := true } charVector

/-- What the devices do before a cycle: the first list of `arrivals` is taken and its events happen in order
(R245, R284). -/
def deliverArrivals (s : State) : State :=
  match s.arrivals with
  | [] => s
  | es :: rest => es.foldl deviceEvent { s with arrivals := rest }

end Sys2Proof.Machine
end

