-- ==== Sys2Proof/Machine/System.lean ====
section
/-! DEFINITION. The port and system instructions (45_io_system.md): IN, OUT, SSSP, HALT. The operands are read
before the privilege test (R242, log 19). -/

namespace Sys2Proof.Machine

/-- IN from a port (R220): the privilege test, the port read, the destination, the flags. -/
def inputFrom (d : Operand) (p : Port) (s : State) : Except Fault State := do
  let s1 ← privileged s
  writeResult d (portValue p s1) s1.afterPortRead

/-- OUT to a port (R221): the privilege test, then the port write. -/
def outputTo (p : Port) (v : Word) (s : State) : Except Fault State := do
  let s1 ← privileged s
  .ok (portWrite p v s1)

/-- The value SSSP loads (R222): it must be word aligned. -/
def setSSP (a : Addr) (s : State) : Except Fault State := do
  let s1 ← privileged s
  if a.extractLsb' 0 2 ≠ 0#2 then .error (raise .alignment s1) else .ok { s1 with ssp := a }

/-- HALT (R223). -/
def haltMachine (s : State) : Except Fault State := do
  let s1 ← privileged s
  .ok { s1 with halted := true }

/-- `IN DO, SO` (R220): the port number is the low 5 bits of the operand. -/
def inputOperand (d o : Operand) (s : State) : Except Fault State := do
  let v ← readOperand s.mode o s
  inputFrom d (portNumber (v.extractLsb' 0 5)) s

/-- `OUT imm5, SO` (R221). -/
def outputImm (imm : BitVec 5) (o : Operand) (s : State) : Except Fault State := do
  let v ← readOperand s.mode o s
  outputTo (portNumber imm) v s

/-- `OUT DO, SO` (R221): the operand DO is read first; its low 5 bits are the port number. -/
def outputOperand (d o : Operand) (s : State) : Except Fault State := do
  let p ← readOperand s.mode d s
  let v ← readOperand s.mode o s
  outputTo (portNumber (p.extractLsb' 0 5)) v s

/-- `SSSP addr20` (R222): the new value is the word stored at the address. -/
def setSSPAbs (addr : Addr) (s : State) : Except Fault State := do
  let v ← loadWord s.mode addr s
  setSSP (addrOf v) s

/-- `SSSP SO` (R222). -/
def setSSPOperand (o : Operand) (s : State) : Except Fault State := do
  let v ← readOperand s.mode o s
  setSSP (addrOf v) s

/-- `IN DO, imm5` (R220). -/
def execInI (d : Operand) (imm : BitVec 5) (s : State) : Host.Outcome State Fault Refusal :=
  outcomeOf (inputFrom d (portNumber imm) s)

/-- `IN DO, SO` (R220). -/
def execInR (d o : Operand) (s : State) : Host.Outcome State Fault Refusal :=
  outcomeOf (inputOperand d o s)

/-- `OUT imm5, SO` (R221). -/
def execOutI (imm : BitVec 5) (o : Operand) (s : State) : Host.Outcome State Fault Refusal :=
  outcomeOf (outputImm imm o s)

/-- `OUT DO, SO` (R221). -/
def execOutR (d o : Operand) (s : State) : Host.Outcome State Fault Refusal :=
  outcomeOf (outputOperand d o s)

/-- `SSSP addr20` (R222). -/
def execSsspA (addr : Addr) (s : State) : Host.Outcome State Fault Refusal :=
  outcomeOf (setSSPAbs addr s)

/-- `SSSP SO` (R222). -/
def execSsspR (o : Operand) (s : State) : Host.Outcome State Fault Refusal :=
  outcomeOf (setSSPOperand o s)

/-- `HALT` (R223). -/
def execHalt (s : State) : Host.Outcome State Fault Refusal :=
  outcomeOf (haltMachine s)

end Sys2Proof.Machine
end

