-- ==== Sys2Proof/Machine/Dispatch.lean ====
section
/-! DEFINITION. The dispatch: one arm per instruction, each one call of the instruction's meaning. -/

namespace Sys2Proof.Machine

def exec (i : Instr) (s : State) : Host.Outcome State Fault Refusal :=
  match i with
  | .addR d o1 o2 => Sys2Proof.Machine.execAddR d o1 o2 s
  | .addI d o1 imm => Sys2Proof.Machine.execAddI d o1 imm s
  | .subR d o1 o2 => Sys2Proof.Machine.execSubR d o1 o2 s
  | .subI d o1 imm => Sys2Proof.Machine.execSubI d o1 imm s
  | .andR d o1 o2 => Sys2Proof.Machine.execAndR d o1 o2 s
  | .andI d o1 imm => Sys2Proof.Machine.execAndI d o1 imm s
  | .orR d o1 o2 => Sys2Proof.Machine.execOrR d o1 o2 s
  | .orI d o1 imm => Sys2Proof.Machine.execOrI d o1 imm s
  | .xorR d o1 o2 => Sys2Proof.Machine.execXorR d o1 o2 s
  | .xorI d o1 imm => Sys2Proof.Machine.execXorI d o1 imm s
  | .cmpR o1 o2 => Sys2Proof.Machine.execCmpR o1 o2 s
  | .cmpI o1 imm => Sys2Proof.Machine.execCmpI o1 imm s
  | .imulB d o1 o2 => Sys2Proof.Machine.execImulB d o1 o2 s
  | .imulS d o1 o2 => Sys2Proof.Machine.execImulS d o1 o2 s
  | .imulW d o1 o2 => Sys2Proof.Machine.execImulW d o1 o2 s
  | .umulB d o1 o2 => Sys2Proof.Machine.execUmulB d o1 o2 s
  | .umulS d o1 o2 => Sys2Proof.Machine.execUmulS d o1 o2 s
  | .umulW d o1 o2 => Sys2Proof.Machine.execUmulW d o1 o2 s
  | .negA d addr => Sys2Proof.Machine.execNegA d addr s
  | .negR d o => Sys2Proof.Machine.execNegR d o s
  | .notA d addr => Sys2Proof.Machine.execNotA d addr s
  | .notR d o => Sys2Proof.Machine.execNotR d o s
  | .shfl d o imm => Sys2Proof.Machine.execShfl d o imm s
  | .shfrl d o imm => Sys2Proof.Machine.execShfrl d o imm s
  | .shfra d o imm => Sys2Proof.Machine.execShfra d o imm s
  | .jcA n p z addr => Sys2Proof.Machine.execJcA n p z addr s
  | .jcR n p z sr => Sys2Proof.Machine.execJcR n p z sr s
  | .jmpA addr => Sys2Proof.Machine.execJmpA addr s
  | .jmpR sr => Sys2Proof.Machine.execJmpR sr s
  | .callA addr => Sys2Proof.Machine.execCallA addr s
  | .callR sr => Sys2Proof.Machine.execCallR sr s
  | .scl imm => Sys2Proof.Machine.execScl imm s
  | .ret => Sys2Proof.Machine.execRet s
  | .reti => Sys2Proof.Machine.execReti s
  | .rets => Sys2Proof.Machine.execRets s
  | .ldbA dr addr => Sys2Proof.Machine.execLdbA dr addr s
  | .ldbR dr sr => Sys2Proof.Machine.execLdbR dr sr s
  | .ldsA dr addr => Sys2Proof.Machine.execLdsA dr addr s
  | .ldsR dr sr => Sys2Proof.Machine.execLdsR dr sr s
  | .ldwA dr addr => Sys2Proof.Machine.execLdwA dr addr s
  | .ldwR dr sr => Sys2Proof.Machine.execLdwR dr sr s
  | .stbA addr sr => Sys2Proof.Machine.execStbA addr sr s
  | .stbR dr sr => Sys2Proof.Machine.execStbR dr sr s
  | .stsA addr sr => Sys2Proof.Machine.execStsA addr sr s
  | .stsR dr sr => Sys2Proof.Machine.execStsR dr sr s
  | .stwA addr sr => Sys2Proof.Machine.execStwA addr sr s
  | .stwR dr sr => Sys2Proof.Machine.execStwR dr sr s
  | .cpyI dr imm => Sys2Proof.Machine.execCpyI dr imm s
  | .cpyU dr imm => Sys2Proof.Machine.execCpyU dr imm s
  | .cpy dr sr => Sys2Proof.Machine.execCpy dr sr s
  | .pushI imm => Sys2Proof.Machine.execPushI imm s
  | .pushU imm => Sys2Proof.Machine.execPushU imm s
  | .pushbA addr => Sys2Proof.Machine.execPushbA addr s
  | .pushbR o => Sys2Proof.Machine.execPushbR o s
  | .pushsA addr => Sys2Proof.Machine.execPushsA addr s
  | .pushsR o => Sys2Proof.Machine.execPushsR o s
  | .pushwA addr => Sys2Proof.Machine.execPushwA addr s
  | .pushwR o => Sys2Proof.Machine.execPushwR o s
  | .popbA addr => Sys2Proof.Machine.execPopbA addr s
  | .popbR d => Sys2Proof.Machine.execPopbR d s
  | .popsA addr => Sys2Proof.Machine.execPopsA addr s
  | .popsR d => Sys2Proof.Machine.execPopsR d s
  | .popwA addr => Sys2Proof.Machine.execPopwA addr s
  | .popwR d => Sys2Proof.Machine.execPopwR d s
  | .inI d imm => Sys2Proof.Machine.execInI d imm s
  | .inR d o => Sys2Proof.Machine.execInR d o s
  | .outI imm o => Sys2Proof.Machine.execOutI imm o s
  | .outR d o => Sys2Proof.Machine.execOutR d o s
  | .ssspA addr => Sys2Proof.Machine.execSsspA addr s
  | .ssspR o => Sys2Proof.Machine.execSsspR o s
  | .halt => Sys2Proof.Machine.execHalt s

end Sys2Proof.Machine
end

