-- ==== Sys2Proof/Machine/Cycle.lean ====
section
/-! DEFINITION. The instruction cycle (70_reset_and_hazards.md R284): device activity, interrupt service
(60_exceptions.md R246 to R249), the fetch, the increment of the program counter, the decoding, the execution. -/

namespace Sys2Proof.Machine

/-- The address of entry `v` of the IVT (R246). -/
def ivtEntry (v : IntVec) : Addr := BitVec.ofNat 20 (4 * v.val)

/-- `Service(v)` (R247) for a vector already taken from `pending`: a disabled one is lost; an enabled one enters its
handler, the stack switched if the machine is in user mode. -/
def service (v : IntVec) (s : State) : Except Fault State := do
  let e ← loadWord .supervisor (ivtEntry v) s
  if !entryEnabled e then .ok s
  else enterHandler e (!s.mi) s

/-- The vector `IRQ_ORDER` takes of several pending ones (R248): a free choice among them (log 12). -/
def chosenVector (t : Nat) (pending : List IntVec) : IntVec :=
  pending.getD (Config.irqPick t pending % pending.length) 0

/-- Step 1 of the cycle (R248): pending vectors are taken one after the other, at least one and at most all;
where several are pending `IRQ_ORDER` chooses which is taken and whether to go on (log 12). The first argument bounds
how many may be taken. -/
def serviceInterrupts : Nat → State → Except Fault State
  | 0, s => .ok s
  | n + 1, s =>
    match s.pending with
    | [] => .ok s
    | [v] => service v { s with pending := [] }
    | v :: w :: others => do
      let all := v :: w :: others
      let u := chosenVector s.freeTick all
      let s1 ← service u { s with pending := all.erase u, freeTick := s.freeTick + 1 }
      if Config.irqContinue s.freeTick all then serviceInterrupts n s1 else .ok s1

/-- Step 1 for all that is pending. -/
def handleInterrupts (s : State) : Except Fault State := serviceInterrupts s.pending.length s

/-- Step 2 (R284): the word at the program counter, read with the mode of this cycle (R58). -/
def fetch (s : State) : Except Fault Word := loadWord s.mode s.pc s

/-- Step 3 (R25, R284): the program counter goes to the next word, around the top of memory (log 6). -/
def State.advancePC (s : State) : State := { s with pc := s.pc + 4#20 }

/-- Steps 4 and 5 (R284) on the fetched word: an illegal word is an error (R112); else the instruction is executed
with the program counter already advanced (R15). -/
def runWord (w : Word) (s : State) : Host.Outcome State Fault Refusal :=
  match decode w with
  | .ok i => exec i s.advancePC
  | .error _ => .fault (raise .illegalInstruction s.advancePC)

/-- One cycle (R284); a halted machine changes nothing (R287). -/
def cycle (s : State) : Host.Outcome State Fault Refusal :=
  if s.halted then .next s
  else
    match handleInterrupts (deliverArrivals s) with
    | .error f => .fault f
    | .ok s1 =>
      match fetch s1 with
      | .error f => .fault f
      | .ok w => runWord w s1

/-- The next cycle with no device event before it. -/
def quietNext : List (List DeviceEvent) → List (List DeviceEvent)
  | [] => []
  | _ :: rest => [] :: rest

/-- The state with a word stored where the next cycle fetches: at the program counter, with nothing pending, no device
event before the cycle and the machine not halted (log 31). -/
def placeWord (w : Word) (s : State) : State :=
  { s.putBytes s.pc 4 w with pending := [], arrivals := quietNext s.arrivals, halted := false }

end Sys2Proof.Machine
end

