-- ==== Sys2Proof/Machine/Step.lean ====
section
/-! DEFINITION. The step: one instruction cycle (R284), and the state with a given instruction at the fetch. -/

namespace Sys2Proof.Machine

/-- One step is one instruction cycle (R284). -/
def step (s : State) : Host.Outcome State Fault Refusal := cycle s

/-- The state with an instruction of the opcode table stored where the next step fetches (log 31). -/
def State.withFetchWord (s : State) (nbits w : Nat) : State := placeWord (tableWord nbits w) s

end Sys2Proof.Machine
end

