-- ==== Sys2Proof/Safety.lean ====
section
/-! DEFINITION. The terms the statements use: which error an instruction meets first, what a register, a flag and a
byte of memory hold after it, what it leaves unchanged, and the invariant of the machine. -/

namespace Sys2Proof.Machine

/-! ## Errors, in the order they are detected (R242) -/

/-- The first error of a list of checks made in order (R242). -/
def firstError : List (Option ErrorKind) → Option ErrorKind
  | [] => none
  | some k :: _ => some k
  | none :: es => firstError es

/-- The error of reading a register-or-indirect operand, or of writing 4 bytes (or the low part of the word) to one
(R60, R87, R89): none for a register. -/
def operandError (s : State) (o : Operand) : Option ErrorKind :=
  match o with
  | .reg _ => none
  | .ind r => accessError s.mode 4 (addrOf (s.reg r))

/-- The error of writing a doubleword to a register-or-indirect destination (R125, R128). -/
def doubleError (s : State) (o : Operand) : Option ErrorKind :=
  match o with
  | .reg _ => none
  | .ind r => accessError s.mode 8 (addrOf (s.reg r))

/-- The error of an access of `n` bytes at the address a stack pointer value holds (R14, R60). -/
def stackError (priv : Mode) (n : Nat) (v : Word) : Option ErrorKind :=
  if 2 ^ 20 ≤ v.toNat then some .addressRange else accessError priv n (addrOf v)

/-- The error of a push made in the mode of the state (R14). -/
def pushError (s : State) : Option ErrorKind := stackError s.mode 4 (s.reg sp - 4#32)

/-- The error of a jump to an address (R9, R56). -/
def targetError (a : Addr) : Option ErrorKind := if a.toNat % 4 ≠ 0 then some .alignment else none

/-- The error of a privileged instruction (R255). -/
def privilegeError (s : State) : Option ErrorKind := if s.mi then none else some .privilegeViolation

/-- The value of a register-or-indirect operand (R87). -/
def operandValue (s : State) (o : Operand) : Word :=
  match o with
  | .reg r => s.reg r
  | .ind r => s.wordAt (addrOf (s.reg r)).toNat

/-! ## What holds after, and what is unchanged -/

/-- Every general register but those listed is unchanged. -/
def RegsKept (s t : State) (but : List RegNum) : Prop := ∀ r, r ∉ but → t.reg r = s.reg r

/-- Every byte of memory is unchanged. -/
def MemKept (s t : State) : Prop := ∀ x, t.byteAt x = s.byteAt x

/-- Every byte of memory outside the `n` bytes at an address is unchanged. -/
def MemKeptOutside (s t : State) (a : Addr) (n : Nat) : Prop :=
  ∀ x, ¬(a.toNat ≤ x ∧ x < a.toNat + n) → t.byteAt x = s.byteAt x

/-- The `n` bytes at an address hold the low `n` bytes of a value, the least significant first (R52, R69). -/
def MemHolds {w : Nat} (t : State) (a : Addr) (n : Nat) (v : BitVec w) : Prop :=
  ∀ k, k < n → t.byteAt (a.toNat + k) = v.extractLsb' (8 * k) 8

/-- The three flags describe a value (R12) and no other bit of `MS` has changed. -/
def FlagsFrom {w : Nat} (s t : State) (v : BitVec w) : Prop :=
  (t.zf = true ↔ v = 0#w) ∧ (t.nf = true ↔ v.toInt < 0) ∧ (t.pf = true ↔ 0 < v.toInt) ∧
    ∀ i, 3 ≤ i → t.ms.getLsbD i = s.ms.getLsbD i

/-- The supervisor stack pointer, the halted state, the pending interrupts, the devices and the model's own fields are
unchanged. -/
def SystemKept (s t : State) : Prop :=
  t.ssp = s.ssp ∧ t.halted = s.halted ∧ t.pending = s.pending ∧ t.avl = s.avl ∧ t.ch = s.ch ∧ t.busy = s.busy ∧
    t.outTrace = s.outTrace ∧ t.arrivals = s.arrivals ∧ t.freeTick = s.freeTick

/-- A word was written to a register-or-indirect destination, and to nothing else (R89). -/
def WroteWord (s t : State) (d : Operand) (r : Word) : Prop :=
  match d with
  | .reg n => t.reg n = r ∧ RegsKept s t [n] ∧ MemKept s t
  | .ind n => MemHolds t (addrOf (s.reg n)) 4 r ∧ RegsKept s t [] ∧ MemKeptOutside s t (addrOf (s.reg n)) 4

/-- The low `k` bytes of a value were written to a register-or-indirect destination, and nothing else: the other
bits of a register keep their value (R89). -/
def WroteLow {w : Nat} (s t : State) (d : Operand) (k : Nat) (v : BitVec w) : Prop :=
  match d with
  | .reg n =>
    (∀ i, i < 8 * k → (t.reg n).getLsbD i = v.getLsbD i) ∧
      (∀ i, 8 * k ≤ i → (t.reg n).getLsbD i = (s.reg n).getLsbD i) ∧ RegsKept s t [n] ∧ MemKept s t
  | .ind n => MemHolds t (addrOf (s.reg n)) k v ∧ RegsKept s t [] ∧ MemKeptOutside s t (addrOf (s.reg n)) k

/-- The register paired with a register by the word multiplies (R23): number `(n + 1) mod 8`. -/
def pairOf (n : RegNum) : RegNum := BitVec.ofNat 4 ((n.toNat + 1) % 8)

/-- A doubleword was written to a register-or-indirect destination, and to nothing else (R125, R128). -/
def WroteDouble (s t : State) (d : Operand) (r : BitVec 64) : Prop :=
  match d with
  | .reg n =>
    (t.reg n).toNat = r.toNat % 2 ^ 32 ∧ (t.reg (pairOf n)).toNat = r.toNat / 2 ^ 32 ∧
      RegsKept s t [n, pairOf n] ∧ MemKept s t
  | .ind n => MemHolds t (addrOf (s.reg n)) 8 r ∧ RegsKept s t [] ∧ MemKeptOutside s t (addrOf (s.reg n)) 8

/-- What an arithmetic or logical instruction leaves: the result in its destination, the flags from it, and all else
as it was. -/
def ResultIn (s t : State) (d : Operand) (r : Word) : Prop :=
  WroteWord s t d r ∧ FlagsFrom s t r ∧ t.pc = s.pc ∧ SystemKept s t

/-- An instruction completes, with a next state as described, where none of its checks fails, and stops with the first
error where one does, before it has changed anything (R242, R243). -/
def CompletesUnless (i : Instr) (s : State) (checks : List (Option ErrorKind)) (after : State → Prop) : Prop :=
  (firstError checks = none → ∃ t, exec i s = .next t ∧ after t) ∧
    ∀ k, firstError checks = some k → exec i s = .fault (raise k s)

/-- A word was pushed, and nothing else happened but to the program counter (R14, R208). -/
def Pushed (s t : State) (v : Word) : Prop :=
  t.reg sp = s.reg sp - 4#32 ∧ MemHolds t (addrOf (s.reg sp - 4#32)) 4 v ∧ RegsKept s t [sp] ∧
    MemKeptOutside s t (addrOf (s.reg sp - 4#32)) 4 ∧ t.ms = s.ms ∧ SystemKept s t

/-- An instruction pushes a word where none of its checks and not the push's own fails. An error of its operand is
raised before anything has changed, an error of the push with the stack pointer already lower (R14, R242). -/
def PushesUnless (i : Instr) (s : State) (checks : List (Option ErrorKind)) (v : Word) : Prop :=
  (firstError checks = none → pushError s = none → ∃ t, exec i s = .next t ∧ Pushed s t v ∧ t.pc = s.pc) ∧
    (∀ k, firstError checks = some k → exec i s = .fault (raise k s)) ∧
    (firstError checks = none → ∀ k, pushError s = some k →
      exec i s = .fault (raise k (s.setReg sp (s.reg sp - 4#32))))

/-- The stack pointer went up by 4 after a destination was written (`u` is the state in between), and `MS`, `PC` and
the system are as at the start (R208). -/
def PoppedAfter (s u t : State) : Prop :=
  t.reg sp = u.reg sp + 4#32 ∧ RegsKept u t [sp] ∧ MemKept u t ∧ t.ms = s.ms ∧ t.pc = s.pc ∧ SystemKept s t

/-- The words listed were pushed on a stack whose top was at `top`, the first just below `top`; no other byte of
memory and no register but the stack pointer has changed, and the system is as it was. Nothing is said of the stack
pointer, `MS` and `PC`. -/
def FramePushed (s t : State) (top : Nat) (pushed : List Word) : Prop :=
  (∀ k (h : k < pushed.length), t.wordAt (top - 4 * (k + 1)) = pushed[k]) ∧
    (∀ x, ¬(top - 4 * pushed.length ≤ x ∧ x < top) → t.byteAt x = s.byteAt x) ∧ RegsKept s t [sp] ∧ SystemKept s t

/-- What entering a handler does before it takes the handler's address (R163, R247): the words listed are on the
stack, `x[15]` is at the last of them, `MI` is set, and the other bits of `MS` are kept. -/
def HandlerFrame (s t : State) (top : Nat) (pushed : List Word) : Prop :=
  (t.reg sp).toNat = top - 4 * pushed.length ∧ FramePushed s t top pushed ∧ t.mi = true ∧
    ∀ i, i ≠ 16 → t.ms.getLsbD i = s.ms.getLsbD i

/-- A handler was entered on a stack whose top was at `top`: the frame is there, and `PC` is the handler's address
(R163, R247). -/
def EnteredHandler (s t : State) (top : Nat) (pushed : List Word) (entry : Word) : Prop :=
  HandlerFrame s t top pushed ∧ t.pc = addrOf entry

/-- A handler was left: `PC`, `MS` and the stack pointer are as given, and nothing else has changed (R165). -/
def LeftHandler (s t : State) (pc : Addr) (ms top : Word) : Prop :=
  t.pc = pc ∧ t.ms = ms ∧ t.reg sp = top ∧ RegsKept s t [sp] ∧ MemKept s t ∧ SystemKept s t

/-- A handler that has been entered at `t` is about to return at `h`: it runs as supervisor, its stack is back
where it began, and the frame of `n` bytes there is as it was pushed (R250, R252). -/
def ReadyToReturn (t h : State) (n : Nat) : Prop :=
  h.mi = true ∧ h.reg sp = t.reg sp ∧
    ∀ x, (t.reg sp).toNat ≤ x → x < (t.reg sp).toNat + n → h.byteAt x = t.byteAt x

/-- A register was written, and nothing else (R186 to R188). -/
def OnlyRegWritten (s t : State) (n : RegNum) (v : Word) : Prop :=
  t.reg n = v ∧ RegsKept s t [n] ∧ MemKept s t ∧ t.ms = s.ms ∧ t.pc = s.pc ∧ SystemKept s t

/-- The low `n` bytes of a value were stored at an address, and nothing else (R183 to R185). -/
def OnlyStored {w : Nat} (s t : State) (a : Addr) (n : Nat) (v : BitVec w) : Prop :=
  MemHolds t a n v ∧ MemKeptOutside s t a n ∧ RegsKept s t [] ∧ t.ms = s.ms ∧ t.pc = s.pc ∧ SystemKept s t

/-- What a read of port `p` may return (R257, R258, R260): a date or a time within the ranges of the clock, the
character device's word, or, where no device is, what `PORT_ORACLE` gives. -/
def PortReads (s : State) (p : Nat) (v : Word) : Prop :=
  if p = 4 then 1 ≤ v.toNat / 2 ^ 20 % 32 ∧ 1 ≤ v.toNat / 2 ^ 16 % 16 ∧ v.toNat / 2 ^ 16 % 16 ≤ 12
  else if p = 5 then v.toNat / 2 ^ 12 % 32 ≤ 23 ∧ v.toNat / 2 ^ 6 % 64 ≤ 59 ∧ v.toNat % 64 ≤ 59
  else if p = 8 then v.getLsbD 31 = s.avl ∧ v.toNat % 128 = s.ch.toNat
  else v = Config.portOracle s.freeTick (BitVec.ofNat 6 p)

/-- The services of some pending vectors, one after the other (R248). -/
def serveInTurn : List IntVec → State → Except Fault State
  | [], s => .ok s
  | v :: vs, s => do
    let s1 ← service v { s with pending := s.pending.erase v }
    serveInTurn vs s1

/-- The value of an `imm16` sign-extended to 32 bits (R109): the same integer. -/
def signedImm (imm : BitVec 16) : Word := BitVec.ofInt 32 imm.toInt

/-- The value of an `imm16` zero-extended to 32 bits (R109): the same natural number. -/
def unsignedImm (imm : BitVec 16) : Word := BitVec.ofNat 32 imm.toNat

/-! ## Classes of instructions -/

/-- The privileged instructions (R255). -/
def isPrivileged : Instr → Bool
  | .inI _ _ | .inR _ _ | .outI _ _ | .outR _ _ | .ssspA _ | .ssspR _ | .halt | .reti | .rets => true
  | .addR _ _ _ | .addI _ _ _ | .subR _ _ _ | .subI _ _ _ | .andR _ _ _ | .andI _ _ _ | .orR _ _ _
  | .orI _ _ _ | .xorR _ _ _ | .xorI _ _ _ | .cmpR _ _ | .cmpI _ _ | .imulB _ _ _ | .imulS _ _ _
  | .imulW _ _ _ | .umulB _ _ _ | .umulS _ _ _ | .umulW _ _ _ | .negA _ _ | .negR _ _ | .notA _ _ | .notR _ _
  | .shfl _ _ _ | .shfrl _ _ _ | .shfra _ _ _ | .jcA _ _ _ _ | .jcR _ _ _ _ | .jmpA _ | .jmpR _ | .callA _
  | .callR _ | .scl _ | .ret | .ldbA _ _ | .ldbR _ _ | .ldsA _ _ | .ldsR _ _ | .ldwA _ _ | .ldwR _ _
  | .stbA _ _ | .stbR _ _ | .stsA _ _ | .stsR _ _ | .stwA _ _ | .stwR _ _ | .cpyI _ _ | .cpyU _ _ | .cpy _ _
  | .pushI _ | .pushU _ | .pushbA _ | .pushbR _ | .pushsA _ | .pushsR _ | .pushwA _ | .pushwR _ | .popbA _
  | .popbR _ | .popsA _ | .popsR _ | .popwA _ | .popwR _ => false

/-- The instructions that call SetFlags (R27). -/
def isFlagSetter : Instr → Bool
  | .addR _ _ _ | .addI _ _ _ | .subR _ _ _ | .subI _ _ _ | .andR _ _ _ | .andI _ _ _ | .orR _ _ _ | .orI _ _ _
  | .xorR _ _ _ | .xorI _ _ _ | .cmpR _ _ | .cmpI _ _ | .imulB _ _ _ | .imulS _ _ _ | .imulW _ _ _
  | .umulB _ _ _ | .umulS _ _ _ | .umulW _ _ _ | .negA _ _ | .negR _ _ | .notA _ _ | .notR _ _
  | .shfl _ _ _ | .shfrl _ _ _ | .shfra _ _ _ | .ldbA _ _ | .ldbR _ _ | .ldsA _ _ | .ldsR _ _ | .ldwA _ _ | .ldwR _ _
  | .inI _ _ | .inR _ _ => true
  | .jcA _ _ _ _ | .jcR _ _ _ _ | .jmpA _ | .jmpR _ | .callA _ | .callR _ | .scl _ | .ret | .reti | .rets
  | .stbA _ _ | .stbR _ _ | .stsA _ _ | .stsR _ _ | .stwA _ _ | .stwR _ _ | .cpyI _ _ | .cpyU _ _ | .cpy _ _
  | .pushI _ | .pushU _ | .pushbA _ | .pushbR _ | .pushsA _ | .pushsR _ | .pushwA _ | .pushwR _ | .popbA _
  | .popbR _ | .popsA _ | .popsR _ | .popwA _ | .popwR _ | .outI _ _ | .outR _ _ | .ssspA _ | .ssspR _ | .halt => false

/-- The instructions that load `MS` from the stack (R165). -/
def isHandlerReturn : Instr → Bool
  | .reti | .rets => true
  | _ => false

/-- SCL (R163). -/
def isSystemCall : Instr → Bool
  | .scl _ => true
  | _ => false

/-- SSSP (R222). -/
def isSSSP : Instr → Bool
  | .ssspA _ | .ssspR _ => true
  | _ => false

/-- The instructions that may write `PC` (R25). -/
def isTransfer : Instr → Bool
  | .jcA _ _ _ _ | .jcR _ _ _ _ | .jmpA _ | .jmpR _ | .callA _ | .callR _ | .scl _ | .ret | .reti | .rets => true
  | .addR _ _ _ | .addI _ _ _ | .subR _ _ _ | .subI _ _ _ | .andR _ _ _ | .andI _ _ _ | .orR _ _ _
  | .orI _ _ _ | .xorR _ _ _ | .xorI _ _ _ | .cmpR _ _ | .cmpI _ _ | .imulB _ _ _ | .imulS _ _ _
  | .imulW _ _ _ | .umulB _ _ _ | .umulS _ _ _ | .umulW _ _ _ | .negA _ _ | .negR _ _ | .notA _ _ | .notR _ _
  | .shfl _ _ _ | .shfrl _ _ _ | .shfra _ _ _ | .ldbA _ _ | .ldbR _ _ | .ldsA _ _ | .ldsR _ _ | .ldwA _ _
  | .ldwR _ _ | .stbA _ _ | .stbR _ _ | .stsA _ _ | .stsR _ _ | .stwA _ _ | .stwR _ _ | .cpyI _ _ | .cpyU _ _
  | .cpy _ _ | .pushI _ | .pushU _ | .pushbA _ | .pushbR _ | .pushsA _ | .pushsR _ | .pushwA _ | .pushwR _
  | .popbA _ | .popbR _ | .popsA _ | .popsR _ | .popwA _ | .popwR _ | .inI _ _ | .inR _ _ | .outI _ _
  | .outR _ _ | .ssspA _ | .ssspR _ | .halt => false

/-- The register a destination operand names, if it names one (R22). -/
def destRegs : Operand → List RegNum
  | .reg n => [n]
  | .ind _ => []

/-- The two registers a doubleword destination names, if it names any (R23). -/
def destPair : Operand → List RegNum
  | .reg n => [n, pairOf n]
  | .ind _ => []

/-- The general registers an instruction may write (R21, R22): the one its destination names, the pair of a word
multiply, and the stack pointer. -/
def writtenRegs : Instr → List RegNum
  | .addR d _ _ | .addI d _ _ | .subR d _ _ | .subI d _ _ | .andR d _ _ | .andI d _ _ | .orR d _ _ | .orI d _ _
  | .xorR d _ _ | .xorI d _ _ | .imulB d _ _ | .imulS d _ _ | .umulB d _ _ | .umulS d _ _ | .negA d _ | .negR d _
  | .notA d _ | .notR d _ | .shfl d _ _ | .shfrl d _ _ | .shfra d _ _ | .inI d _ | .inR d _ => destRegs d
  | .imulW d _ _ | .umulW d _ _ => destPair d
  | .ldbA n _ | .ldbR n _ | .ldsA n _ | .ldsR n _ | .ldwA n _ | .ldwR n _ | .cpyI n _ | .cpyU n _ | .cpy n _ => [n]
  | .callA _ | .callR _ | .scl _ | .ret | .reti | .rets | .pushI _ | .pushU _ | .pushbA _ | .pushbR _ | .pushsA _
  | .pushsR _ | .pushwA _ | .pushwR _ | .popbA _ | .popsA _ | .popwA _ => [sp]
  | .popbR d | .popsR d | .popwR d => sp :: destRegs d
  | .cmpR _ _ | .cmpI _ _ | .jcA _ _ _ _ | .jcR _ _ _ _ | .jmpA _ | .jmpR _ | .stbA _ _ | .stbR _ _
  | .stsA _ _ | .stsR _ _ | .stwA _ _ | .stwR _ _ | .outI _ _ | .outR _ _ | .ssspA _ | .ssspR _ | .halt => []

/-- The bytes a memory destination of `n` bytes covers: the first address and how many; none for a register. -/
def destBytes (s : State) (n : Nat) : Operand → Nat × Nat
  | .reg _ => (0, 0)
  | .ind r => ((addrOf (s.reg r)).toNat, n)

/-- The bytes an instruction may store to (R62): the first address and how many. -/
def storedBytes (s : State) : Instr → Nat × Nat
  | .addR d _ _ | .addI d _ _ | .subR d _ _ | .subI d _ _ | .andR d _ _ | .andI d _ _ | .orR d _ _ | .orI d _ _
  | .xorR d _ _ | .xorI d _ _ | .imulS d _ _ | .umulS d _ _ | .negA d _ | .negR d _ | .notA d _ | .notR d _
  | .shfl d _ _ | .shfrl d _ _ | .shfra d _ _ | .inI d _ | .inR d _ | .popwR d => destBytes s 4 d
  | .imulB d _ _ | .umulB d _ _ | .popsR d => destBytes s 2 d
  | .imulW d _ _ | .umulW d _ _ => destBytes s 8 d
  | .popbR d => destBytes s 1 d
  | .stbA a _ | .popbA a => (a.toNat, 1)
  | .stsA a _ | .popsA a => (a.toNat, 2)
  | .stwA a _ | .popwA a => (a.toNat, 4)
  | .stbR r _ => ((addrOf (s.reg r)).toNat, 1)
  | .stsR r _ => ((addrOf (s.reg r)).toNat, 2)
  | .stwR r _ => ((addrOf (s.reg r)).toNat, 4)
  | .callA _ | .callR _ | .pushI _ | .pushU _ | .pushbA _ | .pushbR _ | .pushsA _ | .pushsR _ | .pushwA _
  | .pushwR _ => ((addrOf (s.reg sp - 4#32)).toNat, 4)
  | .scl _ => (s.ssp.toNat - 12, 12)
  | .cmpR _ _ | .cmpI _ _ | .jcA _ _ _ _ | .jcR _ _ _ _ | .jmpA _ | .jmpR _ | .ret | .reti | .rets | .ldbA _ _
  | .ldbR _ _ | .ldsA _ _ | .ldsR _ _ | .ldwA _ _ | .ldwR _ _ | .cpyI _ _ | .cpyU _ _ | .cpy _ _ | .outI _ _
  | .outR _ _ | .ssspA _ | .ssspR _ | .halt => (0, 0)

/-! ## The invariant -/

/-- The machine's invariant: `PC` and `SSP` are word aligned (R24, R29), the reserved bits of `MS` are zero (R37),
memory is in its canonical form, and the pending vectors are a set in ascending order. -/
def StateInv (s : State) : Prop :=
  s.pc.toNat % 4 = 0 ∧ s.ssp.toNat % 4 = 0 ∧ msReservedZero s.ms = true ∧ Memory.wf s.mem = true ∧
    s.pending.Pairwise (· < ·)

/-- No interrupt is pending and no device acts before the next cycle. -/
def Quiet (s : State) : Prop := s.pending = [] ∧ s.arrivals.headD [] = []

/-- The state after device activity of a quiet cycle: the empty list of events is used up. -/
def State.nextArrivals (s : State) : State := { s with arrivals := s.arrivals.tail }

/-- Two states are the same but for the bytes of the protected address space (R58). -/
def SameOutsideProtected (s t : State) : Prop :=
  (∀ x, protectedBelow ≤ x → s.byteAt x = t.byteAt x) ∧ { s with mem := [] } = { t with mem := [] }

/-- The kind of a fault (R240). -/
def Fault.kind : Fault → ErrorKind
  | .alignment _ => .alignment
  | .protection _ => .protection
  | .privilegeViolation _ => .privilegeViolation
  | .sctDisabled _ => .sctDisabled
  | .illegalInstruction _ => .illegalInstruction
  | .addressRange _ => .addressRange
  | .reservedValue _ => .reservedValue

/-- The state at a fault (R243). -/
def Fault.state : Fault → State
  | .alignment s | .protection s | .privilegeViolation s | .sctDisabled s | .illegalInstruction s | .addressRange s
  | .reservedValue s => s

/-- Two outcomes that no observer outside the protected address space can tell apart. -/
def SameAnswer (x y : Host.Outcome State Fault Refusal) : Prop :=
  match x, y with
  | .next s, .next t => SameOutsideProtected s t
  | .fault f, .fault g => f.kind = g.kind ∧ SameOutsideProtected f.state g.state
  | .refused r, .refused q => r = q
  | _, _ => False

/-- A run of `k` steps is safe if no step of it stops. -/
def SafeRun : Nat → State → Prop
  | 0, _ => True
  | k + 1, s => ∃ t, step s = .next t ∧ SafeRun k t

end Sys2Proof.Machine
end

