-- ==== Sys2Proof/Certificates/Slice0/Obligations.lean ====
section
/-! DEFINITION. The statements for the provers. Each docstring names the rules of spec/ a statement follows, and
the decisions of the spec (D<n>, 92_eei_decisions.md) or log entries it rests on. The terms are those of
Safety.lean. In every statement about `exec`, the program counter has been advanced already, as in the rules (R15).
-/

open Sys2Proof Sys2Proof.Machine

/-! ## Reset and the invariant -/

/-- R280: the values the reset table gives; the first cycle fetches the word at `0x00200`. -/
def Obligations.ResetState : Prop :=
  (∀ r, State.reset.reg r = 0x00000000#32) ∧ State.reset.pc = 0x00200#20 ∧ State.reset.ms = 0x00010001#32 ∧
    State.reset.mi = true ∧ State.reset.zf = true ∧ State.reset.pf = false ∧ State.reset.nf = false ∧
    State.reset.ssp = 0x00000#20 ∧
    (∀ a, a < 0x00200 → State.reset.byteAt a = 0x00#8) ∧
    (∀ a, 0x00200 ≤ a → a ≤ 0xfffff → State.reset.byteAt a = Config.initMem a) ∧
    fetch State.reset = .ok (State.reset.wordAt 0x00200)

/-- R281 (decision D18, log 18; D29, log 17): the hidden state at reset. With it, and with no device event at reset
(the model's choice, log 28), the first cycle runs the word at `0x00200`. -/
def Obligations.ResetHiddenState : Prop :=
  State.reset.pending = [] ∧ State.reset.halted = false ∧ State.reset.avl = false ∧ State.reset.ch = 0#7 ∧
    State.reset.busy = false ∧ State.reset.outTrace = [] ∧
    step State.reset = runWord (State.reset.wordAt 0x00200) State.reset

/-- The invariant of `InvKeptByStep` holds at reset. -/
def Obligations.InvHoldsAtReset : Prop := StateInv State.reset

/-- R24, R29, R37 (D11, log 10), and the model's own forms of memory and of the pending vectors (log 11, log 21):
every step keeps them. -/
def Obligations.InvKeptByStep : Prop := ∀ s t : State, StateInv s → step s = .next t → StateInv t

/-! ## Memory -/

/-- R54, R55, R58, R60 (D1, D9, D19; log 1, 8, 19): which accesses are made, which stop, and with which error
first. -/
def Obligations.AccessChecks : Prop :=
  ∀ (priv : Mode) (a : Addr) (s : State) (n : Nat) (v : Word), n = 1 ∨ n = 2 ∨ n = 4 ∨ n = 8 →
    (a.toNat % n ≠ 0 → store priv a n v s = .error (.alignment s)) ∧
    (a.toNat % n = 0 → priv = .user → a.toNat < 0x08000 → store priv a n v s = .error (.protection s)) ∧
    (a.toNat % n = 0 → (priv = .supervisor ∨ 0x08000 ≤ a.toNat) →
      a.toNat + n ≤ 2 ^ 20 ∧ ∃ t, store priv a n v s = .ok t) ∧
    ((∃ b, loadByte priv a s = .ok b) ↔ priv = .supervisor ∨ 0x08000 ≤ a.toNat) ∧
    (priv = .user → a.toNat < 0x08000 → loadByte priv a s = .error (.protection s)) ∧
    ((∃ h, loadShort priv a s = .ok h) ↔ a.toNat % 2 = 0 ∧ (priv = .supervisor ∨ 0x08000 ≤ a.toNat)) ∧
    (a.toNat % 2 ≠ 0 → loadShort priv a s = .error (.alignment s)) ∧
    (a.toNat % 2 = 0 → priv = .user → a.toNat < 0x08000 → loadShort priv a s = .error (.protection s)) ∧
    ((∃ w, loadWord priv a s = .ok w) ↔ a.toNat % 4 = 0 ∧ (priv = .supervisor ∨ 0x08000 ≤ a.toNat)) ∧
    (a.toNat % 4 ≠ 0 → loadWord priv a s = .error (.alignment s)) ∧
    (a.toNat % 4 = 0 → priv = .user → a.toNat < 0x08000 → loadWord priv a s = .error (.protection s))

/-- R52, R69 (D5, log 4): a stored value is read back whole and in parts, the least significant byte at the lowest
address, and no other byte changes. -/
def Obligations.StoredValueReadsBack : Prop :=
  ∀ (priv : Mode) (a : Addr) (s t : State),
    (∀ v : Word, store priv a 4 v s = .ok t →
      loadWord priv a t = .ok v ∧
      loadShort priv a t = .ok (v.extractLsb' 0 16) ∧ loadShort priv (a + 2#20) t = .ok (v.extractLsb' 16 16) ∧
      (∀ k : Nat, k < 4 → loadByte priv (a + BitVec.ofNat 20 k) t = .ok (v.extractLsb' (8 * k) 8)) ∧
      MemKeptOutside s t a 4) ∧
    (∀ h : BitVec 16, store priv a 2 h s = .ok t →
      loadShort priv a t = .ok h ∧ loadByte priv a t = .ok (h.extractLsb' 0 8) ∧
      loadByte priv (a + 1#20) t = .ok (h.extractLsb' 8 8) ∧ MemKeptOutside s t a 2) ∧
    (∀ d : BitVec 64, store priv a 8 d s = .ok t →
      loadWord priv a t = .ok (d.extractLsb' 0 32) ∧ loadWord priv (a + 4#20) t = .ok (d.extractLsb' 32 32) ∧
      MemKeptOutside s t a 8)

/-! ## Encoding -/

/-- R81 to R110, R114: the word of every well-formed instruction decodes to it; the word of RETS is that of RETI,
and is read as RETI (log 26). -/
def Obligations.DecodeInvertsEncode : Prop :=
  ∀ i : Instr, i.wellFormed = true →
    (i ≠ .rets → decode (encode i) = .ok i) ∧ (i = .rets → decode (encode i) = .ok .reti)

/-- R110, R111, R117 (D2, D3; log 2): a word that decodes is the word of the instruction read from it, so that no bit
of it was overlooked. That bits 19..0 of HALT are ignored is decision D24 (log 22), and that bits 15..5 of the register
form of CMP must be zero is D25 (log 23). That the one word of RETI and RETS is never read as `rets` (`i ≠ .rets`) is the
model's own choice (log 26). -/
def Obligations.EncodeInvertsDecode : Prop :=
  ∀ (w : Word) (i : Instr), decode w = .ok i →
    i.wellFormed = true ∧ i ≠ .rets ∧ (i ≠ .halt → encode i = w) ∧ (i = .halt → w.toNat / 2 ^ 20 = 0x880)

/-- R112 (D2, D3; log 2): the words with an unassigned opcode or selector are illegal, and a word is illegal exactly
where no well-formed instruction has it, the ignored bits of HALT (D24, log 22) apart. Bits 15..5 of the register form
of CMP are among those that must be zero (D25, log 23). The names of the two reasons are the model's. -/
def Obligations.IllegalWords : Prop :=
  ∀ w : Word,
    (decode w = .error .unassignedOpcode ↔ w.toNat / 2 ^ 27 ∈ [0b00111, 0b01010, 0b01011, 0b01100, 0b10010, 0b10011,
      0b10100, 0b11001, 0b11010, 0b11011, 0b11101, 0b11110]) ∧
    (decode w = .error .unassignedSelector ↔
      (w.toNat / 2 ^ 27 = 0b01111 ∧ w.toNat / 2 ^ 24 % 4 = 0) ∨ (w.toNat / 2 ^ 27 = 0b10000 ∧ w.toNat / 2 ^ 25 % 4 = 1) ∨
      (w.toNat / 2 ^ 27 = 0b01001 ∧ w.toNat / 2 ^ 25 % 4 = 0) ∨ (w.toNat / 2 ^ 27 = 0b00001 ∧ w.toNat / 2 ^ 25 % 4 = 0) ∨
      (w.toNat / 2 ^ 27 = 0b00010 ∧ w.toNat / 2 ^ 16 % 4 = 3) ∨ (w.toNat / 2 ^ 27 = 0b11111 ∧ w.toNat / 2 ^ 24 % 8 = 4)) ∧
    ((∃ e, decode w = .error e) ↔
      (∀ i : Instr, i.wellFormed = true → encode i ≠ w) ∧ w.toNat / 2 ^ 20 ≠ 0x880)

/-- Words written out in the rules decode to the instructions named there (R120, R121, R123, R129, R146, R160, R163,
R165, R183, R187, R204, R205, R220, R221, R222, R223). That 0x1c000000, the word of both RETI and RETS, is read as
`reti` is the model's own choice (log 26); that 0x88012345 is HALT, its bits 19..0 ignored, is decision D24 (log 22). -/
def Obligations.WordsOfTheSpecDecode : Prop :=
  decode 0x20440003#32 = .ok (.addR (.reg 1) (.reg 2) (.reg 3)) ∧
  decode 0x04620002#32 = .ok (.subR (.ind 1) (.ind 1) (.reg 2)) ∧
  decode 0x79000443#32 = .ok (.imulB (.reg 1) (.reg 2) (.reg 3)) ∧
  decode 0xc0209000#32 = .ok (.negA (.reg 1) 0x09000#20) ∧
  decode 0x8600045f#32 = .ok (.shfra (.reg 1) (.reg 2) 31#5) ∧
  decode 0xbd100003#32 = .ok (.jcR true false true 3) ∧
  decode 0x44000003#32 = .ok (.scl 3#5) ∧
  decode 0x1c000000#32 = .ok .reti ∧
  decode 0x0b000023#32 = .ok (.stbR 2 3) ∧
  decode 0x10058000#32 = .ok (.cpyU 1 0x8000#16) ∧
  decode 0xfb10001f#32 = .ok (.pushwR (.ind 15)) ∧
  decode 0xfd009003#32 = .ok (.popbA 0x09003#20) ∧
  decode 0x70000062#32 = .ok (.inR (.reg 1) (.reg 2)) ∧
  decode 0x74000181#32 = .ok (.outI 12#5 (.reg 1)) ∧
  decode 0x30100011#32 = .ok (.ssspR (.ind 1)) ∧
  decode 0x88012345#32 = .ok .halt

/-! ## The cycle -/

/-- R15, R242, R284 (D1, D2, D9; log 1, 2, 8): what one step does. Where step 1 leaves a state `u`, the four bytes at
its program counter are fetched and decoded, and the step is the instruction's own, at `u` with the program counter at
the next word; an error of step 1, of the fetch or of the decoding ends it. In a quiet cycle step 1 only uses up the
(empty) list of device events. That `PC + 4` wraps around the top of memory is decision D7 (log 6). The order of the four
bytes is read from R52 (DEDUCED, log 36), the fault of a fetch at a misaligned `PC`, which no run reaches, from R24 and
R54 (DEDUCED, log 33), and the schedule of device events taken before step 1 is the model's own choice (log 28). -/
def Obligations.StepRunsDecodedInstruction : Prop :=
  ∀ s u : State, s.halted = false →
    (Quiet s → handleInterrupts (deliverArrivals s) = .ok s.nextArrivals) ∧
    (∀ f, handleInterrupts (deliverArrivals s) = .error f → step s = .fault f) ∧
    (handleInterrupts (deliverArrivals s) = .ok u →
      (∀ k, accessError u.mode 4 u.pc = some k → step s = .fault (raise k u)) ∧
      (accessError u.mode 4 u.pc = none →
        (∀ i rest, decodeBytes [u.byteAt u.pc.toNat, u.byteAt (u.pc.toNat + 1), u.byteAt (u.pc.toNat + 2),
            u.byteAt (u.pc.toNat + 3)] = .ok (i, rest) →
          i.wellFormed = true ∧ step s = exec i { u with pc := u.pc + 4#20 }) ∧
        (∀ e, decodeBytes [u.byteAt u.pc.toNat, u.byteAt (u.pc.toNat + 1), u.byteAt (u.pc.toNat + 2),
            u.byteAt (u.pc.toNat + 3)] = .error e →
          step s = .fault (.illegalInstruction { u with pc := u.pc + 4#20 }))))

/-- R67, which derives it from R64: that a store is seen by the next fetch is decision D20 (log 20). An instruction
word stored at the program counter is the one the next cycle runs. `PC + 4` wraps by decision D7 (log 6), the order of
the word's bytes is read from R52 (DEDUCED, log 36), and the device events before the cycle, none here, are the model's
own schedule (log 28). -/
def Obligations.StoreSeenByNextFetch : Prop :=
  ∀ (s t : State) (w : Word) (i : Instr), Quiet s → s.halted = false → decode w = .ok i →
    store s.mode s.pc 4 w s = .ok t → step t = exec i { t.nextArrivals with pc := s.pc + 4#20 }

/-- R223, R287 (D16, log 14): a halted machine changes no more, however many cycles pass. -/
def Obligations.HaltedIsFinal : Prop :=
  ∀ (k : Nat) (s : State), s.halted = true → Host.Core.run Sys2Proof.core k s = .next s ∧ SafeRun k s

/-! ## Arithmetic (40_arithmetic.md). `CompletesUnless` says when the instruction completes and which error stops
it otherwise; every operand form is covered. Errors are faults (D1, D23; log 1); an indirect operand is the aligned
word (D4, log 3). -/

/-- R120, R131 (D26, log 24): the sum, narrowed to 32 bits. -/
def Obligations.AddResult : Prop :=
  ∀ (d o1 o2 : Operand) (imm : BitVec 16) (s : State),
    CompletesUnless (.addR d o1 o2) s [operandError s o1, operandError s o2, operandError s d]
      (fun t => ResultIn s t d (BitVec.ofInt 32 ((operandValue s o1).toInt + (operandValue s o2).toInt))) ∧
    CompletesUnless (.addI d o1 imm) s [operandError s o1, operandError s d]
      (fun t => ResultIn s t d (BitVec.ofInt 32 ((operandValue s o1).toInt + imm.toInt)))

/-- R121, R131 (D26, log 24): the difference, narrowed to 32 bits. -/
def Obligations.SubResult : Prop :=
  ∀ (d o1 o2 : Operand) (imm : BitVec 16) (s : State),
    CompletesUnless (.subR d o1 o2) s [operandError s o1, operandError s o2, operandError s d]
      (fun t => ResultIn s t d (BitVec.ofInt 32 ((operandValue s o1).toInt - (operandValue s o2).toInt))) ∧
    CompletesUnless (.subI d o1 imm) s [operandError s o1, operandError s d]
      (fun t => ResultIn s t d (BitVec.ofInt 32 ((operandValue s o1).toInt - imm.toInt)))

/-- R130, R131 (D26, log 24): the flags of the difference, and nothing else. -/
def Obligations.CmpFlags : Prop :=
  ∀ (o1 o2 : Operand) (imm : BitVec 16) (s : State),
    CompletesUnless (.cmpR o1 o2) s [operandError s o1, operandError s o2]
      (fun t => FlagsFrom s t (BitVec.ofInt 32 ((operandValue s o1).toInt - (operandValue s o2).toInt)) ∧
        (t.zf = true ↔ operandValue s o1 = operandValue s o2) ∧
        RegsKept s t [] ∧ MemKept s t ∧ t.pc = s.pc ∧ SystemKept s t) ∧
    CompletesUnless (.cmpI o1 imm) s [operandError s o1]
      (fun t => FlagsFrom s t (BitVec.ofInt 32 ((operandValue s o1).toInt - imm.toInt)) ∧
        (t.zf = true ↔ (operandValue s o1).toInt = imm.toInt) ∧
        RegsKept s t [] ∧ MemKept s t ∧ t.pc = s.pc ∧ SystemKept s t)

/-- R122, R123, R126 (D10, log 9; two's complement is from general knowledge, G1, log 24): the low bytes
multiplied, exactly; the 16-bit product in the low half of the destination. -/
def Obligations.ByteProducts : Prop :=
  ∀ (d o1 o2 : Operand) (s : State),
    CompletesUnless (.imulB d o1 o2) s [operandError s o1, operandError s o2, operandError s d]
      (fun t => ∃ r : BitVec 16,
        r.toInt = (operandValue s o1).toInt.bmod (2 ^ 8) * (operandValue s o2).toInt.bmod (2 ^ 8) ∧
        WroteLow s t d 2 r ∧ FlagsFrom s t r ∧ t.pc = s.pc ∧ SystemKept s t) ∧
    CompletesUnless (.umulB d o1 o2) s [operandError s o1, operandError s o2, operandError s d]
      (fun t => ∃ r : BitVec 16,
        r.toNat = (operandValue s o1).toNat % 2 ^ 8 * ((operandValue s o2).toNat % 2 ^ 8) ∧
        WroteLow s t d 2 r ∧ FlagsFrom s t r ∧ t.pc = s.pc ∧ SystemKept s t)

/-- R122, R124, R127 (D10, log 9; G1, log 24): the low shorts multiplied, exactly; a 32-bit product. -/
def Obligations.ShortProducts : Prop :=
  ∀ (d o1 o2 : Operand) (s : State),
    CompletesUnless (.imulS d o1 o2) s [operandError s o1, operandError s o2, operandError s d]
      (fun t => ∃ r : Word,
        r.toInt = (operandValue s o1).toInt.bmod (2 ^ 16) * (operandValue s o2).toInt.bmod (2 ^ 16) ∧
        ResultIn s t d r) ∧
    CompletesUnless (.umulS d o1 o2) s [operandError s o1, operandError s o2, operandError s d]
      (fun t => ∃ r : Word,
        r.toNat = (operandValue s o1).toNat % 2 ^ 16 * ((operandValue s o2).toNat % 2 ^ 16) ∧ ResultIn s t d r)

/-- R23, R122, R125, R128 (D5, log 4; D10, log 9; G1, log 24): the words multiplied, exactly; the 64-bit product in a
register and the one numbered one more modulo 8, or in 8 bytes at a multiple of 8. -/
def Obligations.WordProducts : Prop :=
  ∀ (d o1 o2 : Operand) (s : State),
    CompletesUnless (.imulW d o1 o2) s [operandError s o1, operandError s o2, doubleError s d]
      (fun t => ∃ r : BitVec 64, r.toInt = (operandValue s o1).toInt * (operandValue s o2).toInt ∧
        WroteDouble s t d r ∧ FlagsFrom s t r ∧ t.pc = s.pc ∧ SystemKept s t) ∧
    CompletesUnless (.umulW d o1 o2) s [operandError s o1, operandError s o2, doubleError s d]
      (fun t => ∃ r : BitVec 64, r.toNat = (operandValue s o1).toNat * (operandValue s o2).toNat ∧
        WroteDouble s t d r ∧ FlagsFrom s t r ∧ t.pc = s.pc ∧ SystemKept s t)

/-- R129, R131 (D26, log 24): the negation, narrowed to 32 bits; the `addr20` form negates the word stored there. -/
def Obligations.NegResult : Prop :=
  ∀ (d o : Operand) (a : Addr) (s : State),
    CompletesUnless (.negA d a) s [accessError s.mode 4 a, operandError s d]
      (fun t => ResultIn s t d (BitVec.ofInt 32 (-(s.wordAt a.toNat).toInt))) ∧
    CompletesUnless (.negR d o) s [operandError s o, operandError s d]
      (fun t => ResultIn s t d (BitVec.ofInt 32 (-(operandValue s o).toInt)))

/-! ## Logic and shifts (41_logic_shift.md). Indirect operands as in the arithmetic (D4, log 3) -/

/-- R140, R141, R143, R109: AND, OR and XOR bit by bit; the immediate's bits above 15 are copies of its bit 15. -/
def Obligations.LogicResults : Prop :=
  ∀ (d o1 o2 : Operand) (imm : BitVec 16) (s : State),
    (∀ i f, (i = .andR d o1 o2 ∧ f = and) ∨ (i = .orR d o1 o2 ∧ f = or) ∨ (i = .xorR d o1 o2 ∧ f = xor) →
      CompletesUnless i s [operandError s o1, operandError s o2, operandError s d]
        (fun t => ∃ r : Word, ResultIn s t d r ∧
          ∀ b, b < 32 → r.getLsbD b = f ((operandValue s o1).getLsbD b) ((operandValue s o2).getLsbD b))) ∧
    (∀ i f, (i = .andI d o1 imm ∧ f = and) ∨ (i = .orI d o1 imm ∧ f = or) ∨ (i = .xorI d o1 imm ∧ f = xor) →
      CompletesUnless i s [operandError s o1, operandError s d]
        (fun t => ∃ r : Word, ResultIn s t d r ∧
          ∀ b, b < 32 → r.getLsbD b = f ((operandValue s o1).getLsbD b) (imm.getLsbD (min b 15))))

/-- R142: every one of the 32 bits inverted; the `addr20` form reads the word stored there. -/
def Obligations.NotResult : Prop :=
  ∀ (d o : Operand) (a : Addr) (s : State),
    CompletesUnless (.notA d a) s [accessError s.mode 4 a, operandError s d]
      (fun t => ∃ r : Word, ResultIn s t d r ∧ ∀ b, b < 32 → r.getLsbD b = !(s.wordAt a.toNat).getLsbD b) ∧
    CompletesUnless (.notR d o) s [operandError s o, operandError s d]
      (fun t => ∃ r : Word, ResultIn s t d r ∧ ∀ b, b < 32 → r.getLsbD b = !(operandValue s o).getLsbD b)

/-- R144, R145, R146: `v * 2^n` modulo 2^32, the floor of the unsigned and of the signed value divided by `2^n`. -/
def Obligations.ShiftResults : Prop :=
  ∀ (d o : Operand) (n : BitVec 5) (s : State),
    CompletesUnless (.shfl d o n) s [operandError s o, operandError s d]
      (fun t => ResultIn s t d (BitVec.ofNat 32 ((operandValue s o).toNat * 2 ^ n.toNat))) ∧
    CompletesUnless (.shfrl d o n) s [operandError s o, operandError s d]
      (fun t => ResultIn s t d (BitVec.ofNat 32 ((operandValue s o).toNat / 2 ^ n.toNat))) ∧
    CompletesUnless (.shfra d o n) s [operandError s o, operandError s d]
      (fun t => ResultIn s t d (BitVec.ofInt 32 ((operandValue s o).toInt.fdiv (2 ^ n.toNat))))

/-! ## Control transfer (42_control.md) -/

/-- R160: the words of JC, and what it does: the jump is taken where a flag whose letter is present is set; only
then must the target be word aligned. The term with all three letters is JMP, not JC (log 27). An error is a fault
(R241, log 1). -/
def Obligations.JumpOnCondition : Prop :=
  ∀ (n p z : Bool) (a : Addr) (sr : RegNum) (s : State), ¬(n = true ∧ p = true ∧ z = true) →
    decode (0b10111#5 ++ BitVec.ofBool n ++ BitVec.ofBool p ++ BitVec.ofBool z ++ 0#3 ++ 0#1 ++ a) =
      .ok (.jcA n p z a) ∧
    decode (0b10111#5 ++ BitVec.ofBool n ++ BitVec.ofBool p ++ BitVec.ofBool z ++ 0#3 ++ 1#1 ++ 0#16 ++ sr) =
      .ok (.jcR n p z sr) ∧
    ∀ i t, (i = .jcA n p z a ∧ t = a) ∨ (i = .jcR n p z sr ∧ t = (s.reg sr).extractLsb' 0 20) →
      if (n = true ∧ s.nf = true) ∨ (p = true ∧ s.pf = true) ∨ (z = true ∧ s.zf = true) then
        (t.toNat % 4 = 0 → exec i s = .next { s with pc := t }) ∧
        (t.toNat % 4 ≠ 0 → exec i s = .fault (.alignment s))
      else exec i s = .next s

/-- R161: the words of JMP, and what it does: it jumps whatever the flags are. An error is a fault (R241, log 1). -/
def Obligations.JumpAlways : Prop :=
  ∀ (a : Addr) (sr : RegNum) (s : State),
    decode (0b10111#5 ++ 0b111#3 ++ 0#3 ++ 0#1 ++ a) = .ok (.jmpA a) ∧
    decode (0b10111#5 ++ 0b111#3 ++ 0#3 ++ 1#1 ++ 0#16 ++ sr) = .ok (.jmpR sr) ∧
    ∀ i t, (i = .jmpA a ∧ t = a) ∨ (i = .jmpR sr ∧ t = (s.reg sr).extractLsb' 0 20) →
      (t.toNat % 4 = 0 → exec i s = .next { s with pc := t }) ∧
      (t.toNat % 4 ≠ 0 → exec i s = .fault (.alignment s))

/-- R162 (D6, D8; log 5, 7): the return address is pushed, then the target is checked and taken. -/
def Obligations.CallPushesAndJumps : Prop :=
  ∀ (a : Addr) (sr : RegNum) (s : State) (i : Instr) (t : Addr),
    (i = .callA a ∧ t = a) ∨ (i = .callR sr ∧ t = (s.reg sr).extractLsb' 0 20) →
      (pushError s = none → t.toNat % 4 = 0 →
        ∃ u, exec i s = .next u ∧ Pushed s u (BitVec.ofNat 32 s.pc.toNat) ∧ u.pc = t) ∧
      (∀ k, pushError s = some k → exec i s = .fault (raise k (s.setReg sp (s.reg sp - 4#32)))) ∧
      (pushError s = none → t.toNat % 4 ≠ 0 →
        ∃ u, exec i s = .fault (.alignment u) ∧ Pushed s u (BitVec.ofNat 32 s.pc.toNat) ∧ u.pc = s.pc)

/-- R163 (R59 with D9, log 8): a system call through an enabled entry, in either mode: the old stack pointer, `MS`
and the return address on the supervisor stack, supervisor mode, the program counter at the handler. -/
def Obligations.SystemCallEnters : Prop :=
  ∀ (n : BitVec 5) (s : State) (e : Word), e = s.wordAt (0x00100 + 4 * n.toNat) →
    e.getLsbD 31 = true → e.toNat / 2 ^ 20 % 2 ^ 11 = 0 → e.toNat % 4 = 0 → s.ssp.toNat % 4 = 0 → 12 ≤ s.ssp.toNat →
      ∃ t, exec (.scl n) s = .next t ∧
        EnteredHandler s t s.ssp.toNat [s.reg sp, s.ms, BitVec.ofNat 32 s.pc.toNat] e

/-- R163, R242, R243 (D1, D6, D15; log 1, 5, 13): where a system call stops, and what has happened by then: nothing
at a disabled or ill-formed entry; where `SSP` is too low, the pushes that fit below it, `x[15]` moved on to the address
that the failing push computes; at a misaligned handler address, all three pushes and `MI <- 1`. An `SSP` that is not a
multiple of 4 is in no state that a run reaches (`StateInv`), and stops the first push (DEDUCED, log 33). -/
def Obligations.SystemCallErrors : Prop :=
  ∀ (n : BitVec 5) (s : State) (e : Word), e = s.wordAt (0x00100 + 4 * n.toNat) →
    (e.getLsbD 31 = false → exec (.scl n) s = .fault (.sctDisabled s)) ∧
    (e.getLsbD 31 = true → e.toNat / 2 ^ 20 % 2 ^ 11 ≠ 0 → exec (.scl n) s = .fault (.reservedValue s)) ∧
    (e.getLsbD 31 = true → e.toNat / 2 ^ 20 % 2 ^ 11 = 0 → s.ssp.toNat % 4 = 0 → s.ssp.toNat < 12 →
      ∃ u, exec (.scl n) s = .fault (.addressRange u) ∧ u.reg sp = 0xfffffffc#32 ∧ u.ms = s.ms ∧ u.pc = s.pc ∧
        FramePushed s u s.ssp.toNat ([s.reg sp, s.ms].take (s.ssp.toNat / 4))) ∧
    (e.getLsbD 31 = true → e.toNat / 2 ^ 20 % 2 ^ 11 = 0 → s.ssp.toNat % 4 ≠ 0 →
      exec (.scl n) s = .fault (raise (if s.ssp.toNat < 4 then .addressRange else .alignment)
        (s.setReg sp (BitVec.ofNat 32 s.ssp.toNat - 4#32)))) ∧
    (e.getLsbD 31 = true → e.toNat / 2 ^ 20 % 2 ^ 11 = 0 → s.ssp.toNat % 4 = 0 → 12 ≤ s.ssp.toNat → e.toNat % 4 ≠ 0 →
      ∃ u, exec (.scl n) s = .fault (.alignment u) ∧ u.pc = s.pc ∧
        HandlerFrame s u s.ssp.toNat [s.reg sp, s.ms, BitVec.ofNat 32 s.pc.toNat])

/-- R164 (D6, log 5): the popped word is the return address, its upper bits ignored; the stack pointer goes up
first. -/
def Obligations.ReturnFromSubroutine : Prop :=
  ∀ s : State,
    (∀ k, stackError s.mode 4 (s.reg sp) = some k → exec .ret s = .fault (raise k s)) ∧
    (stackError s.mode 4 (s.reg sp) = none →
      ((s.wordAt (s.reg sp).toNat).toNat % 4 = 0 →
        ∃ t, exec .ret s = .next t ∧ t.pc = (s.wordAt (s.reg sp).toNat).extractLsb' 0 20 ∧
          t.reg sp = s.reg sp + 4#32 ∧ RegsKept s t [sp] ∧ MemKept s t ∧ t.ms = s.ms ∧ SystemKept s t) ∧
      ((s.wordAt (s.reg sp).toNat).toNat % 4 ≠ 0 →
        exec .ret s = .fault (.alignment (s.setReg sp (s.reg sp + 4#32)))))

/-- R165, R252 (D9, D11; log 8, 10): RETI and RETS load `PC`, then `MS`, then, where the restored mode is user
mode, the stack pointer. -/
def Obligations.HandlerReturnRestores : Prop :=
  ∀ (i : Instr) (s : State) (x : Nat) (w m : Word), i = .reti ∨ i = .rets → s.mi = true →
    x = (s.reg sp).toNat → x % 4 = 0 → x + 4 < 2 ^ 20 → w = s.wordAt x → m = s.wordAt (x + 4) → w.toNat % 4 = 0 →
    m &&& 0xFFFEFFF8#32 = 0#32 →
      (m.getLsbD 16 = true →
        ∃ t, exec i s = .next t ∧ LeftHandler s t (w.extractLsb' 0 20) m (s.reg sp + 8#32)) ∧
      (m.getLsbD 16 = false → x + 8 < 2 ^ 20 →
        ∃ t, exec i s = .next t ∧ LeftHandler s t (w.extractLsb' 0 20) m (s.wordAt (x + 8)))

/-- R165, R242, R243 (D1, D6, D11; log 1, 5, 10): where RETI and RETS stop, and what has happened by then, in each
case the whole state: nothing; `x[15]` up by 4; then `PC` written; then `MS` written and `x[15]` up by 8. -/
def Obligations.HandlerReturnErrors : Prop :=
  ∀ (i : Instr) (s u : State) (x : Nat) (w m : Word), i = .reti ∨ i = .rets →
    x = (s.reg sp).toNat → w = s.wordAt x → m = s.wordAt (x + 4) →
    u = { s.setReg sp (s.reg sp + 4#32) with pc := w.extractLsb' 0 20 } →
      (s.mi = false → exec i s = .fault (.privilegeViolation s)) ∧
      (s.mi = true → 2 ^ 20 ≤ x → exec i s = .fault (.addressRange s)) ∧
      (s.mi = true → x < 2 ^ 20 → x % 4 ≠ 0 → exec i s = .fault (.alignment s)) ∧
      (s.mi = true → x < 2 ^ 20 → x % 4 = 0 →
        (w.toNat % 4 ≠ 0 → exec i s = .fault (.alignment (s.setReg sp (s.reg sp + 4#32)))) ∧
        (w.toNat % 4 = 0 → 2 ^ 20 ≤ x + 4 → exec i s = .fault (.addressRange u)) ∧
        (w.toNat % 4 = 0 → x + 4 < 2 ^ 20 → m &&& 0xFFFEFFF8#32 ≠ 0#32 → exec i s = .fault (.reservedValue u)) ∧
        (w.toNat % 4 = 0 → x + 4 < 2 ^ 20 → m &&& 0xFFFEFFF8#32 = 0#32 → m.getLsbD 16 = false → 2 ^ 20 ≤ x + 8 →
          exec i s = .fault (.addressRange { u.setReg sp (s.reg sp + 8#32) with ms := m })))

/-! ## Load, store, copy (43_load_store_copy.md). Errors are faults (R241, log 1) -/

/-- R180, R181, R182: the words of the loads; the value loaded, sign-extended, and the flags from it. -/
def Obligations.LoadResults : Prop :=
  ∀ (dr sr : RegNum) (a : Addr) (s : State),
    decode (0b01001#5 ++ 0b01#2 ++ dr ++ 0#1 ++ a) = .ok (.ldbA dr a) ∧
    decode (0b01001#5 ++ 0b01#2 ++ dr ++ 1#1 ++ 0#16 ++ sr) = .ok (.ldbR dr sr) ∧
    decode (0b01001#5 ++ 0b10#2 ++ dr ++ 0#1 ++ a) = .ok (.ldsA dr a) ∧
    decode (0b01001#5 ++ 0b10#2 ++ dr ++ 1#1 ++ 0#16 ++ sr) = .ok (.ldsR dr sr) ∧
    decode (0b01001#5 ++ 0b11#2 ++ dr ++ 0#1 ++ a) = .ok (.ldwA dr a) ∧
    decode (0b01001#5 ++ 0b11#2 ++ dr ++ 1#1 ++ 0#16 ++ sr) = .ok (.ldwR dr sr) ∧
    (∀ i x, (i = .ldbA dr a ∧ x = a) ∨ (i = .ldbR dr sr ∧ x = (s.reg sr).extractLsb' 0 20) →
      CompletesUnless i s [accessError s.mode 1 x]
        (fun t => ResultIn s t (.reg dr) (BitVec.ofInt 32 (s.byteAt x.toNat).toInt))) ∧
    (∀ i x, (i = .ldsA dr a ∧ x = a) ∨ (i = .ldsR dr sr ∧ x = (s.reg sr).extractLsb' 0 20) →
      CompletesUnless i s [accessError s.mode 2 x]
        (fun t => ResultIn s t (.reg dr) (BitVec.ofInt 32 (s.byteAt (x.toNat + 1) ++ s.byteAt x.toNat).toInt))) ∧
    (∀ i x, (i = .ldwA dr a ∧ x = a) ∨ (i = .ldwR dr sr ∧ x = (s.reg sr).extractLsb' 0 20) →
      CompletesUnless i s [accessError s.mode 4 x]
        (fun t => ResultIn s t (.reg dr) (s.byteAt (x.toNat + 3) ++ s.byteAt (x.toNat + 2) ++
          s.byteAt (x.toNat + 1) ++ s.byteAt x.toNat)))

/-- R183, R184, R185: the words of the stores; the low 8, 16 or 32 bits of the register are stored, and nothing else
changes. -/
def Obligations.StoreResults : Prop :=
  ∀ (dr sr : RegNum) (a : Addr) (s : State),
    decode (0b00001#5 ++ 0b01#2 ++ 0#1 ++ a ++ sr) = .ok (.stbA a sr) ∧
    decode (0b00001#5 ++ 0b01#2 ++ 1#1 ++ 0#16 ++ dr ++ sr) = .ok (.stbR dr sr) ∧
    decode (0b00001#5 ++ 0b10#2 ++ 0#1 ++ a ++ sr) = .ok (.stsA a sr) ∧
    decode (0b00001#5 ++ 0b10#2 ++ 1#1 ++ 0#16 ++ dr ++ sr) = .ok (.stsR dr sr) ∧
    decode (0b00001#5 ++ 0b11#2 ++ 0#1 ++ a ++ sr) = .ok (.stwA a sr) ∧
    decode (0b00001#5 ++ 0b11#2 ++ 1#1 ++ 0#16 ++ dr ++ sr) = .ok (.stwR dr sr) ∧
    (∀ i x, (i = .stbA a sr ∧ x = a) ∨ (i = .stbR dr sr ∧ x = (s.reg dr).extractLsb' 0 20) →
      CompletesUnless i s [accessError s.mode 1 x] (fun t => OnlyStored s t x 1 (s.reg sr))) ∧
    (∀ i x, (i = .stsA a sr ∧ x = a) ∨ (i = .stsR dr sr ∧ x = (s.reg dr).extractLsb' 0 20) →
      CompletesUnless i s [accessError s.mode 2 x] (fun t => OnlyStored s t x 2 (s.reg sr))) ∧
    (∀ i x, (i = .stwA a sr ∧ x = a) ∨ (i = .stwR dr sr ∧ x = (s.reg dr).extractLsb' 0 20) →
      CompletesUnless i s [accessError s.mode 4 x] (fun t => OnlyStored s t x 4 (s.reg sr)))

/-- R186, R187, R188: the words of the copies; the register takes the sign-extended or zero-extended immediate or
the other register, and nothing else changes. -/
def Obligations.CopyResults : Prop :=
  ∀ (dr sr : RegNum) (imm : BitVec 16) (s : State),
    decode (0b00010#5 ++ 0#5 ++ dr ++ 0b00#2 ++ imm) = .ok (.cpyI dr imm) ∧
    decode (0b00010#5 ++ 0#5 ++ dr ++ 0b01#2 ++ imm) = .ok (.cpyU dr imm) ∧
    decode (0b00010#5 ++ 0#5 ++ dr ++ 0b10#2 ++ 0#12 ++ sr) = .ok (.cpy dr sr) ∧
    (∃ t, exec (.cpyI dr imm) s = .next t ∧ OnlyRegWritten s t dr (BitVec.ofInt 32 imm.toInt)) ∧
    (∃ t, exec (.cpyU dr imm) s = .next t ∧ OnlyRegWritten s t dr (BitVec.ofNat 32 imm.toNat)) ∧
    (∃ t, exec (.cpy dr sr) s = .next t ∧ OnlyRegWritten s t dr (s.reg sr))

/-! ## Stack (44_stack.md). Errors are faults (D1, log 1); the stack pointer must be below `0x100000` (D6, log 5) -/

/-- R200, R201: PUSHI and PUSHU push the sign-extended and the zero-extended immediate. -/
def Obligations.PushImmediates : Prop :=
  ∀ (imm : BitVec 16) (s : State),
    PushesUnless (.pushI imm) s [] (BitVec.ofInt 32 imm.toInt) ∧
    PushesUnless (.pushU imm) s [] (BitVec.ofNat 32 imm.toNat)

/-- R202, R203, R204, R209 (D4, D8; log 3, 7): PUSHB, PUSHS and PUSHW push the operand, a byte or a short
sign-extended; the operand is read before the stack pointer moves. -/
def Obligations.PushOperands : Prop :=
  ∀ (o : Operand) (a : Addr) (s : State),
    PushesUnless (.pushbA a) s [accessError s.mode 1 a] (BitVec.ofInt 32 (s.byteAt a.toNat).toInt) ∧
    PushesUnless (.pushbR o) s [operandError s o] (BitVec.ofInt 32 ((operandValue s o).toInt.bmod (2 ^ 8))) ∧
    PushesUnless (.pushsA a) s [accessError s.mode 2 a]
      (BitVec.ofInt 32 (s.byteAt (a.toNat + 1) ++ s.byteAt a.toNat).toInt) ∧
    PushesUnless (.pushsR o) s [operandError s o] (BitVec.ofInt 32 ((operandValue s o).toInt.bmod (2 ^ 16))) ∧
    PushesUnless (.pushwA a) s [accessError s.mode 4 a] (s.wordAt a.toNat) ∧
    PushesUnless (.pushwR o) s [operandError s o] (operandValue s o)

/-- R205, R206 (D4, log 3; 90_conflicts.md C9, log 32): POPB and POPS write the low byte or short at the stack top,
then the stack pointer goes up by 4 (for a destination R15 too, D27, log 7). -/
def Obligations.PopParts : Prop :=
  ∀ (d : Operand) (a : Addr) (s : State) (x : Nat), x = (s.reg sp).toNat →
    CompletesUnless (.popbA a) s [stackError s.mode 1 (s.reg sp), accessError s.mode 1 a]
      (fun t => ∃ u, OnlyStored s u a 1 (s.byteAt x) ∧ PoppedAfter s u t) ∧
    CompletesUnless (.popbR d) s [stackError s.mode 1 (s.reg sp), operandError s d]
      (fun t => ∃ u, WroteLow s u d 1 (s.byteAt x) ∧ PoppedAfter s u t) ∧
    CompletesUnless (.popsA a) s [stackError s.mode 2 (s.reg sp), accessError s.mode 2 a]
      (fun t => ∃ u, OnlyStored s u a 2 (s.byteAt (x + 1) ++ s.byteAt x) ∧ PoppedAfter s u t) ∧
    CompletesUnless (.popsR d) s [stackError s.mode 2 (s.reg sp), operandError s d]
      (fun t => ∃ u, WroteLow s u d 2 (s.byteAt (x + 1) ++ s.byteAt x) ∧ PoppedAfter s u t)

/-- R207, R209 (D8, D27; log 7): POPW writes the word at the stack top, then the stack pointer goes up by 4: `POPW
R15` ends with the popped word plus 4. -/
def Obligations.PopWord : Prop :=
  ∀ (d : Operand) (a : Addr) (s : State) (v : Word), v = s.wordAt (s.reg sp).toNat →
    CompletesUnless (.popwA a) s [stackError s.mode 4 (s.reg sp), accessError s.mode 4 a]
      (fun t => ∃ u, OnlyStored s u a 4 v ∧ PoppedAfter s u t) ∧
    CompletesUnless (.popwR d) s [stackError s.mode 4 (s.reg sp), operandError s d]
      (fun t => ∃ u, WroteWord s u d v ∧ PoppedAfter s u t ∧ (d = .reg sp → t.reg sp = v + 4#32))

/-! ## Ports and system (45_io_system.md) -/

/-- R220, R257, R258, R260 (D17, D19, D21; log 15, 16, 17, 19): IN writes what the port reads and sets the flags
from it; the port is read before a destination in memory is checked, and the counter of free values advances (log
29). -/
def Obligations.InputResult : Prop :=
  ∀ (d o : Operand) (imm : BitVec 5) (s : State),
    (∀ k, operandError s o = some k → exec (.inR d o) s = .fault (raise k s)) ∧
    (∀ i p, (i = .inI d imm ∧ p = imm.toNat) ∨
        (i = .inR d o ∧ operandError s o = none ∧ p = (operandValue s o).toNat % 32) →
      (s.mi = false → exec i s = .fault (.privilegeViolation s)) ∧
      (s.mi = true → ∀ k, operandError s d = some k →
        exec i s = .fault (raise k { s with freeTick := s.freeTick + 1 })) ∧
      (s.mi = true → operandError s d = none →
        ∃ t v, exec i s = .next t ∧ PortReads s p v ∧ WroteWord s t d v ∧ FlagsFrom s t v ∧ t.pc = s.pc ∧
          t.freeTick = s.freeTick + 1 ∧ SystemKept s { t with freeTick := s.freeTick }))

/-- R221, R257 to R260 (D17, D19, D21, D29; log 15, 17, 19): OUT writes the operand to the port: a zero to port 8
acknowledges the character, a word to port 12 adds its low 7 bits to the output, every other write changes nothing.
-/
def Obligations.OutputResult : Prop :=
  ∀ (d o : Operand) (imm : BitVec 5) (s : State) (v : Word), v = operandValue s o →
    (∀ k, operandError s d = some k → exec (.outR d o) s = .fault (raise k s)) ∧
    (∀ i p, (i = .outI imm o ∧ p = imm.toNat) ∨
        (i = .outR d o ∧ operandError s d = none ∧ p = (operandValue s d).toNat % 32) →
      CompletesUnless i s [operandError s o, privilegeError s]
        (fun t =>
          if p = 8 then t = if v = 0#32 then { s with avl := false, busy := false } else s
          else if p = 12 then t = { s with outTrace := s.outTrace ++ [BitVec.ofNat 7 v.toNat] }
          else t = s))

/-- R222, R29 (D19, log 19): SSSP loads the low 20 bits of its operand, which must be word aligned; the `addr20` form
loads the word stored there. -/
def Obligations.SetSupervisorStack : Prop :=
  ∀ (o : Operand) (a : Addr) (s : State),
    CompletesUnless (.ssspA a) s
      [accessError s.mode 4 a, privilegeError s, targetError ((s.wordAt a.toNat).extractLsb' 0 20)]
      (fun t => t = { s with ssp := (s.wordAt a.toNat).extractLsb' 0 20 }) ∧
    CompletesUnless (.ssspR o) s
      [operandError s o, privilegeError s, targetError ((operandValue s o).extractLsb' 0 20)]
      (fun t => t = { s with ssp := (operandValue s o).extractLsb' 0 20 })

/-- R108, R223 (D24, log 22): every word of HALT, whatever its bits 19..0; it halts the machine in supervisor mode. -/
def Obligations.HaltStops : Prop :=
  ∀ (x : BitVec 20) (s : State),
    decode (0b10001#5 ++ 0#6 ++ 0#1 ++ x) = .ok .halt ∧
    CompletesUnless .halt s [privilegeError s] (fun t => t = { s with halted := true })

/-- R255, R253 (D1, D19; log 1, 19): in user mode the privileged instructions stop before they change anything; no
other instruction, and none in supervisor mode, raises a privilege violation. -/
def Obligations.PrivilegedOnlyInSupervisorMode : Prop :=
  ∀ (i : Instr) (s : State),
    (isPrivileged i = true → s.mi = false → ∃ f, exec i s = .fault f ∧ f.state = s) ∧
    (∀ u, exec i s = .fault (.privilegeViolation u) → isPrivileged i = true ∧ s.mi = false)

/-! ## Interrupts (60_exceptions.md) -/

/-- R246, R247 (R59 with D9, log 8): an enabled vector taken in user mode: the same frame as a system call, on the
supervisor stack, with the address of the instruction not yet executed. -/
def Obligations.InterruptEntersFromUserMode : Prop :=
  ∀ (v : IntVec) (s : State) (e : Word), e = s.wordAt (4 * v.val) → s.mi = false →
    e.getLsbD 31 = true → e.toNat / 2 ^ 20 % 2 ^ 11 = 0 → e.toNat % 4 = 0 → s.ssp.toNat % 4 = 0 → 12 ≤ s.ssp.toNat →
      ∃ t, service v s = .ok t ∧
        EnteredHandler s t s.ssp.toNat [s.reg sp, s.ms, BitVec.ofNat 32 s.pc.toNat] e

/-- R247, R250: an enabled vector taken in supervisor mode: `MS` and `PC` on the current stack, which is not
switched. -/
def Obligations.InterruptEntersFromSupervisorMode : Prop :=
  ∀ (v : IntVec) (s : State) (e : Word) (x : Nat), e = s.wordAt (4 * v.val) → s.mi = true →
    e.getLsbD 31 = true → e.toNat / 2 ^ 20 % 2 ^ 11 = 0 → e.toNat % 4 = 0 →
    x = (s.reg sp).toNat → x % 4 = 0 → 8 ≤ x → x ≤ 2 ^ 20 →
      ∃ t, service v s = .ok t ∧ EnteredHandler s t x [s.ms, BitVec.ofNat 32 s.pc.toNat] e

/-- R14, R242, R247, R249 (D1, D6, D12, D14, D15; log 1, 5, 11, 13): a disabled vector is lost and changes nothing;
where entering a handler stops, and with which error, for every stack pointer. An `SSP` that is not a multiple of 4 is
in no state that a run reaches (`StateInv`), and stops the first push (DEDUCED, log 33). -/
def Obligations.InterruptNotEntered : Prop :=
  ∀ (v : IntVec) (s : State) (e : Word) (x : Nat), e = s.wordAt (4 * v.val) → x = (s.reg sp).toNat →
    (e.getLsbD 31 = false → service v s = .ok s) ∧
    (e.getLsbD 31 = true → e.toNat / 2 ^ 20 % 2 ^ 11 ≠ 0 → service v s = .error (.reservedValue s)) ∧
    (e.getLsbD 31 = true → e.toNat / 2 ^ 20 % 2 ^ 11 = 0 →
      (s.mi = false → s.ssp.toNat % 4 = 0 → s.ssp.toNat < 12 → ∃ u, service v s = .error (.addressRange u)) ∧
      (s.mi = false → s.ssp.toNat % 4 ≠ 0 →
        ∃ u, service v s = .error (raise (if s.ssp.toNat < 4 then .addressRange else .alignment) u)) ∧
      (s.mi = true → x % 4 = 0 → x < 8 ∨ 2 ^ 20 < x → ∃ u, service v s = .error (.addressRange u)) ∧
      (s.mi = true → x % 4 ≠ 0 → x < 4 ∨ 2 ^ 20 + 4 ≤ x → ∃ u, service v s = .error (.addressRange u)) ∧
      (s.mi = true → x % 4 ≠ 0 → 4 ≤ x → x < 2 ^ 20 + 4 → ∃ u, service v s = .error (.alignment u)) ∧
      (e.toNat % 4 ≠ 0 → (s.mi = false ∧ s.ssp.toNat % 4 = 0 ∧ 12 ≤ s.ssp.toNat) ∨
          (s.mi = true ∧ x % 4 = 0 ∧ 8 ≤ x ∧ x ≤ 2 ^ 20) →
        ∃ u, service v s = .error (.alignment u)))

/-- R248 (D13, log 12): step 1 of a cycle takes at least one and at most all of the pending vectors, one after the
other, and services each; nothing is said of which or how many, which IRQ_ORDER decides. -/
def Obligations.PendingVectorsServedInTurn : Prop :=
  ∀ s : State,
    (s.pending = [] → handleInterrupts s = .ok s) ∧
    (∀ v, s.pending = [v] → handleInterrupts s = service v { s with pending := [] }) ∧
    (s.pending ≠ [] →
      ∃ vs : List IntVec, vs ≠ [] ∧ List.Subperm vs s.pending ∧
        (∀ t, handleInterrupts s = .ok t → ∃ u, serveInTurn vs s = .ok u ∧ t = { u with freeTick := t.freeTick }) ∧
        (∀ f, handleInterrupts s = .error f → ∃ g, serveInTurn vs s = .error g ∧ f.kind = g.kind))

/-- R165, R250, R251, R252 (D9, D11; log 8, 10): RETI and RETS undo what a system call or an interrupt entry did,
whatever the handler did meanwhile, if it left its frame and its stack pointer: the interrupted code goes on with
its own `PC`, `MS` and stack pointer. After a system call made in supervisor mode the stack pointer is left at `SSP
- 4` (U26). -/
def Obligations.HandlerReturnUndoesEntry : Prop :=
  ∀ (s t h : State) (i : Instr), StateInv s → i = .reti ∨ i = .rets →
    (∀ n, exec (.scl n) s = .next t → s.mi = false → ReadyToReturn t h 12 →
      ∃ u, exec i h = .next u ∧ LeftHandler h u s.pc s.ms (s.reg sp)) ∧
    (∀ n, exec (.scl n) s = .next t → s.mi = true → ReadyToReturn t h 12 →
      ∃ u, exec i h = .next u ∧ LeftHandler h u s.pc s.ms (BitVec.ofNat 32 (s.ssp.toNat - 4))) ∧
    (∀ v : IntVec, (s.wordAt (4 * v.val)).getLsbD 31 = true → service v s = .ok t → s.mi = false →
      ReadyToReturn t h 12 → ∃ u, exec i h = .next u ∧ LeftHandler h u s.pc s.ms (s.reg sp)) ∧
    (∀ v : IntVec, (s.wordAt (4 * v.val)).getLsbD 31 = true → service v s = .ok t → s.mi = true →
      ReadyToReturn t h 8 → ∃ u, exec i h = .next u ∧ LeftHandler h u s.pc s.ms (s.reg sp))

/-- R245, R258 (D12, D17, D29; log 11, 17, 28, 30): what a device event changes: a vector other than 8 becomes
pending, a character is taken with vector 8 unless the device is busy; while it is busy, no event raises vector 8.
-/
def Obligations.DeviceEvents : Prop :=
  ∀ s : State,
    (∀ v : IntVec, v ≠ 8 → ∃ t, deviceEvent s (.vector v) = t ∧ (∀ u, u ∈ t.pending ↔ u = v ∨ u ∈ s.pending) ∧
      { t with pending := s.pending } = s) ∧
    (∀ c, s.busy = false → ∃ t, deviceEvent s (.char c) = t ∧ (∀ u, u ∈ t.pending ↔ u = 8 ∨ u ∈ s.pending) ∧
      { t with pending := s.pending } = { s with avl := true, ch := c, busy := true }) ∧
    (∀ es : List DeviceEvent, s.busy = true → 8 ∉ s.pending →
      8 ∉ (es.foldl deviceEvent s).pending ∧ (es.foldl deviceEvent s).busy = true ∧
      (es.foldl deviceEvent s).ch = s.ch ∧ (es.foldl deviceEvent s).avl = s.avl)

/-! ## Rules over all instructions -/

/-- R28: `MI` is the mode; it is set by SCL and by interrupt service, loaded from the stack image of `MS` by RETI and
RETS, and changed by no other instruction; it is 1 at reset. -/
def Obligations.ModeChangedOnlyBy : Prop :=
  State.reset.mi = true ∧
  (∀ s : State, (s.mode = .supervisor ↔ s.mi = true) ∧ (s.mode = .user ↔ s.mi = false)) ∧
  (∀ (i : Instr) (s t : State), exec i s = .next t →
    (isSystemCall i = true → t.mi = true) ∧
    (isHandlerReturn i = true → t.mi = (s.wordAt ((s.reg sp).toNat + 4)).getLsbD 16) ∧
    (isSystemCall i = false → isHandlerReturn i = false → t.mi = s.mi)) ∧
  (∀ (v : IntVec) (s t : State), service v s = .ok t →
    ((s.wordAt (4 * v.val)).getLsbD 31 = true → t.mi = true) ∧
    ((s.wordAt (4 * v.val)).getLsbD 31 = false → t.mi = s.mi))

/-- R27, R12 (D10, log 9): the instructions that set the flags leave exactly one of them set; all the others but
RETI and RETS leave the three flags as they are. -/
def Obligations.FlagsChangedOnlyBy : Prop :=
  ∀ (i : Instr) (s t : State), exec i s = .next t →
    (isFlagSetter i = true →
      (t.zf = true ∧ t.pf = false ∧ t.nf = false) ∨ (t.zf = false ∧ t.pf = true ∧ t.nf = false) ∨
        (t.zf = false ∧ t.pf = false ∧ t.nf = true)) ∧
    (isFlagSetter i = false → isHandlerReturn i = false → t.zf = s.zf ∧ t.pf = s.pf ∧ t.nf = s.nf)

/-- R25, R29, R222: only JC, JMP, CALL, SCL, RET, RETI and RETS write `PC`, which stays word aligned (R24), and
only SSSP writes `SSP`; interrupt service does not write `SSP`. -/
def Obligations.ProgramCounterAndSSPWriters : Prop :=
  (∀ (i : Instr) (s t : State), exec i s = .next t →
    (isTransfer i = false → t.pc = s.pc) ∧ (s.pc.toNat % 4 = 0 → t.pc.toNat % 4 = 0) ∧
    (isSSSP i = false → t.ssp = s.ssp) ∧ (isSSSP i = true → t.ssp.toNat % 4 = 0)) ∧
  (∀ (v : IntVec) (s t : State), service v s = .ok t → t.ssp = s.ssp)

/-- R21, R22, R23: an instruction writes no general register but the one its destination names, the pair of a word
multiply, and the stack pointer where it pushes or pops. -/
def Obligations.RegistersWritten : Prop :=
  ∀ (i : Instr) (s t : State), exec i s = .next t → RegsKept s t (writtenRegs i)

/-- R62 (D4, D5; log 3, 4): an instruction stores to no byte of memory but those of its memory destination or of
the stack slots it pushes; the bytes lie inside the address space. -/
def Obligations.MemoryWritten : Prop :=
  ∀ (i : Instr) (s t : State), exec i s = .next t →
    (storedBytes s i).1 + (storedBytes s i).2 ≤ 2 ^ 20 ∧
    ∀ x, ¬((storedBytes s i).1 ≤ x ∧ x < (storedBytes s i).1 + (storedBytes s i).2) → t.byteAt x = s.byteAt x

/-- R2: every instruction has its meaning: no instruction and no step is refused. -/
def Obligations.NothingRefused : Prop :=
  (∀ (i : Instr) (s : State) (r : Refusal), exec i s ≠ .refused r) ∧ ∀ (s : State) (r : Refusal), step s ≠ .refused r

/-! ## Isolation -/

/-- R30, R58, R253, R254, R255 (D1, D9; log 1, 8): in a quiet cycle in user mode, unless the cycle enters
supervisor mode (by SCL), nothing that user mode may not reach changes: no byte below `0x08000`, not `SSP`, no
device, no output. -/
def Obligations.UserModeCannotChangeProtected : Prop :=
  ∀ s t : State, Quiet s → s.mi = false → step s = .next t → t.mi = false →
    (∀ x, x < 0x08000 → t.byteAt x = s.byteAt x) ∧ t.ssp = s.ssp ∧ t.halted = s.halted ∧ t.pending = s.pending ∧
      t.avl = s.avl ∧ t.ch = s.ch ∧ t.busy = s.busy ∧ t.outTrace = s.outTrace

/-- R58, R59, R253 (D1, D9; log 1, 8): what user mode does depends on no byte below `0x08000`: two states that
differ only there give the same answer, for every instruction but SCL, and for every quiet cycle whose word is not
SCL's. -/
def Obligations.UserModeCannotLearnProtected : Prop :=
  (∀ (i : Instr) (s t : State), s.mi = false → SameOutsideProtected s t → isSystemCall i = false →
    SameAnswer (exec i s) (exec i t)) ∧
  (∀ s t : State, Quiet s → s.mi = false → SameOutsideProtected s t →
    (∀ n, decode (s.wordAt s.pc.toNat) ≠ .ok (.scl n)) → SameAnswer (step s) (step t))
end

