-- ==== Sys2Proof/Laws/Encode.lean ====
section
/-! SUPPORT. What the fields of an encoded word read back, one lemma per format (30_encoding.md R91 to R108), and the
facts about fields and operands they rest on. -/

namespace Sys2Proof

/-- A concatenation as a number: the upper part is shifted past the lower one. -/
theorem toNat_append_add {n m : Nat} (x : BitVec n) (y : BitVec m) :
    (x ++ y).toNat = x.toNat * 2 ^ m + y.toNat := by
  rw [BitVec.toNat_append, ← Nat.shiftLeft_eq, Nat.shiftLeft_add_eq_or_of_lt y.isLt]

/-- A field as a number. -/
theorem field_eq_iff {w : Word} {lo len : Nat} {v : BitVec len} :
    field w lo len = v ↔ w.toNat / 2 ^ lo % 2 ^ len = v.toNat := by
  rw [← BitVec.toNat_inj]
  simp [field, Nat.shiftRight_eq_div_pow]

theorem fieldZero_iff {w : Word} {lo len : Nat} : fieldZero w lo len = true ↔ field w lo len = 0#len := by
  simp [fieldZero]

theorem toNat_ofBool_lt (b : Bool) : (BitVec.ofBool b).toNat < 2 := (BitVec.ofBool b).isLt

@[simp] theorem ofBool_beq_zero (b : Bool) : (BitVec.ofBool b == 0#1) = !b := by cases b <;> rfl

/-- An operand is read back from its field (R86). -/
@[simp] theorem operandOf_operandBits (o : Operand) : operandOf (operandBits o) = o := by
  cases o <;> rename_i r <;> revert r <;> decide

/-- A field is read back from its operand (R86). -/
@[simp] theorem operandBits_operandOf (o : BitVec 5) : operandBits (operandOf o) = o := by
  revert o; decide

theorem fmtAluR_fields (op d a b : BitVec 5) :
    field (fmtAluR op d a b) 27 5 = op ∧ field (fmtAluR op d a b) 22 5 = d ∧
    field (fmtAluR op d a b) 17 5 = a ∧ field (fmtAluR op d a b) 16 1 = 0#1 ∧
    field (fmtAluR op d a b) 5 11 = 0#11 ∧ field (fmtAluR op d a b) 0 5 = b := by
  have b0 := op.isLt
  have b1 := d.isLt
  have b2 := a.isLt
  have b3 := b.isLt
  simp only [field_eq_iff, fmtAluR, toNat_append_add, BitVec.toNat_ofNat]
  refine ⟨?_, ?_, ?_, ?_, ?_, ?_⟩ <;> omega

theorem fmtAluI_fields (op d a : BitVec 5) (imm : BitVec 16) :
    field (fmtAluI op d a imm) 27 5 = op ∧ field (fmtAluI op d a imm) 22 5 = d ∧
    field (fmtAluI op d a imm) 17 5 = a ∧ field (fmtAluI op d a imm) 16 1 = 1#1 ∧
    field (fmtAluI op d a imm) 0 16 = imm := by
  have b0 := op.isLt
  have b1 := d.isLt
  have b2 := a.isLt
  have b3 := imm.isLt
  simp only [field_eq_iff, fmtAluI, toNat_append_add, BitVec.toNat_ofNat]
  refine ⟨?_, ?_, ?_, ?_, ?_⟩ <;> omega

theorem fmtCmpR_fields (a b : BitVec 5) :
    field (fmtCmpR a b) 27 5 = 0b11100#5 ∧ field (fmtCmpR a b) 22 5 = 0#5 ∧ field (fmtCmpR a b) 17 5 = a ∧
    field (fmtCmpR a b) 16 1 = 0#1 ∧ field (fmtCmpR a b) 5 11 = 0#11 ∧ field (fmtCmpR a b) 0 5 = b := by
  have b0 := a.isLt
  have b1 := b.isLt
  simp only [field_eq_iff, fmtCmpR, toNat_append_add, BitVec.toNat_ofNat]
  refine ⟨?_, ?_, ?_, ?_, ?_, ?_⟩ <;> omega

theorem fmtCmpI_fields (a : BitVec 5) (imm : BitVec 16) :
    field (fmtCmpI a imm) 27 5 = 0b11100#5 ∧ field (fmtCmpI a imm) 22 5 = 0#5 ∧
    field (fmtCmpI a imm) 17 5 = a ∧ field (fmtCmpI a imm) 16 1 = 1#1 ∧ field (fmtCmpI a imm) 0 16 = imm := by
  have b0 := a.isLt
  have b1 := imm.isLt
  simp only [field_eq_iff, fmtCmpI, toNat_append_add, BitVec.toNat_ofNat]
  refine ⟨?_, ?_, ?_, ?_, ?_⟩ <;> omega

theorem fmtMul_fields (u : BitVec 1) (size : BitVec 2) (d a b : BitVec 5) :
    field (fmtMul u size d a b) 27 5 = 0b01111#5 ∧ field (fmtMul u size d a b) 26 1 = u ∧
    field (fmtMul u size d a b) 24 2 = size ∧ field (fmtMul u size d a b) 15 9 = 0#9 ∧
    field (fmtMul u size d a b) 10 5 = d ∧ field (fmtMul u size d a b) 5 5 = a ∧
    field (fmtMul u size d a b) 0 5 = b := by
  have b0 := u.isLt
  have b1 := size.isLt
  have b2 := d.isLt
  have b3 := a.isLt
  have b4 := b.isLt
  simp only [field_eq_iff, fmtMul, toNat_append_add, BitVec.toNat_ofNat]
  refine ⟨?_, ?_, ?_, ?_, ?_, ?_, ?_⟩ <;> omega

theorem fmtUnA_fields (op d : BitVec 5) (addr : Addr) :
    field (fmtUnA op d addr) 27 5 = op ∧ field (fmtUnA op d addr) 26 1 = 0#1 ∧
    field (fmtUnA op d addr) 21 5 = d ∧ field (fmtUnA op d addr) 20 1 = 0#1 ∧
    field (fmtUnA op d addr) 0 20 = addr := by
  have b0 := op.isLt
  have b1 := d.isLt
  have b2 := addr.isLt
  simp only [field_eq_iff, fmtUnA, toNat_append_add, BitVec.toNat_ofNat]
  refine ⟨?_, ?_, ?_, ?_, ?_⟩ <;> omega

theorem fmtUnR_fields (op d o : BitVec 5) :
    field (fmtUnR op d o) 27 5 = op ∧ field (fmtUnR op d o) 26 1 = 0#1 ∧ field (fmtUnR op d o) 21 5 = d ∧
    field (fmtUnR op d o) 20 1 = 1#1 ∧ field (fmtUnR op d o) 5 15 = 0#15 ∧ field (fmtUnR op d o) 0 5 = o := by
  have b0 := op.isLt
  have b1 := d.isLt
  have b2 := o.isLt
  simp only [field_eq_iff, fmtUnR, toNat_append_add, BitVec.toNat_ofNat]
  refine ⟨?_, ?_, ?_, ?_, ?_, ?_⟩ <;> omega

theorem fmtShf_fields (kind : BitVec 2) (d o imm : BitVec 5) :
    field (fmtShf kind d o imm) 27 5 = 0b10000#5 ∧ field (fmtShf kind d o imm) 25 2 = kind ∧
    field (fmtShf kind d o imm) 15 10 = 0#10 ∧ field (fmtShf kind d o imm) 10 5 = d ∧
    field (fmtShf kind d o imm) 5 5 = o ∧ field (fmtShf kind d o imm) 0 5 = imm := by
  have b0 := kind.isLt
  have b1 := d.isLt
  have b2 := o.isLt
  have b3 := imm.isLt
  simp only [field_eq_iff, fmtShf, toNat_append_add, BitVec.toNat_ofNat]
  refine ⟨?_, ?_, ?_, ?_, ?_, ?_⟩ <;> omega

theorem fmtJumpA_fields (n p z : Bool) (addr : Addr) :
    field (fmtJumpA n p z addr) 27 5 = 0b10111#5 ∧ field (fmtJumpA n p z addr) 26 1 = BitVec.ofBool n ∧
    field (fmtJumpA n p z addr) 25 1 = BitVec.ofBool p ∧ field (fmtJumpA n p z addr) 24 1 = BitVec.ofBool z ∧
    field (fmtJumpA n p z addr) 21 3 = 0#3 ∧ field (fmtJumpA n p z addr) 20 1 = 0#1 ∧
    field (fmtJumpA n p z addr) 0 20 = addr := by
  have b0 := toNat_ofBool_lt n
  have b1 := toNat_ofBool_lt p
  have b2 := toNat_ofBool_lt z
  have b3 := addr.isLt
  simp only [field_eq_iff, fmtJumpA, toNat_append_add, BitVec.toNat_ofNat]
  refine ⟨?_, ?_, ?_, ?_, ?_, ?_, ?_⟩ <;> omega

theorem fmtJumpR_fields (n p z : Bool) (sr : RegNum) :
    field (fmtJumpR n p z sr) 27 5 = 0b10111#5 ∧ field (fmtJumpR n p z sr) 26 1 = BitVec.ofBool n ∧
    field (fmtJumpR n p z sr) 25 1 = BitVec.ofBool p ∧ field (fmtJumpR n p z sr) 24 1 = BitVec.ofBool z ∧
    field (fmtJumpR n p z sr) 21 3 = 0#3 ∧ field (fmtJumpR n p z sr) 20 1 = 1#1 ∧
    field (fmtJumpR n p z sr) 4 16 = 0#16 ∧ field (fmtJumpR n p z sr) 0 4 = sr := by
  have b0 := toNat_ofBool_lt n
  have b1 := toNat_ofBool_lt p
  have b2 := toNat_ofBool_lt z
  have b3 := sr.isLt
  simp only [field_eq_iff, fmtJumpR, toNat_append_add, BitVec.toNat_ofNat]
  refine ⟨?_, ?_, ?_, ?_, ?_, ?_, ?_, ?_⟩ <;> omega

theorem fmtCallA_fields (addr : Addr) :
    field (fmtCallA addr) 27 5 = 0b01000#5 ∧ field (fmtCallA addr) 26 1 = 0#1 ∧
    field (fmtCallA addr) 21 5 = 0#5 ∧ field (fmtCallA addr) 20 1 = 0#1 ∧
    field (fmtCallA addr) 0 20 = addr := by
  have b0 := addr.isLt
  simp only [field_eq_iff, fmtCallA, toNat_append_add, BitVec.toNat_ofNat]
  refine ⟨?_, ?_, ?_, ?_, ?_⟩ <;> omega

theorem fmtCallR_fields (sr : RegNum) :
    field (fmtCallR sr) 27 5 = 0b01000#5 ∧ field (fmtCallR sr) 26 1 = 0#1 ∧ field (fmtCallR sr) 21 5 = 0#5 ∧
    field (fmtCallR sr) 20 1 = 1#1 ∧ field (fmtCallR sr) 4 16 = 0#16 ∧ field (fmtCallR sr) 0 4 = sr := by
  have b0 := sr.isLt
  simp only [field_eq_iff, fmtCallR, toNat_append_add, BitVec.toNat_ofNat]
  refine ⟨?_, ?_, ?_, ?_, ?_, ?_⟩ <;> omega

theorem fmtScl_fields (imm : BitVec 5) :
    field (fmtScl imm) 27 5 = 0b01000#5 ∧ field (fmtScl imm) 26 1 = 1#1 ∧ field (fmtScl imm) 5 21 = 0#21 ∧
    field (fmtScl imm) 0 5 = imm := by
  have b0 := imm.isLt
  simp only [field_eq_iff, fmtScl, toNat_append_add, BitVec.toNat_ofNat]
  refine ⟨?_, ?_, ?_, ?_⟩ <;> omega

theorem fmtRet_fields (sys : BitVec 1) :
    field (fmtRet sys) 27 5 = 0b00011#5 ∧ field (fmtRet sys) 26 1 = sys ∧ field (fmtRet sys) 0 26 = 0#26 := by
  have b0 := sys.isLt
  simp only [field_eq_iff, fmtRet, toNat_append_add, BitVec.toNat_ofNat]
  refine ⟨?_, ?_, ?_⟩ <;> omega

theorem fmtLdA_fields (size : BitVec 2) (dr : RegNum) (addr : Addr) :
    field (fmtLdA size dr addr) 27 5 = 0b01001#5 ∧ field (fmtLdA size dr addr) 25 2 = size ∧
    field (fmtLdA size dr addr) 21 4 = dr ∧ field (fmtLdA size dr addr) 20 1 = 0#1 ∧
    field (fmtLdA size dr addr) 0 20 = addr := by
  have b0 := size.isLt
  have b1 := dr.isLt
  have b2 := addr.isLt
  simp only [field_eq_iff, fmtLdA, toNat_append_add, BitVec.toNat_ofNat]
  refine ⟨?_, ?_, ?_, ?_, ?_⟩ <;> omega

theorem fmtLdR_fields (size : BitVec 2) (dr sr : RegNum) :
    field (fmtLdR size dr sr) 27 5 = 0b01001#5 ∧ field (fmtLdR size dr sr) 25 2 = size ∧
    field (fmtLdR size dr sr) 21 4 = dr ∧ field (fmtLdR size dr sr) 20 1 = 1#1 ∧
    field (fmtLdR size dr sr) 4 16 = 0#16 ∧ field (fmtLdR size dr sr) 0 4 = sr := by
  have b0 := size.isLt
  have b1 := dr.isLt
  have b2 := sr.isLt
  simp only [field_eq_iff, fmtLdR, toNat_append_add, BitVec.toNat_ofNat]
  refine ⟨?_, ?_, ?_, ?_, ?_, ?_⟩ <;> omega

theorem fmtStA_fields (size : BitVec 2) (addr : Addr) (sr : RegNum) :
    field (fmtStA size addr sr) 27 5 = 0b00001#5 ∧ field (fmtStA size addr sr) 25 2 = size ∧
    field (fmtStA size addr sr) 24 1 = 0#1 ∧ field (fmtStA size addr sr) 4 20 = addr ∧
    field (fmtStA size addr sr) 0 4 = sr := by
  have b0 := size.isLt
  have b1 := addr.isLt
  have b2 := sr.isLt
  simp only [field_eq_iff, fmtStA, toNat_append_add, BitVec.toNat_ofNat]
  refine ⟨?_, ?_, ?_, ?_, ?_⟩ <;> omega

theorem fmtStR_fields (size : BitVec 2) (dr sr : RegNum) :
    field (fmtStR size dr sr) 27 5 = 0b00001#5 ∧ field (fmtStR size dr sr) 25 2 = size ∧
    field (fmtStR size dr sr) 24 1 = 1#1 ∧ field (fmtStR size dr sr) 8 16 = 0#16 ∧
    field (fmtStR size dr sr) 4 4 = dr ∧ field (fmtStR size dr sr) 0 4 = sr := by
  have b0 := size.isLt
  have b1 := dr.isLt
  have b2 := sr.isLt
  simp only [field_eq_iff, fmtStR, toNat_append_add, BitVec.toNat_ofNat]
  refine ⟨?_, ?_, ?_, ?_, ?_, ?_⟩ <;> omega

theorem fmtCpyI_fields (sel : BitVec 2) (dr : RegNum) (imm : BitVec 16) :
    field (fmtCpyI sel dr imm) 27 5 = 0b00010#5 ∧ field (fmtCpyI sel dr imm) 22 5 = 0#5 ∧
    field (fmtCpyI sel dr imm) 18 4 = dr ∧ field (fmtCpyI sel dr imm) 16 2 = sel ∧
    field (fmtCpyI sel dr imm) 0 16 = imm := by
  have b0 := sel.isLt
  have b1 := dr.isLt
  have b2 := imm.isLt
  simp only [field_eq_iff, fmtCpyI, toNat_append_add, BitVec.toNat_ofNat]
  refine ⟨?_, ?_, ?_, ?_, ?_⟩ <;> omega

theorem fmtCpy_fields (dr sr : RegNum) :
    field (fmtCpy dr sr) 27 5 = 0b00010#5 ∧ field (fmtCpy dr sr) 22 5 = 0#5 ∧ field (fmtCpy dr sr) 18 4 = dr ∧
    field (fmtCpy dr sr) 16 2 = 0b10#2 ∧ field (fmtCpy dr sr) 4 12 = 0#12 ∧
    field (fmtCpy dr sr) 0 4 = sr := by
  have b0 := dr.isLt
  have b1 := sr.isLt
  simp only [field_eq_iff, fmtCpy, toNat_append_add, BitVec.toNat_ofNat]
  refine ⟨?_, ?_, ?_, ?_, ?_, ?_⟩ <;> omega

theorem fmtPushI_fields (s : BitVec 1) (imm : BitVec 16) :
    field (fmtPushI s imm) 27 5 = 0b11111#5 ∧ field (fmtPushI s imm) 26 1 = 0#1 ∧
    field (fmtPushI s imm) 24 2 = 0#2 ∧ field (fmtPushI s imm) 17 7 = 0#7 ∧ field (fmtPushI s imm) 16 1 = s ∧
    field (fmtPushI s imm) 0 16 = imm := by
  have b0 := s.isLt
  have b1 := imm.isLt
  simp only [field_eq_iff, fmtPushI, toNat_append_add, BitVec.toNat_ofNat]
  refine ⟨?_, ?_, ?_, ?_, ?_, ?_⟩ <;> omega

theorem fmtStackA_fields (pop : BitVec 1) (size : BitVec 2) (addr : Addr) :
    field (fmtStackA pop size addr) 27 5 = 0b11111#5 ∧ field (fmtStackA pop size addr) 26 1 = pop ∧
    field (fmtStackA pop size addr) 24 2 = size ∧ field (fmtStackA pop size addr) 21 3 = 0#3 ∧
    field (fmtStackA pop size addr) 20 1 = 0#1 ∧ field (fmtStackA pop size addr) 0 20 = addr := by
  have b0 := pop.isLt
  have b1 := size.isLt
  have b2 := addr.isLt
  simp only [field_eq_iff, fmtStackA, toNat_append_add, BitVec.toNat_ofNat]
  refine ⟨?_, ?_, ?_, ?_, ?_, ?_⟩ <;> omega

theorem fmtStackR_fields (pop : BitVec 1) (size : BitVec 2) (o : BitVec 5) :
    field (fmtStackR pop size o) 27 5 = 0b11111#5 ∧ field (fmtStackR pop size o) 26 1 = pop ∧
    field (fmtStackR pop size o) 24 2 = size ∧ field (fmtStackR pop size o) 21 3 = 0#3 ∧
    field (fmtStackR pop size o) 20 1 = 1#1 ∧ field (fmtStackR pop size o) 5 15 = 0#15 ∧
    field (fmtStackR pop size o) 0 5 = o := by
  have b0 := pop.isLt
  have b1 := size.isLt
  have b2 := o.isLt
  simp only [field_eq_iff, fmtStackR, toNat_append_add, BitVec.toNat_ofNat]
  refine ⟨?_, ?_, ?_, ?_, ?_, ?_, ?_⟩ <;> omega

theorem fmtIn_fields (form : BitVec 1) (d src : BitVec 5) :
    field (fmtIn form d src) 27 5 = 0b01110#5 ∧ field (fmtIn form d src) 26 1 = 0#1 ∧
    field (fmtIn form d src) 11 15 = 0#15 ∧ field (fmtIn form d src) 6 5 = d ∧
    field (fmtIn form d src) 5 1 = form ∧ field (fmtIn form d src) 0 5 = src := by
  have b0 := form.isLt
  have b1 := d.isLt
  have b2 := src.isLt
  simp only [field_eq_iff, fmtIn, toNat_append_add, BitVec.toNat_ofNat]
  refine ⟨?_, ?_, ?_, ?_, ?_, ?_⟩ <;> omega

theorem fmtOut_fields (form : BitVec 1) (port o : BitVec 5) :
    field (fmtOut form port o) 27 5 = 0b01110#5 ∧ field (fmtOut form port o) 26 1 = 1#1 ∧
    field (fmtOut form port o) 11 15 = 0#15 ∧ field (fmtOut form port o) 10 1 = form ∧
    field (fmtOut form port o) 5 5 = port ∧ field (fmtOut form port o) 0 5 = o := by
  have b0 := form.isLt
  have b1 := port.isLt
  have b2 := o.isLt
  simp only [field_eq_iff, fmtOut, toNat_append_add, BitVec.toNat_ofNat]
  refine ⟨?_, ?_, ?_, ?_, ?_, ?_⟩ <;> omega

theorem fmtSsspA_fields (addr : Addr) :
    field (fmtSsspA addr) 27 5 = 0b00110#5 ∧ field (fmtSsspA addr) 21 6 = 0#6 ∧
    field (fmtSsspA addr) 20 1 = 0#1 ∧ field (fmtSsspA addr) 0 20 = addr := by
  have b0 := addr.isLt
  simp only [field_eq_iff, fmtSsspA, toNat_append_add, BitVec.toNat_ofNat]
  refine ⟨?_, ?_, ?_, ?_⟩ <;> omega

theorem fmtSsspR_fields (o : BitVec 5) :
    field (fmtSsspR o) 27 5 = 0b00110#5 ∧ field (fmtSsspR o) 21 6 = 0#6 ∧ field (fmtSsspR o) 20 1 = 1#1 ∧
    field (fmtSsspR o) 5 15 = 0#15 ∧ field (fmtSsspR o) 0 5 = o := by
  have b0 := o.isLt
  simp only [field_eq_iff, fmtSsspR, toNat_append_add, BitVec.toNat_ofNat]
  refine ⟨?_, ?_, ?_, ?_, ?_⟩ <;> omega

theorem fmtHalt_fields :
    field fmtHalt 27 5 = 0b10001#5 ∧ field fmtHalt 21 6 = 0#6 ∧ field fmtHalt 20 1 = 0#1 ∧
    field fmtHalt 0 20 = 0#20 := by
  simp only [field_eq_iff, fmtHalt, toNat_append_add, BitVec.toNat_ofNat]
  refine ⟨?_, ?_, ?_, ?_⟩ <;> omega

/-! ### Selectors that the decoder reads as one field -/

theorem fmtMul_selector (u : BitVec 1) (size : BitVec 2) (d a b : BitVec 5) :
    field (fmtMul u size d a b) 24 3 = u ++ size := by
  have b0 := u.isLt
  have b1 := size.isLt
  have b2 := d.isLt
  have b3 := a.isLt
  have b4 := b.isLt
  simp only [field_eq_iff, fmtMul, toNat_append_add, BitVec.toNat_ofNat]
  omega

theorem fmtStackA_selector (pop : BitVec 1) (size : BitVec 2) (addr : Addr) :
    field (fmtStackA pop size addr) 24 3 = pop ++ size := by
  have b0 := pop.isLt
  have b1 := size.isLt
  have b2 := addr.isLt
  simp only [field_eq_iff, fmtStackA, toNat_append_add, BitVec.toNat_ofNat]
  omega

theorem fmtStackR_selector (pop : BitVec 1) (size : BitVec 2) (o : BitVec 5) :
    field (fmtStackR pop size o) 24 3 = pop ++ size := by
  have b0 := pop.isLt
  have b1 := size.isLt
  have b2 := o.isLt
  simp only [field_eq_iff, fmtStackR, toNat_append_add, BitVec.toNat_ofNat]
  omega

theorem fmtPushI_selector (s : BitVec 1) (imm : BitVec 16) : field (fmtPushI s imm) 24 3 = 0#3 := by
  have b0 := s.isLt
  have b1 := imm.isLt
  simp only [field_eq_iff, fmtPushI, toNat_append_add, BitVec.toNat_ofNat]
  omega

theorem fmtHalt_fixed : field fmtHalt 20 7 = 0#7 := by decide

end Sys2Proof
end

