-- ==== Sys2Proof/Laws/State.lean ====
section
/-! SUPPORT. The small lemmas of the state: one lemma per field per update, true by rfl; what a register reads after a
register is written; what the flags and the mode are after the flags are set. -/

namespace Sys2Proof.Machine

variable {w : Nat} (s : State)

/-! ### setReg -/

@[simp] theorem State.setReg_pc (r : RegNum) (v : Word) : (s.setReg r v).pc = s.pc := rfl
@[simp] theorem State.setReg_ms (r : RegNum) (v : Word) : (s.setReg r v).ms = s.ms := rfl
@[simp] theorem State.setReg_ssp (r : RegNum) (v : Word) : (s.setReg r v).ssp = s.ssp := rfl
@[simp] theorem State.setReg_mem (r : RegNum) (v : Word) : (s.setReg r v).mem = s.mem := rfl
@[simp] theorem State.setReg_pending (r : RegNum) (v : Word) : (s.setReg r v).pending = s.pending := rfl
@[simp] theorem State.setReg_halted (r : RegNum) (v : Word) : (s.setReg r v).halted = s.halted := rfl
@[simp] theorem State.setReg_avl (r : RegNum) (v : Word) : (s.setReg r v).avl = s.avl := rfl
@[simp] theorem State.setReg_ch (r : RegNum) (v : Word) : (s.setReg r v).ch = s.ch := rfl
@[simp] theorem State.setReg_busy (r : RegNum) (v : Word) : (s.setReg r v).busy = s.busy := rfl
@[simp] theorem State.setReg_outTrace (r : RegNum) (v : Word) : (s.setReg r v).outTrace = s.outTrace := rfl
@[simp] theorem State.setReg_arrivals (r : RegNum) (v : Word) : (s.setReg r v).arrivals = s.arrivals := rfl
@[simp] theorem State.setReg_freeTick (r : RegNum) (v : Word) : (s.setReg r v).freeTick = s.freeTick := rfl

@[simp] theorem State.setReg_byteAt (r : RegNum) (v : Word) (x : Nat) : (s.setReg r v).byteAt x = s.byteAt x := rfl
@[simp] theorem State.setReg_wordAt (r : RegNum) (v : Word) (x : Nat) : (s.setReg r v).wordAt x = s.wordAt x := rfl
@[simp] theorem State.setReg_zf (r : RegNum) (v : Word) : (s.setReg r v).zf = s.zf := rfl
@[simp] theorem State.setReg_pf (r : RegNum) (v : Word) : (s.setReg r v).pf = s.pf := rfl
@[simp] theorem State.setReg_nf (r : RegNum) (v : Word) : (s.setReg r v).nf = s.nf := rfl
@[simp] theorem State.setReg_mi (r : RegNum) (v : Word) : (s.setReg r v).mi = s.mi := rfl
@[simp] theorem State.setReg_mode (r : RegNum) (v : Word) : (s.setReg r v).mode = s.mode := rfl

/-! ### setFlags -/

@[simp] theorem State.setFlags_regs (v : BitVec w) : (s.setFlags v).regs = s.regs := rfl
@[simp] theorem State.setFlags_pc (v : BitVec w) : (s.setFlags v).pc = s.pc := rfl
@[simp] theorem State.setFlags_ssp (v : BitVec w) : (s.setFlags v).ssp = s.ssp := rfl
@[simp] theorem State.setFlags_mem (v : BitVec w) : (s.setFlags v).mem = s.mem := rfl
@[simp] theorem State.setFlags_pending (v : BitVec w) : (s.setFlags v).pending = s.pending := rfl
@[simp] theorem State.setFlags_halted (v : BitVec w) : (s.setFlags v).halted = s.halted := rfl
@[simp] theorem State.setFlags_avl (v : BitVec w) : (s.setFlags v).avl = s.avl := rfl
@[simp] theorem State.setFlags_ch (v : BitVec w) : (s.setFlags v).ch = s.ch := rfl
@[simp] theorem State.setFlags_busy (v : BitVec w) : (s.setFlags v).busy = s.busy := rfl
@[simp] theorem State.setFlags_outTrace (v : BitVec w) : (s.setFlags v).outTrace = s.outTrace := rfl
@[simp] theorem State.setFlags_arrivals (v : BitVec w) : (s.setFlags v).arrivals = s.arrivals := rfl
@[simp] theorem State.setFlags_freeTick (v : BitVec w) : (s.setFlags v).freeTick = s.freeTick := rfl

@[simp] theorem State.setFlags_reg (v : BitVec w) (q : RegNum) : (s.setFlags v).reg q = s.reg q := rfl
@[simp] theorem State.setFlags_byteAt (v : BitVec w) (x : Nat) : (s.setFlags v).byteAt x = s.byteAt x := rfl
@[simp] theorem State.setFlags_wordAt (v : BitVec w) (x : Nat) : (s.setFlags v).wordAt x = s.wordAt x := rfl

/-! ### setMI -/

@[simp] theorem State.setMI_regs : s.setMI.regs = s.regs := rfl
@[simp] theorem State.setMI_pc : s.setMI.pc = s.pc := rfl
@[simp] theorem State.setMI_ssp : s.setMI.ssp = s.ssp := rfl
@[simp] theorem State.setMI_mem : s.setMI.mem = s.mem := rfl
@[simp] theorem State.setMI_pending : s.setMI.pending = s.pending := rfl
@[simp] theorem State.setMI_halted : s.setMI.halted = s.halted := rfl
@[simp] theorem State.setMI_avl : s.setMI.avl = s.avl := rfl
@[simp] theorem State.setMI_ch : s.setMI.ch = s.ch := rfl
@[simp] theorem State.setMI_busy : s.setMI.busy = s.busy := rfl
@[simp] theorem State.setMI_outTrace : s.setMI.outTrace = s.outTrace := rfl
@[simp] theorem State.setMI_arrivals : s.setMI.arrivals = s.arrivals := rfl
@[simp] theorem State.setMI_freeTick : s.setMI.freeTick = s.freeTick := rfl

@[simp] theorem State.setMI_reg (q : RegNum) : s.setMI.reg q = s.reg q := rfl
@[simp] theorem State.setMI_byteAt (x : Nat) : s.setMI.byteAt x = s.byteAt x := rfl
@[simp] theorem State.setMI_wordAt (x : Nat) : s.setMI.wordAt x = s.wordAt x := rfl

/-! ### putBytes -/

@[simp] theorem State.putBytes_regs (a : Addr) (n : Nat) (v : BitVec w) : (s.putBytes a n v).regs = s.regs := rfl
@[simp] theorem State.putBytes_pc (a : Addr) (n : Nat) (v : BitVec w) : (s.putBytes a n v).pc = s.pc := rfl
@[simp] theorem State.putBytes_ms (a : Addr) (n : Nat) (v : BitVec w) : (s.putBytes a n v).ms = s.ms := rfl
@[simp] theorem State.putBytes_ssp (a : Addr) (n : Nat) (v : BitVec w) : (s.putBytes a n v).ssp = s.ssp := rfl
@[simp] theorem State.putBytes_pending (a : Addr) (n : Nat) (v : BitVec w) : (s.putBytes a n v).pending = s.pending := rfl
@[simp] theorem State.putBytes_halted (a : Addr) (n : Nat) (v : BitVec w) : (s.putBytes a n v).halted = s.halted := rfl
@[simp] theorem State.putBytes_avl (a : Addr) (n : Nat) (v : BitVec w) : (s.putBytes a n v).avl = s.avl := rfl
@[simp] theorem State.putBytes_ch (a : Addr) (n : Nat) (v : BitVec w) : (s.putBytes a n v).ch = s.ch := rfl
@[simp] theorem State.putBytes_busy (a : Addr) (n : Nat) (v : BitVec w) : (s.putBytes a n v).busy = s.busy := rfl
@[simp] theorem State.putBytes_outTrace (a : Addr) (n : Nat) (v : BitVec w) : (s.putBytes a n v).outTrace = s.outTrace := rfl
@[simp] theorem State.putBytes_arrivals (a : Addr) (n : Nat) (v : BitVec w) : (s.putBytes a n v).arrivals = s.arrivals := rfl
@[simp] theorem State.putBytes_freeTick (a : Addr) (n : Nat) (v : BitVec w) : (s.putBytes a n v).freeTick = s.freeTick := rfl

@[simp] theorem State.putBytes_reg (a : Addr) (n : Nat) (v : BitVec w) (q : RegNum) : (s.putBytes a n v).reg q = s.reg q := rfl
@[simp] theorem State.putBytes_zf (a : Addr) (n : Nat) (v : BitVec w) : (s.putBytes a n v).zf = s.zf := rfl
@[simp] theorem State.putBytes_pf (a : Addr) (n : Nat) (v : BitVec w) : (s.putBytes a n v).pf = s.pf := rfl
@[simp] theorem State.putBytes_nf (a : Addr) (n : Nat) (v : BitVec w) : (s.putBytes a n v).nf = s.nf := rfl
@[simp] theorem State.putBytes_mi (a : Addr) (n : Nat) (v : BitVec w) : (s.putBytes a n v).mi = s.mi := rfl
@[simp] theorem State.putBytes_mode (a : Addr) (n : Nat) (v : BitVec w) : (s.putBytes a n v).mode = s.mode := rfl

/-! ### popped -/

@[simp] theorem State.popped_pc : s.popped.pc = s.pc := rfl
@[simp] theorem State.popped_ms : s.popped.ms = s.ms := rfl
@[simp] theorem State.popped_ssp : s.popped.ssp = s.ssp := rfl
@[simp] theorem State.popped_mem : s.popped.mem = s.mem := rfl
@[simp] theorem State.popped_pending : s.popped.pending = s.pending := rfl
@[simp] theorem State.popped_halted : s.popped.halted = s.halted := rfl
@[simp] theorem State.popped_avl : s.popped.avl = s.avl := rfl
@[simp] theorem State.popped_ch : s.popped.ch = s.ch := rfl
@[simp] theorem State.popped_busy : s.popped.busy = s.busy := rfl
@[simp] theorem State.popped_outTrace : s.popped.outTrace = s.outTrace := rfl
@[simp] theorem State.popped_arrivals : s.popped.arrivals = s.arrivals := rfl
@[simp] theorem State.popped_freeTick : s.popped.freeTick = s.freeTick := rfl

@[simp] theorem State.popped_byteAt (x : Nat) : s.popped.byteAt x = s.byteAt x := rfl
@[simp] theorem State.popped_wordAt (x : Nat) : s.popped.wordAt x = s.wordAt x := rfl
@[simp] theorem State.popped_zf : s.popped.zf = s.zf := rfl
@[simp] theorem State.popped_pf : s.popped.pf = s.pf := rfl
@[simp] theorem State.popped_nf : s.popped.nf = s.nf := rfl
@[simp] theorem State.popped_mi : s.popped.mi = s.mi := rfl
@[simp] theorem State.popped_mode : s.popped.mode = s.mode := rfl

/-! ### advancePC -/

@[simp] theorem State.advancePC_regs : s.advancePC.regs = s.regs := rfl
@[simp] theorem State.advancePC_ms : s.advancePC.ms = s.ms := rfl
@[simp] theorem State.advancePC_ssp : s.advancePC.ssp = s.ssp := rfl
@[simp] theorem State.advancePC_mem : s.advancePC.mem = s.mem := rfl
@[simp] theorem State.advancePC_pending : s.advancePC.pending = s.pending := rfl
@[simp] theorem State.advancePC_halted : s.advancePC.halted = s.halted := rfl
@[simp] theorem State.advancePC_avl : s.advancePC.avl = s.avl := rfl
@[simp] theorem State.advancePC_ch : s.advancePC.ch = s.ch := rfl
@[simp] theorem State.advancePC_busy : s.advancePC.busy = s.busy := rfl
@[simp] theorem State.advancePC_outTrace : s.advancePC.outTrace = s.outTrace := rfl
@[simp] theorem State.advancePC_arrivals : s.advancePC.arrivals = s.arrivals := rfl
@[simp] theorem State.advancePC_freeTick : s.advancePC.freeTick = s.freeTick := rfl

@[simp] theorem State.advancePC_reg (q : RegNum) : s.advancePC.reg q = s.reg q := rfl
@[simp] theorem State.advancePC_byteAt (x : Nat) : s.advancePC.byteAt x = s.byteAt x := rfl
@[simp] theorem State.advancePC_wordAt (x : Nat) : s.advancePC.wordAt x = s.wordAt x := rfl
@[simp] theorem State.advancePC_zf : s.advancePC.zf = s.zf := rfl
@[simp] theorem State.advancePC_pf : s.advancePC.pf = s.pf := rfl
@[simp] theorem State.advancePC_nf : s.advancePC.nf = s.nf := rfl
@[simp] theorem State.advancePC_mi : s.advancePC.mi = s.mi := rfl
@[simp] theorem State.advancePC_mode : s.advancePC.mode = s.mode := rfl

/-! ### afterPortRead -/

@[simp] theorem State.afterPortRead_regs : s.afterPortRead.regs = s.regs := rfl
@[simp] theorem State.afterPortRead_pc : s.afterPortRead.pc = s.pc := rfl
@[simp] theorem State.afterPortRead_ms : s.afterPortRead.ms = s.ms := rfl
@[simp] theorem State.afterPortRead_ssp : s.afterPortRead.ssp = s.ssp := rfl
@[simp] theorem State.afterPortRead_mem : s.afterPortRead.mem = s.mem := rfl
@[simp] theorem State.afterPortRead_pending : s.afterPortRead.pending = s.pending := rfl
@[simp] theorem State.afterPortRead_halted : s.afterPortRead.halted = s.halted := rfl
@[simp] theorem State.afterPortRead_avl : s.afterPortRead.avl = s.avl := rfl
@[simp] theorem State.afterPortRead_ch : s.afterPortRead.ch = s.ch := rfl
@[simp] theorem State.afterPortRead_busy : s.afterPortRead.busy = s.busy := rfl
@[simp] theorem State.afterPortRead_outTrace : s.afterPortRead.outTrace = s.outTrace := rfl
@[simp] theorem State.afterPortRead_arrivals : s.afterPortRead.arrivals = s.arrivals := rfl

@[simp] theorem State.afterPortRead_reg (q : RegNum) : s.afterPortRead.reg q = s.reg q := rfl
@[simp] theorem State.afterPortRead_byteAt (x : Nat) : s.afterPortRead.byteAt x = s.byteAt x := rfl
@[simp] theorem State.afterPortRead_wordAt (x : Nat) : s.afterPortRead.wordAt x = s.wordAt x := rfl
@[simp] theorem State.afterPortRead_zf : s.afterPortRead.zf = s.zf := rfl
@[simp] theorem State.afterPortRead_pf : s.afterPortRead.pf = s.pf := rfl
@[simp] theorem State.afterPortRead_nf : s.afterPortRead.nf = s.nf := rfl
@[simp] theorem State.afterPortRead_mi : s.afterPortRead.mi = s.mi := rfl
@[simp] theorem State.afterPortRead_mode : s.afterPortRead.mode = s.mode := rfl

/-! ### raiseVector -/

@[simp] theorem State.raiseVector_regs (v : IntVec) : (s.raiseVector v).regs = s.regs := rfl
@[simp] theorem State.raiseVector_pc (v : IntVec) : (s.raiseVector v).pc = s.pc := rfl
@[simp] theorem State.raiseVector_ms (v : IntVec) : (s.raiseVector v).ms = s.ms := rfl
@[simp] theorem State.raiseVector_ssp (v : IntVec) : (s.raiseVector v).ssp = s.ssp := rfl
@[simp] theorem State.raiseVector_mem (v : IntVec) : (s.raiseVector v).mem = s.mem := rfl
@[simp] theorem State.raiseVector_halted (v : IntVec) : (s.raiseVector v).halted = s.halted := rfl
@[simp] theorem State.raiseVector_avl (v : IntVec) : (s.raiseVector v).avl = s.avl := rfl
@[simp] theorem State.raiseVector_ch (v : IntVec) : (s.raiseVector v).ch = s.ch := rfl
@[simp] theorem State.raiseVector_busy (v : IntVec) : (s.raiseVector v).busy = s.busy := rfl
@[simp] theorem State.raiseVector_outTrace (v : IntVec) : (s.raiseVector v).outTrace = s.outTrace := rfl
@[simp] theorem State.raiseVector_arrivals (v : IntVec) : (s.raiseVector v).arrivals = s.arrivals := rfl
@[simp] theorem State.raiseVector_freeTick (v : IntVec) : (s.raiseVector v).freeTick = s.freeTick := rfl

@[simp] theorem State.raiseVector_reg (v : IntVec) (q : RegNum) : (s.raiseVector v).reg q = s.reg q := rfl
@[simp] theorem State.raiseVector_byteAt (v : IntVec) (x : Nat) : (s.raiseVector v).byteAt x = s.byteAt x := rfl
@[simp] theorem State.raiseVector_wordAt (v : IntVec) (x : Nat) : (s.raiseVector v).wordAt x = s.wordAt x := rfl
@[simp] theorem State.raiseVector_zf (v : IntVec) : (s.raiseVector v).zf = s.zf := rfl
@[simp] theorem State.raiseVector_pf (v : IntVec) : (s.raiseVector v).pf = s.pf := rfl
@[simp] theorem State.raiseVector_nf (v : IntVec) : (s.raiseVector v).nf = s.nf := rfl
@[simp] theorem State.raiseVector_mi (v : IntVec) : (s.raiseVector v).mi = s.mi := rfl
@[simp] theorem State.raiseVector_mode (v : IntVec) : (s.raiseVector v).mode = s.mode := rfl

/-! ### nextArrivals -/

@[simp] theorem State.nextArrivals_regs : s.nextArrivals.regs = s.regs := rfl
@[simp] theorem State.nextArrivals_pc : s.nextArrivals.pc = s.pc := rfl
@[simp] theorem State.nextArrivals_ms : s.nextArrivals.ms = s.ms := rfl
@[simp] theorem State.nextArrivals_ssp : s.nextArrivals.ssp = s.ssp := rfl
@[simp] theorem State.nextArrivals_mem : s.nextArrivals.mem = s.mem := rfl
@[simp] theorem State.nextArrivals_pending : s.nextArrivals.pending = s.pending := rfl
@[simp] theorem State.nextArrivals_halted : s.nextArrivals.halted = s.halted := rfl
@[simp] theorem State.nextArrivals_avl : s.nextArrivals.avl = s.avl := rfl
@[simp] theorem State.nextArrivals_ch : s.nextArrivals.ch = s.ch := rfl
@[simp] theorem State.nextArrivals_busy : s.nextArrivals.busy = s.busy := rfl
@[simp] theorem State.nextArrivals_outTrace : s.nextArrivals.outTrace = s.outTrace := rfl
@[simp] theorem State.nextArrivals_freeTick : s.nextArrivals.freeTick = s.freeTick := rfl

@[simp] theorem State.nextArrivals_reg (q : RegNum) : s.nextArrivals.reg q = s.reg q := rfl
@[simp] theorem State.nextArrivals_byteAt (x : Nat) : s.nextArrivals.byteAt x = s.byteAt x := rfl
@[simp] theorem State.nextArrivals_wordAt (x : Nat) : s.nextArrivals.wordAt x = s.wordAt x := rfl
@[simp] theorem State.nextArrivals_zf : s.nextArrivals.zf = s.zf := rfl
@[simp] theorem State.nextArrivals_pf : s.nextArrivals.pf = s.pf := rfl
@[simp] theorem State.nextArrivals_nf : s.nextArrivals.nf = s.nf := rfl
@[simp] theorem State.nextArrivals_mi : s.nextArrivals.mi = s.mi := rfl
@[simp] theorem State.nextArrivals_mode : s.nextArrivals.mode = s.mode := rfl

/-! ### Changed fields -/

@[simp] theorem State.advancePC_pc : s.advancePC.pc = s.pc + 4#20 := rfl

@[simp] theorem State.afterPortRead_freeTick : s.afterPortRead.freeTick = s.freeTick + 1 := rfl

@[simp] theorem State.setFlags_ms (v : BitVec w) :
    (s.setFlags v).ms = withFlags s.ms (zeroFlag v) (positiveFlag v) (negativeFlag v) := rfl

@[simp] theorem State.setMI_ms : s.setMI.ms = s.ms ||| 0x00010000#32 := rfl

/-- A register after a register is written. -/
theorem State.setReg_reg (r q : RegNum) (v : Word) :
    (s.setReg r v).reg q = if q = r then v else s.reg q := by
  simp only [State.reg, State.setReg, Vector.get_eq_getElem, Vector.getElem_set]
  simp [BitVec.toNat_inj, eq_comm]

@[simp] theorem State.setReg_reg_self (r : RegNum) (v : Word) : (s.setReg r v).reg r = v := by
  simp [State.setReg_reg]

@[simp] theorem State.setReg_setReg (r : RegNum) (v w : Word) : (s.setReg r v).setReg r w = s.setReg r w := by
  simp [State.setReg]

theorem State.setReg_reg_ne {r q : RegNum} (v : Word) (h : q ≠ r) : (s.setReg r v).reg q = s.reg q := by
  simp [State.setReg_reg, h]

@[simp] theorem State.popped_reg_sp : s.popped.reg sp = s.reg sp + 4#32 := by simp [State.popped]

theorem State.popped_reg_ne {q : RegNum} (h : q ≠ sp) : s.popped.reg q = s.reg q :=
  State.setReg_reg_ne s _ h

/-- Two states with the same registers and the same other fields are the same. -/
theorem State.ext_regs {s t : State} (h : ∀ r, s.reg r = t.reg r) (h' : { s with regs := t.regs } = t) : s = t := by
  have : s.regs = t.regs := by
    apply Vector.ext
    intro i hi
    have := h (BitVec.ofNat 4 i)
    have e : i % 16 = i := Nat.mod_eq_of_lt hi
    simpa [State.reg, Vector.get_eq_getElem, e] using this
  rw [← this] at h'
  exact h'

/-! ### The bits of MS -/

theorem withFlags_getLsbD (m : Word) (z p n : Bool) (i : Nat) :
    (withFlags m z p n).getLsbD i =
      if i = 0 then z else if i = 1 then p else if i = 2 then n else m.getLsbD i := by
  unfold withFlags
  rcases i with _ | _ | _ | i
  · simp only [BitVec.getLsbD_append]; simp
  · simp only [BitVec.getLsbD_append]; simp
  · simp only [BitVec.getLsbD_append]; simp
  · have h3 : i + 1 + 1 + 1 - 1 - 1 - 1 = i := by omega
    have hc : 3 + i = i + 1 + 1 + 1 := by omega
    simp only [BitVec.getLsbD_append, BitVec.getLsbD_extractLsb', h3, hc]
    by_cases h : i < 29
    · simp [h]
    · have : 32 ≤ i + 1 + 1 + 1 := by omega
      simp [h, BitVec.getLsbD_of_ge _ _ this]

@[simp] theorem State.setFlags_zf (v : BitVec w) : (s.setFlags v).zf = zeroFlag v := by
  rw [State.zf, State.setFlags_ms, withFlags_getLsbD, if_pos rfl]

@[simp] theorem State.setFlags_pf (v : BitVec w) : (s.setFlags v).pf = positiveFlag v := by
  rw [State.pf, State.setFlags_ms, withFlags_getLsbD, if_neg (by decide), if_pos rfl]

@[simp] theorem State.setFlags_nf (v : BitVec w) : (s.setFlags v).nf = negativeFlag v := by
  rw [State.nf, State.setFlags_ms, withFlags_getLsbD, if_neg (by decide), if_neg (by decide), if_pos rfl]

@[simp] theorem State.setFlags_mi (v : BitVec w) : (s.setFlags v).mi = s.mi := by
  rw [State.mi, State.setFlags_ms, withFlags_getLsbD, if_neg (by decide), if_neg (by decide), if_neg (by decide),
    State.mi]

@[simp] theorem State.setFlags_mode (v : BitVec w) : (s.setFlags v).mode = s.mode := by
  simp [State.mode]

theorem setMI_getLsbD (m : Word) (i : Nat) :
    (m ||| 0x00010000#32).getLsbD i = (m.getLsbD i || decide (i = 16)) := by
  have h : ∀ i < 32, (0x00010000#32).getLsbD i = decide (i = 16) := by decide
  by_cases hi : i < 32
  · simp [h i hi]
  · have : 32 ≤ i := by omega
    simp [BitVec.getLsbD_of_ge _ _ this]
    omega

@[simp] theorem State.setMI_mi : s.setMI.mi = true := by
  rw [State.mi, State.setMI_ms, setMI_getLsbD]; exact Bool.or_true _

@[simp] theorem State.setMI_mode : s.setMI.mode = .supervisor := by simp [State.mode]

theorem State.mode_eq_user_iff : s.mode = .user ↔ s.mi = false := by
  cases h : s.mi <;> simp [State.mode, h]

theorem State.mode_eq_supervisor_iff : s.mode = .supervisor ↔ s.mi = true := by
  cases h : s.mi <;> simp [State.mode, h]

/-- The flags of a result say its sign (R12). -/
theorem State.setFlags_flagsFrom (v : BitVec w) : FlagsFrom s (s.setFlags v) v := by
  refine ⟨by simp [zeroFlag], ?_, ?_, ?_⟩
  · simp [negativeFlag, BitVec.msb_eq_toInt]
  · have h0 : v = 0#w ↔ v.toInt = 0 := by
      rw [← BitVec.toInt_inj, BitVec.toInt_zero]
    simp only [State.setFlags_pf, positiveFlag, zeroFlag, negativeFlag, BitVec.msb_eq_toInt,
      Bool.and_eq_true, Bool.not_eq_true', beq_eq_false_iff_ne, ne_eq, h0, decide_eq_false_iff_not]
    omega
  · intro i hi
    have h0 : i ≠ 0 := by omega
    have h1 : i ≠ 1 := by omega
    have h2 : i ≠ 2 := by omega
    simp [withFlags_getLsbD, h0, h1, h2]

/-- The reserved bits of `MS` are bits 3 to 15 and 17 to 31 (R37). -/
theorem msReservedZero_iff (m : Word) :
    msReservedZero m = true ↔ ∀ i, 3 ≤ i → i ≠ 16 → m.getLsbD i = false := by
  have hm : ∀ i < 32, msReservedMask.getLsbD i = decide (3 ≤ i ∧ i ≠ 16) := by decide
  unfold msReservedZero
  rw [beq_iff_eq]
  constructor
  · intro h i h3 h16
    by_cases hi : i < 32
    · have := congrArg (·.getLsbD i) h
      simpa [hm i hi, h3, h16] using this
    · exact BitVec.getLsbD_of_ge _ _ (by omega)
  · intro h
    apply BitVec.eq_of_getLsbD_eq
    intro i hi
    by_cases hc : 3 ≤ i ∧ i ≠ 16
    · simp [h i hc.1 hc.2]
    · simp [hm i hi]
      intro _ h3
      exact Classical.byContradiction fun h16 => hc ⟨h3, h16⟩

theorem setFlags_reservedZero (v : BitVec w) (h : msReservedZero s.ms = true) :
    msReservedZero (s.setFlags v).ms = true := by
  rw [msReservedZero_iff] at *
  intro i h3 h16
  have h0 : i ≠ 0 := by omega
  have h1 : i ≠ 1 := by omega
  have h2 : i ≠ 2 := by omega
  simpa [withFlags_getLsbD, h0, h1, h2] using h i h3 h16

theorem setMI_reservedZero (h : msReservedZero s.ms = true) : msReservedZero s.setMI.ms = true := by
  rw [msReservedZero_iff] at *
  intro i h3 h16
  simp only [State.setMI_ms, setMI_getLsbD, h i h3 h16, Bool.false_or, decide_eq_false_iff_not]
  exact h16

end Sys2Proof.Machine
end

