-- ==== Sys2Proof/Laws/Memory.lean ====
section
/-! SUPPORT. The laws of memory: a byte reads as it was last written and every other byte is left alone; the canonical
form is kept by every store. -/

namespace Sys2Proof.Machine

/-! ### Read after write -/

theorem Memory.lookup_insert (m : Memory) (a x : Nat) (b : Byte) :
    Memory.lookup (Memory.insert a b m) x = if x = a then some b else Memory.lookup m x := by
  induction m with
  | nil => simp [Memory.insert, Memory.lookup]
  | cons c m ih =>
    obtain ⟨k, d⟩ := c
    simp only [Memory.insert]
    split
    · simp [Memory.lookup]
    · split
      · rename_i h; subst h
        by_cases hx : x = a <;> simp [Memory.lookup, hx]
      · rename_i h
        simp only [Memory.lookup, ih]
        by_cases hx : x = k
        · subst hx
          have hne : x ≠ a := fun e => h e.symm
          simp [hne]
        · simp [hx]

theorem Memory.lookup_erase (m : Memory) (a x : Nat) :
    Memory.lookup (Memory.erase a m) x = if x = a then Memory.unlisted a else Memory.lookup m x := by
  induction m with
  | nil => by_cases hx : x = a <;> simp [Memory.erase, Memory.lookup, hx]
  | cons c m ih =>
    obtain ⟨k, d⟩ := c
    unfold Memory.erase at ih ⊢
    by_cases hk : k = a
    · subst hk
      simp only [List.filter_cons, bne_self_eq_false, Bool.false_eq_true, if_false, ih, Memory.lookup]
      by_cases hx : x = k <;> simp [hx]
    · have hb : (k != a) = true := by simp [hk]
      simp only [List.filter_cons, hb, if_true, Memory.lookup, ih]
      by_cases hx : x = k
      · subst hx; simp [hk]
      · simp [hx]

/-- A byte after one byte is stored. -/
theorem Memory.byte_writeByte (m : Memory) (a x : Nat) (b : Byte) :
    Memory.byte (Memory.writeByte m a b) x = if x = a then b else Memory.byte m x := by
  unfold Memory.byte Memory.writeByte
  split
  · rename_i h
    rw [Memory.lookup_erase]
    by_cases hx : x = a <;> simp [hx, h]
  · rw [Memory.lookup_insert]
    by_cases hx : x = a <;> simp [hx]

/-- A byte outside the stored bytes is unchanged. -/
theorem Memory.byte_writeBytes_outside (bs : List Byte) (m : Memory) (a x : Nat)
    (h : ¬(a ≤ x ∧ x < a + bs.length)) : Memory.byte (Memory.writeBytes m a bs) x = Memory.byte m x := by
  induction bs generalizing m a with
  | nil => rfl
  | cons b bs ih =>
    simp only [List.length_cons] at h
    rw [Memory.writeBytes, ih _ _ (by omega), Memory.byte_writeByte, if_neg (by omega)]

/-- A stored byte reads as it was stored. -/
theorem Memory.byte_writeBytes_inside (bs : List Byte) (m : Memory) (a k : Nat) (h : k < bs.length) :
    Memory.byte (Memory.writeBytes m a bs) (a + k) = bs[k] := by
  induction bs generalizing m a k with
  | nil => simp at h
  | cons b bs ih =>
    rw [Memory.writeBytes]
    cases k with
    | zero =>
      rw [Memory.byte_writeBytes_outside _ _ _ _ (by omega), Memory.byte_writeByte]
      simp
    | succ k =>
      have hk : k < bs.length := by simpa using h
      have := ih (Memory.writeByte m a b) (a + 1) k hk
      rw [show a + (k + 1) = a + 1 + k by omega, this]
      rfl

@[simp] theorem littleEndian_length {w : Nat} (n : Nat) (v : BitVec w) : (littleEndian n v).length = n := by
  induction n generalizing v with
  | zero => rfl
  | succ n ih => simp [littleEndian, ih]

/-- Byte `k` of a value is its bits `8k` to `8k + 7`. -/
theorem littleEndian_getElem {w : Nat} (n k : Nat) (v : BitVec w) (h : k < (littleEndian n v).length) :
    (littleEndian n v)[k] = v.extractLsb' (8 * k) 8 := by
  induction n generalizing v k with
  | zero => simp at h
  | succ n ih =>
    cases k with
    | zero =>
      apply BitVec.eq_of_getLsbD_eq
      intro i hi
      simp [littleEndian]
    | succ k =>
      have hk : k < (littleEndian n (v >>> 8)).length := by simpa [littleEndian] using h
      have := ih k (v >>> 8) hk
      simp only [littleEndian, List.getElem_cons_succ, this]
      apply BitVec.eq_of_getLsbD_eq
      intro i hi
      simp only [BitVec.getLsbD_extractLsb', BitVec.getLsbD_ushiftRight]
      congr 2
      omega

/-- Every byte of memory after `n` bytes of a value are stored. -/
theorem State.byteAt_putBytes {w : Nat} (s : State) (a : Addr) (n x : Nat) (v : BitVec w) :
    (s.putBytes a n v).byteAt x =
      if a.toNat ≤ x ∧ x < a.toNat + n then v.extractLsb' (8 * (x - a.toNat)) 8 else s.byteAt x := by
  unfold State.byteAt State.putBytes
  dsimp only
  split
  · rename_i h
    have hk : x - a.toNat < (littleEndian n v).length := by simp; omega
    have := Memory.byte_writeBytes_inside (littleEndian n v) s.mem a.toNat (x - a.toNat) hk
    rw [show a.toNat + (x - a.toNat) = x by omega] at this
    rw [this, littleEndian_getElem]
  · rename_i h
    exact Memory.byte_writeBytes_outside _ _ _ _ (by simpa using h)

theorem State.memHolds_putBytes {w : Nat} (s : State) (a : Addr) (n : Nat) (v : BitVec w) :
    MemHolds (s.putBytes a n v) a n v := by
  intro k hk
  rw [State.byteAt_putBytes, if_pos (by omega)]
  congr 2
  omega

theorem State.memKeptOutside_putBytes {w : Nat} (s : State) (a : Addr) (n : Nat) (v : BitVec w) :
    MemKeptOutside s (s.putBytes a n v) a n := by
  intro x hx
  rw [State.byteAt_putBytes, if_neg hx]

/-- A word is its four bytes. -/
theorem word_of_bytes (v : Word) :
    v.extractLsb' 24 8 ++ v.extractLsb' 16 8 ++ v.extractLsb' 8 8 ++ v.extractLsb' 0 8 = v := by
  apply BitVec.eq_of_getLsbD_eq
  intro i hi
  simp only [BitVec.getLsbD_append, BitVec.getLsbD_extractLsb']
  by_cases h0 : i < 8
  · simp [h0]
  · by_cases h1 : i < 16
    · have e : 8 + (i - 8) = i := by omega
      have : i - 8 < 8 := by omega
      simp [h0, this, e]
    · by_cases h2 : i < 24
      · have e : 16 + (i - 8 - 8) = i := by omega
        have a1 : ¬ i - 8 < 8 := by omega
        have a2 : i - 8 - 8 < 8 := by omega
        simp [h0, a1, a2, e]
      · have e : 24 + (i - 8 - 8 - 8) = i := by omega
        have a1 : ¬ i - 8 < 8 := by omega
        have a2 : ¬ i - 8 - 8 < 8 := by omega
        have a3 : i - 8 - 8 - 8 < 8 := by omega
        simp [h0, a1, a2, a3, e]

/-- A word whose four bytes are held at an address reads back. -/
theorem State.wordAt_of_memHolds {s : State} {a : Addr} {v : Word} (h : MemHolds s a 4 v) :
    s.wordAt a.toNat = v := by
  have h0 := h 0 (by omega)
  have h1 := h 1 (by omega)
  have h2 := h 2 (by omega)
  have h3 := h 3 (by omega)
  simp only [State.byteAt, Nat.add_zero] at h0 h1 h2 h3
  unfold State.wordAt Memory.word
  rw [h0, h1, h2, h3]
  exact word_of_bytes v

/-- A word stored reads back. -/
theorem State.wordAt_putBytes_self (s : State) (a : Addr) (v : Word) : (s.putBytes a 4 v).wordAt a.toNat = v :=
  State.wordAt_of_memHolds (State.memHolds_putBytes s a 4 v)

/-- A word is unchanged if its four bytes are. -/
theorem State.wordAt_congr {s t : State} {x : Nat} (h : ∀ k, k < 4 → t.byteAt (x + k) = s.byteAt (x + k)) :
    t.wordAt x = s.wordAt x := by
  have h0 := h 0 (by omega)
  have h1 := h 1 (by omega)
  have h2 := h 2 (by omega)
  have h3 := h 3 (by omega)
  simp only [State.byteAt, Nat.add_zero] at h0 h1 h2 h3
  unfold State.wordAt Memory.word
  rw [h0, h1, h2, h3]

/-- A word that does not meet the stored bytes is unchanged. -/
theorem State.wordAt_putBytes_disjoint {w : Nat} (s : State) (a : Addr) (n x : Nat) (v : BitVec w)
    (h : x + 4 ≤ a.toNat ∨ a.toNat + n ≤ x) : (s.putBytes a n v).wordAt x = s.wordAt x := by
  apply State.wordAt_congr
  intro k hk
  rw [State.byteAt_putBytes, if_neg (by omega)]

/-! ### The canonical form -/

theorem Memory.wf_iff (m : Memory) :
    Memory.wf m = true ↔ (∀ c ∈ m, Memory.cellOk c = true) ∧ m.Pairwise (fun c d => c.1 < d.1) := by
  induction m with
  | nil => simp [Memory.wf]
  | cons c m ih =>
    cases m with
    | nil => simp [Memory.wf]
    | cons d m =>
      simp only [Memory.wf, Bool.and_eq_true, decide_eq_true_eq, ih, List.mem_cons, forall_eq_or_imp,
        List.pairwise_cons]
      constructor
      · rintro ⟨⟨hc, hcd⟩, ⟨hd, hm⟩, hdm, hp⟩
        exact ⟨⟨hc, hd, hm⟩, ⟨hcd, fun e he => Nat.lt_trans hcd (hdm e he)⟩, hdm, hp⟩
      · rintro ⟨⟨hc, hd, hm⟩, ⟨hcd, _⟩, hdm, hp⟩
        exact ⟨⟨hc, hcd⟩, ⟨hd, hm⟩, hdm, hp⟩

theorem Memory.mem_insert {m : Memory} {a : Nat} {b : Byte} {c : Host.Cell} (h : c ∈ Memory.insert a b m) :
    c = (a, b) ∨ c ∈ m := by
  induction m with
  | nil => simpa [Memory.insert] using h
  | cons d m ih =>
    obtain ⟨k, e⟩ := d
    simp only [Memory.insert] at h
    split at h
    · simpa using h
    · split at h
      · rcases List.mem_cons.mp h with h | h
        · exact .inl h
        · exact .inr (List.mem_cons_of_mem _ h)
      · rcases List.mem_cons.mp h with h | h
        · exact .inr (by simp [h])
        · rcases ih h with h | h
          · exact .inl h
          · exact .inr (List.mem_cons_of_mem _ h)

theorem Memory.pairwise_insert {m : Memory} (a : Nat) (b : Byte) (h : m.Pairwise (fun c d => c.1 < d.1)) :
    (Memory.insert a b m).Pairwise (fun c d => c.1 < d.1) := by
  induction m with
  | nil => simp [Memory.insert]
  | cons d m ih =>
    obtain ⟨k, e⟩ := d
    rw [List.pairwise_cons] at h
    simp only [Memory.insert]
    split
    · rename_i hak
      refine List.pairwise_cons.mpr ⟨?_, List.pairwise_cons.mpr h⟩
      intro c hc
      rcases List.mem_cons.mp hc with rfl | hc
      · exact hak
      · exact Nat.lt_trans hak (h.1 c hc)
    · split
      · rename_i hak; subst hak
        exact List.pairwise_cons.mpr ⟨fun c hc => h.1 c hc, h.2⟩
      · rename_i h1 h2
        refine List.pairwise_cons.mpr ⟨?_, ih h.2⟩
        intro c hc
        rcases Memory.mem_insert hc with rfl | hc
        · show k < a
          omega
        · exact h.1 c hc

theorem Memory.wf_writeByte {m : Memory} {a : Nat} {b : Byte} (ha : a < 2 ^ 20) (h : Memory.wf m = true) :
    Memory.wf (Memory.writeByte m a b) = true := by
  rw [Memory.wf_iff] at *
  unfold Memory.writeByte
  split
  · exact ⟨fun c hc => h.1 c (List.mem_of_mem_filter hc), h.2.filter _⟩
  · rename_i hb
    refine ⟨fun c hc => ?_, Memory.pairwise_insert a b h.2⟩
    rcases Memory.mem_insert hc with rfl | hc
    · simp only [Memory.cellOk, Bool.and_eq_true, decide_eq_true_eq, bne_iff_ne, ne_eq]
      exact ⟨ha, hb⟩
    · exact h.1 c hc

theorem Memory.wf_writeBytes {bs : List Byte} {m : Memory} {a : Nat} (ha : a + bs.length ≤ 2 ^ 20)
    (h : Memory.wf m = true) : Memory.wf (Memory.writeBytes m a bs) = true := by
  induction bs generalizing m a with
  | nil => exact h
  | cons b bs ih =>
    simp only [List.length_cons] at ha
    exact ih (by omega) (Memory.wf_writeByte (by omega) h)

/-- A store inside the address space keeps the canonical form. -/
theorem State.putBytes_wf {w : Nat} {s : State} {a : Addr} {n : Nat} (v : BitVec w) (ha : a.toNat + n ≤ 2 ^ 20)
    (h : Memory.wf s.mem = true) : Memory.wf (s.putBytes a n v).mem = true :=
  Memory.wf_writeBytes (by simpa using ha) h

/-- Memory as reset leaves it has the canonical form. -/
theorem Memory.wf_reset : Memory.wf State.reset.mem = true := rfl

end Sys2Proof.Machine
end

