-- ==== Sys2Proof/Laws/Ops.lean ====
section
/-! SUPPORT. One lemma for each shared operation: all that it can do. An operation with one check is `checked`: its
lemma says which check and what it answers where the check allows it. -/

namespace Sys2Proof.Machine

/-! ### Results -/

/-- A sequence answers exactly where its parts do. -/
theorem except_bind_ok {α β : Type} {x : Except Fault α} {f : α → Except Fault β} {b : β} :
    (x >>= f) = .ok b ↔ ∃ a, x = .ok a ∧ f a = .ok b := by
  cases x with
  | error e => simp [bind, Except.bind]
  | ok a => simp [bind, Except.bind]

@[simp] theorem except_ok_bind {α β : Type} (a : α) (f : α → Except Fault β) :
    ((Except.ok a : Except Fault α) >>= f) = f a := rfl

@[simp] theorem except_error_bind {α β : Type} (e : Fault) (f : α → Except Fault β) :
    ((Except.error e : Except Fault α) >>= f) = .error e := rfl

@[simp] theorem outcomeOf_ok (s : State) : outcomeOf (.ok s) = .next s := rfl

@[simp] theorem outcomeOf_error (f : Fault) : outcomeOf (.error f) = .fault f := rfl

theorem outcomeOf_eq_next {r : Except Fault State} {t : State} : outcomeOf r = .next t ↔ r = .ok t := by
  cases r <;> simp [outcomeOf]

theorem outcomeOf_eq_fault {r : Except Fault State} {f : Fault} : outcomeOf r = .fault f ↔ r = .error f := by
  cases r <;> simp [outcomeOf]

theorem outcomeOf_ne_refused (r : Except Fault State) (x : Refusal) : outcomeOf r ≠ .refused x := by
  cases r <;> simp [outcomeOf]

/-! ### Checks -/

@[simp] theorem checked_none {α : Type} (s : State) (x : α) : checked none s x = .ok x := rfl

@[simp] theorem checked_some {α : Type} (k : ErrorKind) (s : State) (x : α) :
    checked (some k) s x = .error (raise k s) := rfl

theorem checked_eq_ok {α : Type} {e : Option ErrorKind} {s : State} {x y : α} :
    checked e s x = .ok y ↔ e = none ∧ x = y := by
  cases e <;> simp

theorem checked_eq_error {α : Type} {e : Option ErrorKind} {s : State} {x : α} {f : Fault} :
    checked e s x = .error f ↔ ∃ k, e = some k ∧ raise k s = f := by
  cases e <;> simp

@[simp] theorem firstError_nil : firstError [] = none := rfl

@[simp] theorem firstError_none (es : List (Option ErrorKind)) : firstError (none :: es) = firstError es := rfl

@[simp] theorem firstError_some (k : ErrorKind) (es : List (Option ErrorKind)) :
    firstError (some k :: es) = some k := rfl

theorem accessError_eq_none {priv : Mode} {n : Nat} {a : Addr} :
    accessError priv n a = none ↔ a.toNat % n = 0 ∧ (priv = .user → protectedBelow ≤ a.toNat) := by
  unfold accessError
  by_cases h : a.toNat % n = 0
  · by_cases hu : priv = .user
    · by_cases hp : a.toNat < protectedBelow
      · simp [h, hu, hp]
      · simp [h, hu, hp, Nat.le_of_not_lt hp]
    · simp [h, hu]
  · simp [h]

/-- An aligned access does not pass the top of memory (R60). -/
theorem access_in_range {priv : Mode} {n : Nat} {a : Addr} (hn : n ∣ 2 ^ 20)
    (h : accessError priv n a = none) : a.toNat + n ≤ 2 ^ 20 := by
  have h0 := (accessError_eq_none.mp h).1
  have hlt := a.isLt
  obtain ⟨k, hk⟩ := hn
  obtain ⟨j, hj⟩ := Nat.dvd_of_mod_eq_zero h0
  rw [hj, hk] at hlt
  have hjk : j < k := Nat.lt_of_mul_lt_mul_left hlt
  rw [hj, hk]
  calc n * j + n = n * (j + 1) := by ring
    _ ≤ n * k := Nat.mul_le_mul_left n hjk

/-! ### Program counter -/

theorem low2_eq_zero {n : Nat} (a : BitVec n) : a.extractLsb' 0 2 = 0#2 ↔ a.toNat % 4 = 0 := by
  rw [← BitVec.toNat_inj]
  simp

/-- `SetPC` checks the alignment and writes the program counter, nothing else (R9). -/
theorem setPC_eq (a : Addr) (s : State) : setPC a s = checked (targetError a) s { s with pc := a } := by
  unfold setPC targetError
  by_cases h : a.toNat % 4 = 0
  · simp [h, low2_eq_zero]
  · simp [h, low2_eq_zero]

theorem targetError_eq_none {a : Addr} : targetError a = none ↔ a.toNat % 4 = 0 := by
  unfold targetError
  by_cases h : a.toNat % 4 = 0 <;> simp only [h, ne_eq, not_true, not_false_eq_true, if_true, if_false,
    reduceCtorEq]

/-! ### Stack -/

theorem high12_eq_zero (v : Word) : v.extractLsb' 20 12 = 0#12 ↔ v.toNat < 2 ^ 20 := by
  have := v.isLt
  rw [← BitVec.toNat_inj]
  simp only [BitVec.extractLsb'_toNat, BitVec.toNat_ofNat, Nat.shiftRight_eq_div_pow]
  omega

theorem stackAddr_eq (s : State) :
    stackAddr s = if 2 ^ 20 ≤ (s.reg sp).toNat then .error (raise .addressRange s) else .ok (addrOf (s.reg sp)) := by
  unfold stackAddr
  by_cases h : (s.reg sp).toNat < 2 ^ 20
  · have h' : ¬ 2 ^ 20 ≤ (s.reg sp).toNat := by omega
    rw [if_neg h', if_neg]
    simpa using (high12_eq_zero _).mpr h
  · have h' : 2 ^ 20 ≤ (s.reg sp).toNat := by omega
    rw [if_pos h', if_pos]
    intro e
    exact h ((high12_eq_zero _).mp e)

/-- A push (R14): the stack pointer goes down by 4, the check is made there, and the word is stored there. -/
theorem push_eq (priv : Mode) (v : Word) (s : State) :
    push priv v s = checked (stackError priv 4 (s.reg sp - 4#32)) (s.setReg sp (s.reg sp - 4#32))
      ((s.setReg sp (s.reg sp - 4#32)).putBytes (addrOf (s.reg sp - 4#32)) 4 v) := by
  unfold push stackError
  simp only [stackAddr_eq, State.setReg_reg_self]
  by_cases h : 2 ^ 20 ≤ (s.reg sp - 4#32).toNat
  · simp only [if_pos h]; rfl
  · simp only [if_neg h]; rfl

/-- The word at the stack top (R164, R207). -/
theorem stackTop_eq (priv : Mode) (s : State) :
    stackTop priv s = checked (stackError priv 4 (s.reg sp)) s (s.wordAt (addrOf (s.reg sp)).toNat) := by
  unfold stackTop stackError
  simp only [stackAddr_eq]
  by_cases h : 2 ^ 20 ≤ (s.reg sp).toNat
  · simp only [if_pos h]; rfl
  · simp only [if_neg h]; rfl

theorem stackError_eq_none {priv : Mode} {n : Nat} {v : Word} :
    stackError priv n v = none ↔ v.toNat < 2 ^ 20 ∧ accessError priv n (addrOf v) = none := by
  unfold stackError
  by_cases h : 2 ^ 20 ≤ v.toNat
  · have : ¬ v.toNat < 2 ^ 20 := by omega
    simp only [if_pos h, this, false_and, reduceCtorEq]
  · have : v.toNat < 2 ^ 20 := by omega
    simp only [if_neg h, this, true_and]

@[simp] theorem addrOf_toNat (v : Word) : (addrOf v).toNat = v.toNat % 2 ^ 20 := by simp [addrOf]

/-- Below `0x100000` the address is the whole register (R14). -/
theorem addrOf_toNat_of_lt {v : Word} (h : v.toNat < 2 ^ 20) : (addrOf v).toNat = v.toNat := by
  rw [addrOf_toNat]; omega

theorem privileged_eq (s : State) : privileged s = checked (privilegeError s) s s := by
  unfold privileged privilegeError
  cases s.mi <;> rfl

/-! ### Handlers -/

/-- All that entering a handler can do (R163, R247). -/
theorem enterHandler_ok {e : Word} {switch : Bool} {s t : State} (h : enterHandler e switch s = .ok t) :
    entryReservedZero e = true ∧ ∃ s1 s2 s3,
      handlerStack switch s = .ok s1 ∧ push .supervisor s1.ms s1 = .ok s2 ∧
      push .supervisor (s2.pc.setWidth 32) s2 = .ok s3 ∧ (addrOf e).toNat % 4 = 0 ∧
      t = { s3.setMI with pc := addrOf e } := by
  unfold enterHandler at h
  cases hr : entryReservedZero e with
  | false => simp [hr] at h
  | true =>
    simp only [hr, Bool.not_true, Bool.false_eq_true, if_false] at h
    obtain ⟨s1, h1, h⟩ := except_bind_ok.mp h
    obtain ⟨s2, h2, h⟩ := except_bind_ok.mp h
    obtain ⟨s3, h3, h⟩ := except_bind_ok.mp h
    rw [setPC_eq, checked_eq_ok] at h
    obtain ⟨h4, rfl⟩ := h
    exact ⟨rfl, s1, s2, s3, h1, h2, h3, targetError_eq_none.mp h4, rfl⟩

/-- All that returning from a handler can do (R165). -/
theorem returnFromHandler_ok {s t : State} (h : returnFromHandler s = .ok t) :
    ∃ r m s1, stackTop .supervisor s = .ok r ∧ setPC (addrOf r) s.popped = .ok s1 ∧
      stackTop .supervisor s1 = .ok m ∧ msReservedZero m = true ∧
      ((State.mi (State.popped { s1 with ms := m }) = true ∧ t = State.popped { s1 with ms := m }) ∨
        (State.mi (State.popped { s1 with ms := m }) = false ∧
          ∃ u, stackTop .supervisor (State.popped { s1 with ms := m }) = .ok u ∧
            t = (State.popped { s1 with ms := m }).setReg sp u)) := by
  unfold returnFromHandler at h
  obtain ⟨r, hr, h⟩ := except_bind_ok.mp h
  obtain ⟨s1, h1, h⟩ := except_bind_ok.mp h
  obtain ⟨m, hm, h⟩ := except_bind_ok.mp h
  refine ⟨r, m, s1, hr, h1, hm, ?_⟩
  cases hz : msReservedZero m with
  | false => simp [hz] at h
  | true =>
    simp only [hz, Bool.not_true, Bool.false_eq_true, if_false] at h
    refine ⟨rfl, ?_⟩
    split at h
    · rename_i hmi
      exact .inl ⟨hmi, (Except.ok.inj h).symm⟩
    · rename_i hmi
      obtain ⟨u, hu, h⟩ := except_bind_ok.mp h
      exact .inr ⟨by simpa using hmi, u, hu, (Except.ok.inj h).symm⟩

/-! ### Operands -/

/-- Reading a register-or-indirect operand (R87). -/
theorem readOperand_eq (o : Operand) (s : State) :
    readOperand s.mode o s = checked (operandError s o) s (operandValue s o) := by
  cases o <;> rfl

/-- The state with a word written to a register-or-indirect destination. -/
def putOperand (s : State) (d : Operand) (r : Word) : State :=
  match d with
  | .reg n => s.setReg n r
  | .ind n => s.putBytes (addrOf (s.reg n)) 4 r

/-- Writing a word to a destination (R89). -/
theorem writeDest_eq (d : Operand) (r : Word) (s : State) :
    writeDest s.mode (destOf d s) r s = checked (operandError s d) s (putOperand s d r) := by
  cases d <;> rfl

/-- A result written with its flags. -/
theorem writeResult_eq (d : Operand) (r : Word) (s : State) :
    writeResult d r s = checked (operandError s d) s ((putOperand s d r).setFlags r) := by
  unfold writeResult
  rw [writeDest_eq]
  cases operandError s d <;> rfl

theorem mergeByte_getLsbD (old : Word) (b : Byte) (i : Nat) :
    (mergeByte old b).getLsbD i = if i < 8 then b.getLsbD i else old.getLsbD i := by
  unfold mergeByte
  rw [BitVec.getLsbD_append, BitVec.getLsbD_extractLsb']
  by_cases h : i < 8
  · simp [h]
  · by_cases h2 : i < 32
    · have e : 8 + (i - 8) = i := by omega
      have : i - 8 < 24 := by omega
      simp [h, e, this]
    · have : ¬ i - 8 < 24 := by omega
      simp [h, this, BitVec.getLsbD_of_ge old i (by omega)]

theorem mergeShort_getLsbD (old : Word) (v : BitVec 16) (i : Nat) :
    (mergeShort old v).getLsbD i = if i < 16 then v.getLsbD i else old.getLsbD i := by
  unfold mergeShort
  rw [BitVec.getLsbD_append, BitVec.getLsbD_extractLsb']
  by_cases h : i < 16
  · simp [h]
  · by_cases h2 : i < 32
    · have e : 16 + (i - 16) = i := by omega
      have : i - 16 < 16 := by omega
      simp [h, e, this]
    · have : ¬ i - 16 < 16 := by omega
      simp [h, this, BitVec.getLsbD_of_ge old i (by omega)]

/-- The partial store to memory (R89): for at most 4 bytes its check is that of the word. -/
theorem storePart_eq {w : Nat} (priv : Mode) (a : Addr) (n : Nat) (hn : n ∣ 4) (v : BitVec w) (s : State) :
    storePart priv a n v s = checked (accessError priv 4 a) s (s.putBytes a n v) := by
  unfold storePart store accessError
  by_cases h : a.toNat % 4 = 0
  · have : a.toNat % n = 0 := Nat.mod_eq_zero_of_dvd (Nat.dvd_trans hn (Nat.dvd_of_mod_eq_zero h))
    simp [h, this]
  · simp [h]

/-- The register pair of the word multiplies is two registers (R23). -/
theorem pairOf_ne (n : RegNum) : pairOf n ≠ n := by
  revert n; decide

end Sys2Proof.Machine
end

