-- ==== Sys2Proof/Laws/PerInstr.lean ====
section
/-! SUPPORT. Facts about every instruction as syntax, one lemma per constructor. -/

namespace Sys2Proof.Laws

/-- The opcode that the opcode assignment gives the mnemonic of an instruction (R110), written from its list and
not from the encoder. -/
def opcodeOf : Instr → BitVec 5
  | .subR _ _ _ | .subI _ _ _ => 0b00000#5
  | .stbA _ _ | .stbR _ _ | .stsA _ _ | .stsR _ _ | .stwA _ _ | .stwR _ _ => 0b00001#5
  | .cpyI _ _ | .cpyU _ _ | .cpy _ _ => 0b00010#5
  | .ret | .reti | .rets => 0b00011#5
  | .addR _ _ _ | .addI _ _ _ => 0b00100#5
  | .andR _ _ _ | .andI _ _ _ => 0b00101#5
  | .ssspA _ | .ssspR _ => 0b00110#5
  | .callA _ | .callR _ | .scl _ => 0b01000#5
  | .ldbA _ _ | .ldbR _ _ | .ldsA _ _ | .ldsR _ _ | .ldwA _ _ | .ldwR _ _ => 0b01001#5
  | .orR _ _ _ | .orI _ _ _ => 0b01101#5
  | .inI _ _ | .inR _ _ | .outI _ _ | .outR _ _ => 0b01110#5
  | .imulB _ _ _ | .imulS _ _ _ | .imulW _ _ _ | .umulB _ _ _ | .umulS _ _ _ | .umulW _ _ _ => 0b01111#5
  | .shfl _ _ _ | .shfrl _ _ _ | .shfra _ _ _ => 0b10000#5
  | .halt => 0b10001#5
  | .xorR _ _ _ | .xorI _ _ _ => 0b10101#5
  | .notA _ _ | .notR _ _ => 0b10110#5
  | .jcA _ _ _ _ | .jcR _ _ _ _ | .jmpA _ | .jmpR _ => 0b10111#5
  | .negA _ _ | .negR _ _ => 0b11000#5
  | .cmpR _ _ | .cmpI _ _ => 0b11100#5
  | .pushI _ | .pushU _ | .pushbA _ | .pushbR _ | .pushsA _ | .pushsR _ | .pushwA _ | .pushwR _ | .popbA _
  | .popbR _ | .popsA _ | .popsR _ | .popwA _ | .popwR _ => 0b11111#5

/-- Bits 31..27 of the word of an instruction are the opcode of its mnemonic (R81, R110). -/
def EncodesOpcode.Statement (i : Instr) : Prop := field (encode i) 27 5 = opcodeOf i

theorem EncodesOpcode.addR (d o1 o2 : Operand) : EncodesOpcode.Statement (.addR d o1 o2) :=
  (fmtAluR_fields _ _ _ _).1

theorem EncodesOpcode.addI (d o1 : Operand) (imm : BitVec 16) : EncodesOpcode.Statement (.addI d o1 imm) :=
  (fmtAluI_fields _ _ _ _).1

theorem EncodesOpcode.subR (d o1 o2 : Operand) : EncodesOpcode.Statement (.subR d o1 o2) :=
  (fmtAluR_fields _ _ _ _).1

theorem EncodesOpcode.subI (d o1 : Operand) (imm : BitVec 16) : EncodesOpcode.Statement (.subI d o1 imm) :=
  (fmtAluI_fields _ _ _ _).1

theorem EncodesOpcode.andR (d o1 o2 : Operand) : EncodesOpcode.Statement (.andR d o1 o2) :=
  (fmtAluR_fields _ _ _ _).1

theorem EncodesOpcode.andI (d o1 : Operand) (imm : BitVec 16) : EncodesOpcode.Statement (.andI d o1 imm) :=
  (fmtAluI_fields _ _ _ _).1

theorem EncodesOpcode.orR (d o1 o2 : Operand) : EncodesOpcode.Statement (.orR d o1 o2) :=
  (fmtAluR_fields _ _ _ _).1

theorem EncodesOpcode.orI (d o1 : Operand) (imm : BitVec 16) : EncodesOpcode.Statement (.orI d o1 imm) :=
  (fmtAluI_fields _ _ _ _).1

theorem EncodesOpcode.xorR (d o1 o2 : Operand) : EncodesOpcode.Statement (.xorR d o1 o2) :=
  (fmtAluR_fields _ _ _ _).1

theorem EncodesOpcode.xorI (d o1 : Operand) (imm : BitVec 16) : EncodesOpcode.Statement (.xorI d o1 imm) :=
  (fmtAluI_fields _ _ _ _).1

theorem EncodesOpcode.cmpR (o1 o2 : Operand) : EncodesOpcode.Statement (.cmpR o1 o2) :=
  (fmtCmpR_fields _ _).1

theorem EncodesOpcode.cmpI (o1 : Operand) (imm : BitVec 16) : EncodesOpcode.Statement (.cmpI o1 imm) :=
  (fmtCmpI_fields _ _).1

theorem EncodesOpcode.imulB (d o1 o2 : Operand) : EncodesOpcode.Statement (.imulB d o1 o2) :=
  (fmtMul_fields _ _ _ _ _).1

theorem EncodesOpcode.imulS (d o1 o2 : Operand) : EncodesOpcode.Statement (.imulS d o1 o2) :=
  (fmtMul_fields _ _ _ _ _).1

theorem EncodesOpcode.imulW (d o1 o2 : Operand) : EncodesOpcode.Statement (.imulW d o1 o2) :=
  (fmtMul_fields _ _ _ _ _).1

theorem EncodesOpcode.umulB (d o1 o2 : Operand) : EncodesOpcode.Statement (.umulB d o1 o2) :=
  (fmtMul_fields _ _ _ _ _).1

theorem EncodesOpcode.umulS (d o1 o2 : Operand) : EncodesOpcode.Statement (.umulS d o1 o2) :=
  (fmtMul_fields _ _ _ _ _).1

theorem EncodesOpcode.umulW (d o1 o2 : Operand) : EncodesOpcode.Statement (.umulW d o1 o2) :=
  (fmtMul_fields _ _ _ _ _).1

theorem EncodesOpcode.negA (d : Operand) (addr : Addr) : EncodesOpcode.Statement (.negA d addr) :=
  (fmtUnA_fields _ _ _).1

theorem EncodesOpcode.negR (d o : Operand) : EncodesOpcode.Statement (.negR d o) :=
  (fmtUnR_fields _ _ _).1

theorem EncodesOpcode.notA (d : Operand) (addr : Addr) : EncodesOpcode.Statement (.notA d addr) :=
  (fmtUnA_fields _ _ _).1

theorem EncodesOpcode.notR (d o : Operand) : EncodesOpcode.Statement (.notR d o) :=
  (fmtUnR_fields _ _ _).1

theorem EncodesOpcode.shfl (d o : Operand) (imm : BitVec 5) : EncodesOpcode.Statement (.shfl d o imm) :=
  (fmtShf_fields _ _ _ _).1

theorem EncodesOpcode.shfrl (d o : Operand) (imm : BitVec 5) : EncodesOpcode.Statement (.shfrl d o imm) :=
  (fmtShf_fields _ _ _ _).1

theorem EncodesOpcode.shfra (d o : Operand) (imm : BitVec 5) : EncodesOpcode.Statement (.shfra d o imm) :=
  (fmtShf_fields _ _ _ _).1

theorem EncodesOpcode.jcA (n p z : Bool) (addr : Addr) : EncodesOpcode.Statement (.jcA n p z addr) :=
  (fmtJumpA_fields _ _ _ _).1

theorem EncodesOpcode.jcR (n p z : Bool) (sr : RegNum) : EncodesOpcode.Statement (.jcR n p z sr) :=
  (fmtJumpR_fields _ _ _ _).1

theorem EncodesOpcode.jmpA (addr : Addr) : EncodesOpcode.Statement (.jmpA addr) :=
  (fmtJumpA_fields _ _ _ _).1

theorem EncodesOpcode.jmpR (sr : RegNum) : EncodesOpcode.Statement (.jmpR sr) :=
  (fmtJumpR_fields _ _ _ _).1

theorem EncodesOpcode.callA (addr : Addr) : EncodesOpcode.Statement (.callA addr) :=
  (fmtCallA_fields _).1

theorem EncodesOpcode.callR (sr : RegNum) : EncodesOpcode.Statement (.callR sr) :=
  (fmtCallR_fields _).1

theorem EncodesOpcode.scl (imm : BitVec 5) : EncodesOpcode.Statement (.scl imm) :=
  (fmtScl_fields _).1

theorem EncodesOpcode.ret : EncodesOpcode.Statement .ret :=
  (fmtRet_fields _).1

theorem EncodesOpcode.reti : EncodesOpcode.Statement .reti :=
  (fmtRet_fields _).1

theorem EncodesOpcode.rets : EncodesOpcode.Statement .rets :=
  (fmtRet_fields _).1

theorem EncodesOpcode.ldbA (dr : RegNum) (addr : Addr) : EncodesOpcode.Statement (.ldbA dr addr) :=
  (fmtLdA_fields _ _ _).1

theorem EncodesOpcode.ldbR (dr sr : RegNum) : EncodesOpcode.Statement (.ldbR dr sr) :=
  (fmtLdR_fields _ _ _).1

theorem EncodesOpcode.ldsA (dr : RegNum) (addr : Addr) : EncodesOpcode.Statement (.ldsA dr addr) :=
  (fmtLdA_fields _ _ _).1

theorem EncodesOpcode.ldsR (dr sr : RegNum) : EncodesOpcode.Statement (.ldsR dr sr) :=
  (fmtLdR_fields _ _ _).1

theorem EncodesOpcode.ldwA (dr : RegNum) (addr : Addr) : EncodesOpcode.Statement (.ldwA dr addr) :=
  (fmtLdA_fields _ _ _).1

theorem EncodesOpcode.ldwR (dr sr : RegNum) : EncodesOpcode.Statement (.ldwR dr sr) :=
  (fmtLdR_fields _ _ _).1

theorem EncodesOpcode.stbA (addr : Addr) (sr : RegNum) : EncodesOpcode.Statement (.stbA addr sr) :=
  (fmtStA_fields _ _ _).1

theorem EncodesOpcode.stbR (dr sr : RegNum) : EncodesOpcode.Statement (.stbR dr sr) :=
  (fmtStR_fields _ _ _).1

theorem EncodesOpcode.stsA (addr : Addr) (sr : RegNum) : EncodesOpcode.Statement (.stsA addr sr) :=
  (fmtStA_fields _ _ _).1

theorem EncodesOpcode.stsR (dr sr : RegNum) : EncodesOpcode.Statement (.stsR dr sr) :=
  (fmtStR_fields _ _ _).1

theorem EncodesOpcode.stwA (addr : Addr) (sr : RegNum) : EncodesOpcode.Statement (.stwA addr sr) :=
  (fmtStA_fields _ _ _).1

theorem EncodesOpcode.stwR (dr sr : RegNum) : EncodesOpcode.Statement (.stwR dr sr) :=
  (fmtStR_fields _ _ _).1

theorem EncodesOpcode.cpyI (dr : RegNum) (imm : BitVec 16) : EncodesOpcode.Statement (.cpyI dr imm) :=
  (fmtCpyI_fields _ _ _).1

theorem EncodesOpcode.cpyU (dr : RegNum) (imm : BitVec 16) : EncodesOpcode.Statement (.cpyU dr imm) :=
  (fmtCpyI_fields _ _ _).1

theorem EncodesOpcode.cpy (dr sr : RegNum) : EncodesOpcode.Statement (.cpy dr sr) :=
  (fmtCpy_fields _ _).1

theorem EncodesOpcode.pushI (imm : BitVec 16) : EncodesOpcode.Statement (.pushI imm) :=
  (fmtPushI_fields _ _).1

theorem EncodesOpcode.pushU (imm : BitVec 16) : EncodesOpcode.Statement (.pushU imm) :=
  (fmtPushI_fields _ _).1

theorem EncodesOpcode.pushbA (addr : Addr) : EncodesOpcode.Statement (.pushbA addr) :=
  (fmtStackA_fields _ _ _).1

theorem EncodesOpcode.pushbR (o : Operand) : EncodesOpcode.Statement (.pushbR o) :=
  (fmtStackR_fields _ _ _).1

theorem EncodesOpcode.pushsA (addr : Addr) : EncodesOpcode.Statement (.pushsA addr) :=
  (fmtStackA_fields _ _ _).1

theorem EncodesOpcode.pushsR (o : Operand) : EncodesOpcode.Statement (.pushsR o) :=
  (fmtStackR_fields _ _ _).1

theorem EncodesOpcode.pushwA (addr : Addr) : EncodesOpcode.Statement (.pushwA addr) :=
  (fmtStackA_fields _ _ _).1

theorem EncodesOpcode.pushwR (o : Operand) : EncodesOpcode.Statement (.pushwR o) :=
  (fmtStackR_fields _ _ _).1

theorem EncodesOpcode.popbA (addr : Addr) : EncodesOpcode.Statement (.popbA addr) :=
  (fmtStackA_fields _ _ _).1

theorem EncodesOpcode.popbR (d : Operand) : EncodesOpcode.Statement (.popbR d) :=
  (fmtStackR_fields _ _ _).1

theorem EncodesOpcode.popsA (addr : Addr) : EncodesOpcode.Statement (.popsA addr) :=
  (fmtStackA_fields _ _ _).1

theorem EncodesOpcode.popsR (d : Operand) : EncodesOpcode.Statement (.popsR d) :=
  (fmtStackR_fields _ _ _).1

theorem EncodesOpcode.popwA (addr : Addr) : EncodesOpcode.Statement (.popwA addr) :=
  (fmtStackA_fields _ _ _).1

theorem EncodesOpcode.popwR (d : Operand) : EncodesOpcode.Statement (.popwR d) :=
  (fmtStackR_fields _ _ _).1

theorem EncodesOpcode.inI (d : Operand) (imm : BitVec 5) : EncodesOpcode.Statement (.inI d imm) :=
  (fmtIn_fields _ _ _).1

theorem EncodesOpcode.inR (d o : Operand) : EncodesOpcode.Statement (.inR d o) :=
  (fmtIn_fields _ _ _).1

theorem EncodesOpcode.outI (imm : BitVec 5) (o : Operand) : EncodesOpcode.Statement (.outI imm o) :=
  (fmtOut_fields _ _ _).1

theorem EncodesOpcode.outR (d o : Operand) : EncodesOpcode.Statement (.outR d o) :=
  (fmtOut_fields _ _ _).1

theorem EncodesOpcode.ssspA (addr : Addr) : EncodesOpcode.Statement (.ssspA addr) :=
  (fmtSsspA_fields _).1

theorem EncodesOpcode.ssspR (o : Operand) : EncodesOpcode.Statement (.ssspR o) :=
  (fmtSsspR_fields _).1

theorem EncodesOpcode.halt : EncodesOpcode.Statement .halt :=
  fmtHalt_fields.1

end Sys2Proof.Laws
end

