-- ==== Sys2Proof/Laws/Shapes.lean ====
section
/-! SUPPORT. One lemma for each shape of instruction: the checks it makes, in order, and the state it answers where
none of them fails. -/

namespace Sys2Proof.Machine

/-! ### A list of checks -/

/-- A check before a list of checks is the first of the longer list. -/
theorem checked_bind {α : Type} {β : Type} (e : Option ErrorKind) (es : List (Option ErrorKind)) (s : State) (x : α)
    (y : β) (f : α → Except Fault β) (h : f x = checked (firstError es) s y) :
    (checked e s x >>= f) = checked (firstError (e :: es)) s y := by
  cases e with
  | none => simpa using h
  | some k => rfl

theorem checked_map {α β : Type} (e : Option ErrorKind) (s : State) (x : α) (f : α → β) :
    (checked e s x).map f = checked e s (f x) := by
  cases e <;> rfl

@[simp] theorem firstError_singleton (e : Option ErrorKind) : firstError [e] = e := by cases e <;> rfl

theorem firstError_eq_none {es : List (Option ErrorKind)} : firstError es = none ↔ ∀ e ∈ es, e = none := by
  induction es with
  | nil => simp
  | cons e es ih => cases e <;> simp [ih]

/-- An instruction that is a list of checks completes unless one of them fails. -/
theorem completesUnless_of_checked {i : Instr} {s t : State} {es : List (Option ErrorKind)} {P : State → Prop}
    (h : exec i s = outcomeOf (checked (firstError es) s t)) (ht : firstError es = none → P t) :
    CompletesUnless i s es P := by
  constructor
  · intro hn; exact ⟨t, by simp [h, hn], ht hn⟩
  · intro k hk; simp [h, hk]

/-! ### What a write leaves -/

theorem memKept_refl (s : State) : MemKept s s := fun _ => rfl

theorem regsKept_refl (s : State) (but : List RegNum) : RegsKept s s but := fun _ _ => rfl

theorem systemKept_refl (s : State) : SystemKept s s := ⟨rfl, rfl, rfl, rfl, rfl, rfl, rfl, rfl, rfl⟩

theorem regsKept_setReg (s : State) (n : RegNum) (v : Word) : RegsKept s (s.setReg n v) [n] := by
  intro q hq
  exact State.setReg_reg_ne s v (by simpa using hq)

/-- The state with a word written to a destination is as `WroteWord` says (R89). -/
theorem wroteWord_putOperand (s : State) (d : Operand) (r : Word) : WroteWord s (putOperand s d r) d r := by
  cases d with
  | reg n => exact ⟨State.setReg_reg_self s n r, regsKept_setReg s n r, fun _ => rfl⟩
  | ind n =>
    exact ⟨State.memHolds_putBytes s _ 4 r, fun _ _ => rfl, State.memKeptOutside_putBytes s _ 4 r⟩

theorem wroteWord_congr {s t u : State} {d : Operand} {r : Word} (h : WroteWord s t d r)
    (hr : ∀ q, u.reg q = t.reg q) (hm : ∀ x, u.byteAt x = t.byteAt x) : WroteWord s u d r := by
  cases d with
  | reg n =>
    exact ⟨by rw [hr]; exact h.1, fun q hq => by rw [hr]; exact h.2.1 q hq, fun x => by rw [hm]; exact h.2.2 x⟩
  | ind n =>
    exact ⟨fun k hk => by rw [hm]; exact h.1 k hk, fun q hq => by rw [hr]; exact h.2.1 q hq,
      fun x hx => by rw [hm]; exact h.2.2 x hx⟩

@[simp] theorem putOperand_ms (s : State) (d : Operand) (r : Word) : (putOperand s d r).ms = s.ms := by
  cases d <;> rfl

@[simp] theorem putOperand_pc (s : State) (d : Operand) (r : Word) : (putOperand s d r).pc = s.pc := by
  cases d <;> rfl

theorem systemKept_putOperand (s : State) (d : Operand) (r : Word) : SystemKept s (putOperand s d r) := by
  cases d <;> exact ⟨rfl, rfl, rfl, rfl, rfl, rfl, rfl, rfl, rfl⟩

theorem flagsFrom_congr {w : Nat} {s u : State} {v : BitVec w} (h : u.ms = s.ms) : FlagsFrom s (u.setFlags v) v := by
  have := State.setFlags_flagsFrom u v
  unfold FlagsFrom at *
  rwa [h] at this

/-- A result written with its flags is as `ResultIn` says. -/
theorem resultIn_putOperand (s : State) (d : Operand) (r : Word) :
    ResultIn s ((putOperand s d r).setFlags r) d r :=
  ⟨wroteWord_congr (wroteWord_putOperand s d r) (fun _ => rfl) (fun _ => rfl), flagsFrom_congr (putOperand_ms s d r),
    putOperand_pc s d r, systemKept_putOperand s d r⟩

/-! ### Partial and double destinations -/

/-- The state with the low half of a destination written (R89). -/
def putShort (s : State) (d : Operand) (h : BitVec 16) : State :=
  match d with
  | .reg n => s.setReg n (mergeShort (s.reg n) h)
  | .ind n => s.putBytes (addrOf (s.reg n)) 2 h

/-- The state with the low byte of a destination written (R89). -/
def putByte (s : State) (d : Operand) (b : Byte) : State :=
  match d with
  | .reg n => s.setReg n (mergeByte (s.reg n) b)
  | .ind n => s.putBytes (addrOf (s.reg n)) 1 b

/-- The state with a doubleword written to a destination (R125, R128). -/
def putDouble (s : State) (d : Operand) (v : BitVec 64) : State :=
  match d with
  | .reg n => (s.setReg n (v.extractLsb' 0 32)).setReg (nextReg n) (v.extractLsb' 32 32)
  | .ind n => s.putBytes (addrOf (s.reg n)) 8 v

theorem writeDestShort_eq (d : Operand) (h : BitVec 16) (s : State) :
    writeDestShort s.mode (destOf d s) h s = checked (operandError s d) s (putShort s d h) := by
  cases d with
  | reg n => rfl
  | ind n => exact storePart_eq _ _ 2 (by decide) _ _

theorem writeDestByte_eq (d : Operand) (b : Byte) (s : State) :
    writeDestByte s.mode (destOf d s) b s = checked (operandError s d) s (putByte s d b) := by
  cases d with
  | reg n => rfl
  | ind n => exact storePart_eq _ _ 1 (by decide) _ _

theorem writeDestDouble_eq (d : Operand) (v : BitVec 64) (s : State) :
    writeDestDouble s.mode (destOf d s) v s = checked (doubleError s d) s (putDouble s d v) := by
  cases d <;> rfl

theorem wroteLow_putShort (s : State) (d : Operand) (h : BitVec 16) : WroteLow s (putShort s d h) d 2 h := by
  cases d with
  | reg n =>
    refine ⟨fun i hi => ?_, fun i hi => ?_, regsKept_setReg s n _, fun _ => rfl⟩
    · simp only [putShort, State.setReg_reg_self, mergeShort_getLsbD]; rw [if_pos (by omega)]
    · simp only [putShort, State.setReg_reg_self, mergeShort_getLsbD]; rw [if_neg (by omega)]
  | ind n => exact ⟨State.memHolds_putBytes s _ 2 h, fun _ _ => rfl, State.memKeptOutside_putBytes s _ 2 h⟩

theorem wroteLow_putByte (s : State) (d : Operand) (b : Byte) : WroteLow s (putByte s d b) d 1 b := by
  cases d with
  | reg n =>
    refine ⟨fun i hi => ?_, fun i hi => ?_, regsKept_setReg s n _, fun _ => rfl⟩
    · simp only [putByte, State.setReg_reg_self, mergeByte_getLsbD]; rw [if_pos (by omega)]
    · simp only [putByte, State.setReg_reg_self, mergeByte_getLsbD]; rw [if_neg (by omega)]
  | ind n => exact ⟨State.memHolds_putBytes s _ 1 b, fun _ _ => rfl, State.memKeptOutside_putBytes s _ 1 b⟩

theorem wroteLow_congr {w : Nat} {s t u : State} {d : Operand} {k : Nat} {v : BitVec w} (h : WroteLow s t d k v)
    (hr : ∀ q, u.reg q = t.reg q) (hm : ∀ x, u.byteAt x = t.byteAt x) : WroteLow s u d k v := by
  cases d with
  | reg n =>
    exact ⟨fun i hi => by rw [hr]; exact h.1 i hi, fun i hi => by rw [hr]; exact h.2.1 i hi,
      fun q hq => by rw [hr]; exact h.2.2.1 q hq, fun x => by rw [hm]; exact h.2.2.2 x⟩
  | ind n =>
    exact ⟨fun j hj => by rw [hm]; exact h.1 j hj, fun q hq => by rw [hr]; exact h.2.1 q hq,
      fun x hx => by rw [hm]; exact h.2.2 x hx⟩

theorem nextReg_eq_pairOf (n : RegNum) : nextReg n = pairOf n := rfl

theorem wroteDouble_putDouble (s : State) (d : Operand) (v : BitVec 64) : WroteDouble s (putDouble s d v) d v := by
  cases d with
  | reg n =>
    refine ⟨?_, ?_, ?_, fun _ => rfl⟩
    · simp only [putDouble, nextReg_eq_pairOf]
      rw [State.setReg_reg_ne _ _ (fun e => pairOf_ne n e.symm), State.setReg_reg_self]
      simp
    · have := v.isLt
      simp only [putDouble, nextReg_eq_pairOf, State.setReg_reg_self, BitVec.extractLsb'_toNat,
        Nat.shiftRight_eq_div_pow]
      omega
    · intro q hq
      simp only [List.mem_cons, List.not_mem_nil, or_false, not_or] at hq
      simp only [putDouble, nextReg_eq_pairOf]
      rw [State.setReg_reg_ne _ _ hq.2, State.setReg_reg_ne _ _ hq.1]
  | ind n => exact ⟨State.memHolds_putBytes s _ 8 v, fun _ _ => rfl, State.memKeptOutside_putBytes s _ 8 v⟩

theorem wroteDouble_congr {s t u : State} {d : Operand} {v : BitVec 64} (h : WroteDouble s t d v)
    (hr : ∀ q, u.reg q = t.reg q) (hm : ∀ x, u.byteAt x = t.byteAt x) : WroteDouble s u d v := by
  cases d with
  | reg n =>
    exact ⟨by rw [hr]; exact h.1, by rw [hr]; exact h.2.1, fun q hq => by rw [hr]; exact h.2.2.1 q hq,
      fun x => by rw [hm]; exact h.2.2.2 x⟩
  | ind n =>
    exact ⟨fun j hj => by rw [hm]; exact h.1 j hj, fun q hq => by rw [hr]; exact h.2.1 q hq,
      fun x hx => by rw [hm]; exact h.2.2 x hx⟩

/-! ### The shapes of the operand instructions -/

theorem binaryOp_eq (f : Word → Word → Word) (d o1 o2 : Operand) (s : State) :
    binaryOp f d o1 o2 s = checked (firstError [operandError s o1, operandError s o2, operandError s d]) s
      ((putOperand s d (f (operandValue s o1) (operandValue s o2))).setFlags
        (f (operandValue s o1) (operandValue s o2))) := by
  unfold binaryOp
  simp only [readOperand_eq]
  refine checked_bind _ _ _ _ _ _ (checked_bind _ _ _ _ _ _ ?_)
  rw [writeResult_eq, firstError_singleton]

theorem binaryImm_eq (f : Word → Word → Word) (d o1 : Operand) (imm : BitVec 16) (s : State) :
    binaryImm f d o1 imm s = checked (firstError [operandError s o1, operandError s d]) s
      ((putOperand s d (f (operandValue s o1) (signImm imm))).setFlags (f (operandValue s o1) (signImm imm))) := by
  unfold binaryImm
  simp only [readOperand_eq]
  refine checked_bind _ _ _ _ _ _ ?_
  rw [writeResult_eq, firstError_singleton]

theorem unaryOp_eq (f : Word → Word) (d o : Operand) (s : State) :
    unaryOp f d o s = checked (firstError [operandError s o, operandError s d]) s
      ((putOperand s d (f (operandValue s o))).setFlags (f (operandValue s o))) := by
  unfold unaryOp
  simp only [readOperand_eq]
  refine checked_bind _ _ _ _ _ _ ?_
  rw [writeResult_eq, firstError_singleton]

theorem unaryAbs_eq (f : Word → Word) (d : Operand) (a : Addr) (s : State) :
    unaryAbs f d a s = checked (firstError [accessError s.mode 4 a, operandError s d]) s
      ((putOperand s d (f (s.wordAt a.toNat))).setFlags (f (s.wordAt a.toNat))) := by
  unfold unaryAbs loadWord
  refine checked_bind _ _ _ _ _ _ ?_
  rw [writeResult_eq, firstError_singleton]; rfl

theorem binaryShort_eq (f : Word → Word → BitVec 16) (d o1 o2 : Operand) (s : State) :
    binaryShort f d o1 o2 s = checked (firstError [operandError s o1, operandError s o2, operandError s d]) s
      ((putShort s d (f (operandValue s o1) (operandValue s o2))).setFlags
        (f (operandValue s o1) (operandValue s o2))) := by
  unfold binaryShort
  simp only [readOperand_eq]
  refine checked_bind _ _ _ _ _ _ (checked_bind _ _ _ _ _ _ ?_)
  rw [writeDestShort_eq]
  exact checked_bind _ [] _ _ _ _ rfl

theorem binaryDouble_eq (f : Word → Word → BitVec 64) (d o1 o2 : Operand) (s : State) :
    binaryDouble f d o1 o2 s = checked (firstError [operandError s o1, operandError s o2, doubleError s d]) s
      ((putDouble s d (f (operandValue s o1) (operandValue s o2))).setFlags
        (f (operandValue s o1) (operandValue s o2))) := by
  unfold binaryDouble
  simp only [readOperand_eq]
  refine checked_bind _ _ _ _ _ _ (checked_bind _ _ _ _ _ _ ?_)
  rw [writeDestDouble_eq]
  exact checked_bind _ [] _ _ _ _ rfl

/-- CMP of an operand with a value whose reading is one check. -/
theorem compareWith_eq (o1 : Operand) (e : Option ErrorKind) (b : Word) (s : State) :
    compareWith o1 (checked e s b) s = checked (firstError [operandError s o1, e]) s
      (s.setFlags (operandValue s o1 - b)) := by
  unfold compareWith
  simp only [readOperand_eq]
  exact checked_bind _ _ _ _ _ _ (checked_bind _ [] _ _ _ _ rfl)

/-! ### Loads, the stack, the ports, control -/

theorem loadByteInto_eq (dr : RegNum) (a : Addr) (s : State) :
    loadByteInto dr a s = checked (firstError [accessError s.mode 1 a]) s
      (loadInto dr ((s.byteAt a.toNat).signExtend 32) s) := by
  unfold loadByteInto loadByte
  exact checked_bind _ [] _ _ _ _ rfl

theorem loadShortInto_eq (dr : RegNum) (a : Addr) (s : State) :
    loadShortInto dr a s = checked (firstError [accessError s.mode 2 a]) s
      (loadInto dr ((s.byteAt (a.toNat + 1) ++ s.byteAt a.toNat).signExtend 32) s) := by
  unfold loadShortInto loadShort
  exact checked_bind _ [] _ _ _ _ rfl

theorem loadWordInto_eq (dr : RegNum) (a : Addr) (s : State) :
    loadWordInto dr a s = checked (firstError [accessError s.mode 4 a]) s
      (loadInto dr (s.wordAt a.toNat) s) := by
  unfold loadWordInto loadWord
  exact checked_bind _ [] _ _ _ _ rfl

theorem resultIn_loadInto (s : State) (dr : RegNum) (v : Word) : ResultIn s (loadInto dr v s) (.reg dr) v :=
  resultIn_putOperand s (.reg dr) v

/-- A push in the mode of the state is its one check, made with the stack pointer lowered (R14). -/
theorem push_mode_eq (v : Word) (s : State) :
    push s.mode v s = checked (pushError s) (s.setReg sp (s.reg sp - 4#32))
      ((s.setReg sp (s.reg sp - 4#32)).putBytes (addrOf (s.reg sp - 4#32)) 4 v) :=
  push_eq s.mode v s

/-- The state a push answers is as `Pushed` says. -/
theorem pushed_put (s : State) (v : Word) :
    Pushed s ((s.setReg sp (s.reg sp - 4#32)).putBytes (addrOf (s.reg sp - 4#32)) 4 v) v := by
  refine ⟨State.setReg_reg_self _ _ _, State.memHolds_putBytes _ _ 4 v, ?_, ?_, rfl,
    ⟨rfl, rfl, rfl, rfl, rfl, rfl, rfl, rfl, rfl⟩⟩
  · exact regsKept_setReg s sp _
  · intro x hx
    exact State.memKeptOutside_putBytes (s.setReg sp (s.reg sp - 4#32)) _ 4 v x hx

theorem stackAddr_checked (s : State) (n : Nat) (priv : Mode) {α : Type} (x : α) :
    (stackAddr s >>= fun a => checked (accessError priv n a) s x) = checked (stackError priv n (s.reg sp)) s x := by
  rw [stackAddr_eq]
  unfold stackError
  by_cases h : 2 ^ 20 ≤ (s.reg sp).toNat
  · simp only [if_pos h]; rfl
  · simp only [if_neg h]; rfl

/-- POPB (R205): the checks of the stack top, then those of the write, which is a check of its own. -/
theorem popByte_eq (write : Byte → State → Except Fault State) (e : Option ErrorKind) (t : State) (s : State)
    (h : write (s.byteAt (addrOf (s.reg sp)).toNat) s = checked e s t) :
    popByte write s = checked (firstError [stackError s.mode 1 (s.reg sp), e]) s t.popped := by
  have hb : (stackAddr s >>= fun a => loadByte s.mode a s) =
      checked (stackError s.mode 1 (s.reg sp)) s (s.byteAt (addrOf (s.reg sp)).toNat) := by
    rw [stackAddr_eq]
    unfold stackError loadByte
    by_cases h : 2 ^ 20 ≤ (s.reg sp).toNat
    · simp only [if_pos h]; rfl
    · simp only [if_neg h]; rfl
  have : popByte write s = ((stackAddr s >>= fun a => loadByte s.mode a s) >>= fun b => write b s >>= fun s1 =>
      Except.ok s1.popped) := by
    unfold popByte
    rw [bind_assoc]
  rw [this, hb]
  refine checked_bind _ _ _ _ _ _ ?_
  rw [h]
  exact checked_bind _ [] _ _ _ _ rfl

/-- POPS (R206), as POPB. -/
theorem popShort_eq (write : BitVec 16 → State → Except Fault State) (e : Option ErrorKind) (t : State) (s : State)
    (h : write (s.byteAt ((addrOf (s.reg sp)).toNat + 1) ++ s.byteAt (addrOf (s.reg sp)).toNat) s = checked e s t) :
    popShort write s = checked (firstError [stackError s.mode 2 (s.reg sp), e]) s t.popped := by
  have hb : (stackAddr s >>= fun a => loadShort s.mode a s) =
      checked (stackError s.mode 2 (s.reg sp)) s
        (s.byteAt ((addrOf (s.reg sp)).toNat + 1) ++ s.byteAt (addrOf (s.reg sp)).toNat) := by
    rw [stackAddr_eq]
    unfold stackError loadShort
    by_cases h : 2 ^ 20 ≤ (s.reg sp).toNat
    · simp only [if_pos h]; rfl
    · simp only [if_neg h]; rfl
  have : popShort write s = ((stackAddr s >>= fun a => loadShort s.mode a s) >>= fun b => write b s >>= fun s1 =>
      Except.ok s1.popped) := by
    unfold popShort
    rw [bind_assoc]
  rw [this, hb]
  refine checked_bind _ _ _ _ _ _ ?_
  rw [h]
  exact checked_bind _ [] _ _ _ _ rfl

/-- POPW (R207), as POPB. -/
theorem popWord_eq (write : Word → State → Except Fault State) (e : Option ErrorKind) (t : State) (s : State)
    (h : write (s.wordAt (addrOf (s.reg sp)).toNat) s = checked e s t) :
    popWord write s = checked (firstError [stackError s.mode 4 (s.reg sp), e]) s t.popped := by
  unfold popWord
  rw [stackTop_eq]
  refine checked_bind _ _ _ _ _ _ ?_
  rw [h]
  exact checked_bind _ [] _ _ _ _ rfl

/-- The stack pointer going up after a write to `u` is as `PoppedAfter` says. -/
theorem poppedAfter_popped {s u : State} (hms : u.ms = s.ms) (hpc : u.pc = s.pc) (hk : SystemKept s u) :
    PoppedAfter s u u.popped :=
  ⟨State.popped_reg_sp u, regsKept_setReg u sp _, fun _ => rfl, hms, hpc, hk⟩

/-- All that a system call can do (R163): the enabled entry of the SCT, then the handler. -/
theorem systemCall_ok {n : BitVec 5} {s t : State} (h : systemCall n s = .ok t) :
    ∃ e, loadWord .supervisor (sctEntry n) s = .ok e ∧ entryEnabled e = true ∧ enterHandler e true s = .ok t := by
  unfold systemCall at h
  obtain ⟨e, he, h⟩ := except_bind_ok.mp h
  cases hen : entryEnabled e with
  | false => simp [hen] at h
  | true => exact ⟨e, he, hen, by simpa [hen] using h⟩

/-- All that CALL can do (R162): a push, then the target. -/
theorem callTo_ok {a : Addr} {s t : State} (h : callTo a s = .ok t) :
    ∃ s1, push s.mode (s.pc.setWidth 32) s = .ok s1 ∧ a.toNat % 4 = 0 ∧ t = { s1 with pc := a } := by
  unfold callTo at h
  obtain ⟨s1, h1, h⟩ := except_bind_ok.mp h
  rw [setPC_eq, checked_eq_ok] at h
  exact ⟨s1, h1, targetError_eq_none.mp h.1, h.2.symm⟩

/-- RET (R164): the word at the stack top, the stack pointer up, then the target. -/
theorem returnFromCall_ok {s t : State} (h : returnFromCall s = .ok t) :
    ∃ w, stackTop s.mode s = .ok w ∧ (addrOf w).toNat % 4 = 0 ∧ t = { s.popped with pc := addrOf w } := by
  unfold returnFromCall at h
  obtain ⟨w, hw, h⟩ := except_bind_ok.mp h
  rw [setPC_eq, checked_eq_ok] at h
  exact ⟨w, hw, targetError_eq_none.mp h.1, h.2.symm⟩

/-- IN (R220): the privilege test, the port read, the write of the destination. -/
theorem inputFrom_eq (d : Operand) (p : Port) (s : State) :
    inputFrom d p s = if s.mi then
        checked (operandError s d) s.afterPortRead
          ((putOperand s.afterPortRead d (portValue p s)).setFlags (portValue p s))
      else .error (raise .privilegeViolation s) := by
  unfold inputFrom
  rw [privileged_eq]
  unfold privilegeError
  cases h : s.mi with
  | false => rfl
  | true =>
    simp only [if_true, checked_none, except_ok_bind, writeResult_eq]
    rfl

/-- All that serving a vector can do (R247): nothing where its entry is disabled, else the handler is entered. -/
theorem service_ok {v : IntVec} {s t : State} (h : service v s = .ok t) :
    ∃ e, loadWord .supervisor (ivtEntry v) s = .ok e ∧
      ((entryEnabled e = false ∧ t = s) ∨ (entryEnabled e = true ∧ enterHandler e (!s.mi) s = .ok t)) := by
  unfold service at h
  obtain ⟨e, he, h⟩ := except_bind_ok.mp h
  refine ⟨e, he, ?_⟩
  cases hen : entryEnabled e with
  | false => exact .inl ⟨rfl, by simpa [hen] using h.symm⟩
  | true => exact .inr ⟨rfl, by simpa [hen] using h⟩

/-- Every vector `IRQ_ORDER` chooses is pending (R248). -/
theorem chosenVector_mem (t : Nat) {p : List IntVec} (h : p ≠ []) : chosenVector t p ∈ p := by
  unfold chosenVector
  have hl : 0 < p.length := List.length_pos_iff.mpr h
  have hm : Config.irqPick t p % p.length < p.length := Nat.mod_lt _ hl
  rw [List.getD_eq_getElem _ _ hm]
  exact List.getElem_mem hm

/-- Putting a vector into the pending set adds it and no other (R245). -/
theorem mem_insertVector {u v : IntVec} {p : List IntVec} : u ∈ insertVector v p ↔ u = v ∨ u ∈ p := by
  induction p with
  | nil => simp [insertVector]
  | cons w p ih =>
    unfold insertVector
    split
    · simp
    · split
      · rename_i h; subst h; simp
      · simp [ih]; tauto

/-- The pending set stays ascending (log 11). -/
theorem pairwise_insertVector (v : IntVec) {p : List IntVec} (h : p.Pairwise (· < ·)) :
    (insertVector v p).Pairwise (· < ·) := by
  induction p with
  | nil => simp [insertVector]
  | cons w p ih =>
    rw [List.pairwise_cons] at h
    unfold insertVector
    split
    · rename_i hvw
      refine List.pairwise_cons.mpr ⟨fun x hx => ?_, List.pairwise_cons.mpr h⟩
      rcases List.mem_cons.mp hx with rfl | hx
      · exact hvw
      · exact lt_trans hvw (h.1 x hx)
    · split
      · exact List.pairwise_cons.mpr h
      · rename_i h1 h2
        refine List.pairwise_cons.mpr ⟨fun x hx => ?_, ih h.2⟩
        rcases mem_insertVector.mp hx with rfl | hx
        · exact lt_of_le_of_ne (not_lt.mp h1) (Ne.symm h2)
        · exact h.1 x hx

end Sys2Proof.Machine
end

