-- ==== Sys2Proof/Tests/Slice0.lean ====
section
/-! SUPPORT. Tests: the check of WellFormed, the decoding of every constructor, one step of every instruction, the
errors and the interrupts, and the witnesses for the hypotheses of the statements. Words are written out from the
encoding tables of 30_encoding.md; expected results are those of 95_test_vectors.md, section 2, unless a comment
says otherwise. -/

namespace Sys2Proof.Tests
open Sys2Proof Sys2Proof.Machine

/-! ## Building small states -/

abbrev reset : State := State.reset
def reg (n : RegNum) (v : Word) (s : State) : State := s.setReg n v
def word (a : Addr) (v : Word) (s : State) : State := s.putBytes a 4 v
def byte (a : Addr) (v : Byte) (s : State) : State := s.putBytes a 1 v
def pcIs (a : Addr) (s : State) : State := { s with pc := a }
def msIs (v : Word) (s : State) : State := { s with ms := v }
def sspIs (a : Addr) (s : State) : State := { s with ssp := a }
def pend (vs : List IntVec) (s : State) : State := { s with pending := vs }

/-- The state with an instruction word at the program counter. -/
def at_ (w : Word) (s : State) : State := s.withFetchWord 32 w.toNat

/-- The step answers a next state of which this holds. -/
def gives (s : State) (p : State → Bool) : Bool := match step s with | .next t => p t | _ => false

/-- The step stops with an error of this kind, at a state of which this holds. -/
def stops (s : State) (k : ErrorKind) (p : State → Bool) : Bool :=
  match step s with | .fault f => f.kind == k && p f.state | _ => false

/-- The instruction answers a next state of which this holds. -/
def completesWith (i : Instr) (s : State) (p : State → Bool) : Bool :=
  match exec i s with | .next t => p t | _ => false

/-! ## WellFormed -/

theorem test_wellFormed_refuses_jcA : (Instr.jcA true true true 0x08000#20).wellFormed = false := by decide

theorem test_wellFormed_refuses_jcR : (Instr.jcR true true true 3).wellFormed = false := by decide

/-! ## Decoding, one word for every constructor, its fields set apart by underscores -/

-- R91
theorem test_decode_aluR :
    decode 0b00100_10001_00010_0_00000000000_10011#32 = .ok (.addR (.ind 1) (.reg 2) (.ind 3)) ∧
    decode 0b00000_10001_00010_0_00000000000_10011#32 = .ok (.subR (.ind 1) (.reg 2) (.ind 3)) ∧
    decode 0b00101_10001_00010_0_00000000000_10011#32 = .ok (.andR (.ind 1) (.reg 2) (.ind 3)) ∧
    decode 0b01101_10001_00010_0_00000000000_10011#32 = .ok (.orR (.ind 1) (.reg 2) (.ind 3)) ∧
    decode 0b10101_10001_00010_0_00000000000_10011#32 = .ok (.xorR (.ind 1) (.reg 2) (.ind 3)) := by decide

-- R92
theorem test_decode_aluI :
    decode 0b00100_00001_10010_1_1000000000000011#32 = .ok (.addI (.reg 1) (.ind 2) 0x8003#16) ∧
    decode 0b00000_00001_10010_1_1000000000000011#32 = .ok (.subI (.reg 1) (.ind 2) 0x8003#16) ∧
    decode 0b00101_00001_10010_1_1000000000000011#32 = .ok (.andI (.reg 1) (.ind 2) 0x8003#16) ∧
    decode 0b01101_00001_10010_1_1000000000000011#32 = .ok (.orI (.reg 1) (.ind 2) 0x8003#16) ∧
    decode 0b10101_00001_10010_1_1000000000000011#32 = .ok (.xorI (.reg 1) (.ind 2) 0x8003#16) := by decide

-- R93
theorem test_decode_cmp :
    decode 0b11100_00000_00001_0_00000000000_10010#32 = .ok (.cmpR (.reg 1) (.ind 2)) ∧
    decode 0b11100_00000_10001_1_1111111111111110#32 = .ok (.cmpI (.ind 1) 0xfffe#16) := by decide

-- R94
theorem test_decode_mul :
    decode 0b01111_0_01_000000000_00001_10010_00011#32 = .ok (.imulB (.reg 1) (.ind 2) (.reg 3)) ∧
    decode 0b01111_0_10_000000000_00001_10010_00011#32 = .ok (.imulS (.reg 1) (.ind 2) (.reg 3)) ∧
    decode 0b01111_0_11_000000000_00001_10010_00011#32 = .ok (.imulW (.reg 1) (.ind 2) (.reg 3)) ∧
    decode 0b01111_1_01_000000000_00001_10010_00011#32 = .ok (.umulB (.reg 1) (.ind 2) (.reg 3)) ∧
    decode 0b01111_1_10_000000000_00001_10010_00011#32 = .ok (.umulS (.reg 1) (.ind 2) (.reg 3)) ∧
    decode 0b01111_1_11_000000000_00001_10010_00011#32 = .ok (.umulW (.reg 1) (.ind 2) (.reg 3)) := by decide

-- R95
theorem test_decode_unary :
    decode 0b11000_0_00001_0_0001_0010_0011_0100_0101#32 = .ok (.negA (.reg 1) 0x12345#20) ∧
    decode 0b11000_0_10001_1_000000000000000_00010#32 = .ok (.negR (.ind 1) (.reg 2)) ∧
    decode 0b10110_0_00001_0_0001_0010_0011_0100_0101#32 = .ok (.notA (.reg 1) 0x12345#20) ∧
    decode 0b10110_0_10001_1_000000000000000_00010#32 = .ok (.notR (.ind 1) (.reg 2)) := by decide

-- R96
theorem test_decode_shift :
    decode 0b10000_00_0000000000_10001_00010_11111#32 = .ok (.shfl (.ind 1) (.reg 2) 31#5) ∧
    decode 0b10000_10_0000000000_10001_00010_11111#32 = .ok (.shfrl (.ind 1) (.reg 2) 31#5) ∧
    decode 0b10000_11_0000000000_10001_00010_11111#32 = .ok (.shfra (.ind 1) (.reg 2) 31#5) := by decide

-- R97
theorem test_decode_jump :
    decode 0b10111_1_0_0_000_0_0001_0010_0011_0100_0101#32 = .ok (.jcA true false false 0x12345#20) ∧
    decode 0b10111_0_1_1_000_1_0000000000000000_0011#32 = .ok (.jcR false true true 3) ∧
    decode 0b10111_1_1_1_000_0_0001_0010_0011_0100_0101#32 = .ok (.jmpA 0x12345#20) ∧
    decode 0b10111_1_1_1_000_1_0000000000000000_0011#32 = .ok (.jmpR 3) := by decide

-- R98
theorem test_decode_call :
    decode 0b01000_0_00000_0_0001_0010_0011_0100_0101#32 = .ok (.callA 0x12345#20) ∧
    decode 0b01000_0_00000_1_0000000000000000_0011#32 = .ok (.callR 3) ∧
    decode 0b01000_1_000000000000000000000_00011#32 = .ok (.scl 3#5) := by decide

-- R99
theorem test_decode_ret :
    decode 0b00011_0_00000000000000000000000000#32 = .ok .ret ∧
    decode 0b00011_1_00000000000000000000000000#32 = .ok .reti := by decide

-- R100
theorem test_decode_load :
    decode 0b01001_01_0001_0_0001_0010_0011_0100_0101#32 = .ok (.ldbA 1 0x12345#20) ∧
    decode 0b01001_01_0001_1_0000000000000000_0010#32 = .ok (.ldbR 1 2) ∧
    decode 0b01001_10_0001_0_0001_0010_0011_0100_0101#32 = .ok (.ldsA 1 0x12345#20) ∧
    decode 0b01001_10_0001_1_0000000000000000_0010#32 = .ok (.ldsR 1 2) ∧
    decode 0b01001_11_0001_0_0001_0010_0011_0100_0101#32 = .ok (.ldwA 1 0x12345#20) ∧
    decode 0b01001_11_0001_1_0000000000000000_0010#32 = .ok (.ldwR 1 2) := by decide

-- R101
theorem test_decode_store :
    decode 0b00001_01_0_0001_0010_0011_0100_0101_0001#32 = .ok (.stbA 0x12345#20 1) ∧
    decode 0b00001_01_1_0000000000000000_0001_0010#32 = .ok (.stbR 1 2) ∧
    decode 0b00001_10_0_0001_0010_0011_0100_0101_0001#32 = .ok (.stsA 0x12345#20 1) ∧
    decode 0b00001_10_1_0000000000000000_0001_0010#32 = .ok (.stsR 1 2) ∧
    decode 0b00001_11_0_0001_0010_0011_0100_0101_0001#32 = .ok (.stwA 0x12345#20 1) ∧
    decode 0b00001_11_1_0000000000000000_0001_0010#32 = .ok (.stwR 1 2) := by decide

-- R102
theorem test_decode_copy :
    decode 0b00010_00000_0001_00_1000000000000011#32 = .ok (.cpyI 1 0x8003#16) ∧
    decode 0b00010_00000_0001_01_1000000000000011#32 = .ok (.cpyU 1 0x8003#16) ∧
    decode 0b00010_00000_0001_10_000000000000_0010#32 = .ok (.cpy 1 2) := by decide

-- R103
theorem test_decode_push :
    decode 0b11111_0_00_0000000_0_1000000000000011#32 = .ok (.pushI 0x8003#16) ∧
    decode 0b11111_0_00_0000000_1_1000000000000011#32 = .ok (.pushU 0x8003#16) ∧
    decode 0b11111_0_01_000_0_0001_0010_0011_0100_0101#32 = .ok (.pushbA 0x12345#20) ∧
    decode 0b11111_0_01_000_1_000000000000000_10010#32 = .ok (.pushbR (.ind 2)) ∧
    decode 0b11111_0_10_000_0_0001_0010_0011_0100_0101#32 = .ok (.pushsA 0x12345#20) ∧
    decode 0b11111_0_10_000_1_000000000000000_10010#32 = .ok (.pushsR (.ind 2)) ∧
    decode 0b11111_0_11_000_0_0001_0010_0011_0100_0101#32 = .ok (.pushwA 0x12345#20) ∧
    decode 0b11111_0_11_000_1_000000000000000_10010#32 = .ok (.pushwR (.ind 2)) := by decide

-- R104
theorem test_decode_pop :
    decode 0b11111_1_01_000_0_0001_0010_0011_0100_0101#32 = .ok (.popbA 0x12345#20) ∧
    decode 0b11111_1_01_000_1_000000000000000_10010#32 = .ok (.popbR (.ind 2)) ∧
    decode 0b11111_1_10_000_0_0001_0010_0011_0100_0101#32 = .ok (.popsA 0x12345#20) ∧
    decode 0b11111_1_10_000_1_000000000000000_10010#32 = .ok (.popsR (.ind 2)) ∧
    decode 0b11111_1_11_000_0_0001_0010_0011_0100_0101#32 = .ok (.popwA 0x12345#20) ∧
    decode 0b11111_1_11_000_1_000000000000000_10010#32 = .ok (.popwR (.ind 2)) := by decide

-- R105
theorem test_decode_in :
    decode 0b01110_0_000000000000000_10001_0_01000#32 = .ok (.inI (.ind 1) 8#5) ∧
    decode 0b01110_0_000000000000000_00001_1_10010#32 = .ok (.inR (.reg 1) (.ind 2)) := by decide

-- R106
theorem test_decode_out :
    decode 0b01110_1_000000000000000_0_01100_10001#32 = .ok (.outI 12#5 (.ind 1)) ∧
    decode 0b01110_1_000000000000000_1_10010_00001#32 = .ok (.outR (.ind 2) (.reg 1)) := by decide

-- R107
theorem test_decode_sssp :
    decode 0b00110_000000_0_0001_0010_0011_0100_0101#32 = .ok (.ssspA 0x12345#20) ∧
    decode 0b00110_000000_1_000000000000000_10001#32 = .ok (.ssspR (.ind 1)) := by decide

-- R108
theorem test_decode_halt :
    decode 0b10001_000000_0_0001_0010_0011_0100_0101#32 = .ok .halt ∧
    decode 0b10001_000000_0_00000000000000000000#32 = .ok .halt := by decide

-- R114: RETS has the word of RETI
theorem test_encode_rets : encode .rets = 0b00011_1_00000000000000000000000000#32 := by decide

-- R111, R112, R117
theorem test_decode_illegal :
    decode 0x38000000#32 = .error .unassignedOpcode ∧ decode 0xf0000000#32 = .error .unassignedOpcode ∧
    decode 0x78001023#32 = .error .unassignedSelector ∧ decode 0x82000444#32 = .error .unassignedSelector ∧
    decode 0x48209000#32 = .error .unassignedSelector ∧ decode 0x10070002#32 = .error .unassignedSelector ∧
    decode 0xfc100001#32 = .error .unassignedSelector ∧ decode 0x20440023#32 = .error .reservedBits ∧
    decode 0x88100000#32 = .error .reservedBits ∧ decode 0xf8020001#32 = .error .reservedBits := by decide

/-! ## One step of every instruction -/

-- `ADD [R4], [R4], R3`
theorem test_addR : gives (at_ 0x25280003#32 (reset |> reg 3 0x00000005#32 |> reg 4 0xabc09000#32
     |> word 0x09000 0xfffffffe#32))
    (fun t => t.wordAt 0x09000 == 0x00000003#32 && t.ms == 0x00010002#32) = true := by decide

-- `ADD R1, R1, -1`
theorem test_addI : gives (at_ 0x2043ffff#32 (reset |> reg 1 0x00000001#32))
    (fun t => t.reg 1 == 0x00000000#32 && t.ms == 0x00010001#32) = true := by decide

-- `SUB R1, R2, R3`
theorem test_subR : gives (at_ 0x00440003#32 (reset |> reg 2 0x80000000#32 |> reg 3 0x00000001#32))
    (fun t => t.reg 1 == 0x7fffffff#32 && t.ms == 0x00010002#32) = true := by decide

-- `SUB R1, R1, -32768`
theorem test_subI : gives (at_ 0x00438000#32 (reset |> reg 1 0x00000000#32))
    (fun t => t.reg 1 == 0x00008000#32 && t.ms == 0x00010002#32) = true := by decide

-- `AND R1, R2, R3`
theorem test_andR : gives (at_ 0x28440003#32 (reset |> reg 2 0xf0f0f0f0#32 |> reg 3 0x0ff00ff0#32))
    (fun t => t.reg 1 == 0x00f000f0#32 && t.ms == 0x00010002#32) = true := by decide

-- `AND R1, R2, 0x8000`
theorem test_andI : gives (at_ 0x28458000#32 (reset |> reg 2 0x12345678#32))
    (fun t => t.reg 1 == 0x12340000#32 && t.ms == 0x00010002#32) = true := by decide

-- `OR R1, R2, R3`
theorem test_orR : gives (at_ 0x68440003#32 (reset |> reg 2 0x000000f0#32 |> reg 3 0x0000000f#32))
    (fun t => t.reg 1 == 0x000000ff#32 && t.ms == 0x00010002#32) = true := by decide

-- `OR R1, R2, 0x8000`
theorem test_orI : gives (at_ 0x68458000#32 (reset |> reg 2 0x00000001#32))
    (fun t => t.reg 1 == 0xffff8001#32 && t.ms == 0x00010004#32) = true := by decide

-- `XOR R1, R2, R3`
theorem test_xorR : gives (at_ 0xa8440003#32 (reset |> reg 2 0xff00ff00#32 |> reg 3 0x0ff00ff0#32))
    (fun t => t.reg 1 == 0xf0f0f0f0#32 && t.ms == 0x00010004#32) = true := by decide

-- `XOR R1, R2, -1`
theorem test_xorI : gives (at_ 0xa845ffff#32 (reset |> reg 2 0x0000ffff#32))
    (fun t => t.reg 1 == 0xffff0000#32 && t.ms == 0x00010004#32) = true := by decide

-- `CMP R1, R2`
theorem test_cmpR : gives (at_ 0xe0020002#32 (reset |> reg 1 0x80000000#32 |> reg 2 0x00000001#32))
    (fun t => t.ms == 0x00010002#32) = true := by decide

-- `CMP [R1], -1`
theorem test_cmpI : gives (at_ 0xe023ffff#32 (reset |> reg 1 0x00009000#32 |> word 0x09000 0xffffffff#32))
    (fun t => t.ms == 0x00010001#32) = true := by decide

-- `IMULB R1, R2, R3`
theorem test_imulB : gives (at_ 0x79000443#32 (reset |> reg 1 0xaaaaaaaa#32 |> reg 2 0x123456fd#32
     |> reg 3 0x00000005#32))
    (fun t => t.reg 1 == 0xaaaafff1#32 && t.ms == 0x00010004#32) = true := by decide

-- `IMULS R1, R2, R3`
theorem test_imulS : gives (at_ 0x7a000443#32 (reset |> reg 2 0xffff8000#32 |> reg 3 0x00008000#32))
    (fun t => t.reg 1 == 0x40000000#32 && t.ms == 0x00010002#32) = true := by decide

-- `IMULW R4, R1, R3`
theorem test_imulW : gives (at_ 0x7b001023#32 (reset |> reg 1 0x80000000#32 |> reg 3 0x80000000#32
     |> reg 4 0x11111111#32 |> reg 5 0x22222222#32))
    (fun t => t.reg 4 == 0x00000000#32 && t.reg 5 == 0x40000000#32 && t.ms == 0x00010002#32) = true := by decide

-- `UMULB R1, R2, R3`
theorem test_umulB : gives (at_ 0x7d000443#32 (reset |> reg 1 0xaaaaaaaa#32 |> reg 2 0x000000ff#32
     |> reg 3 0x000000ff#32))
    (fun t => t.reg 1 == 0xaaaafe01#32 && t.ms == 0x00010004#32) = true := by decide

-- `UMULS R1, R2, R3`
theorem test_umulS : gives (at_ 0x7e000443#32 (reset |> reg 2 0x0000ffff#32 |> reg 3 0x0000ffff#32))
    (fun t => t.reg 1 == 0xfffe0001#32 && t.ms == 0x00010004#32) = true := by decide

-- `UMULW R7, R1, R3`
theorem test_umulW : gives (at_ 0x7f001c23#32 (reset |> reg 1 0xffffffff#32 |> reg 3 0x00000010#32))
    (fun t => t.reg 0 == 0x0000000f#32 && t.reg 7 == 0xfffffff0#32 && t.ms == 0x00010002#32) = true := by decide

-- `NEG R1, 0x9000`
theorem test_negA : gives (at_ 0xc0209000#32 (reset |> word 0x09000 0x00000005#32))
    (fun t => t.reg 1 == 0xfffffffb#32 && t.ms == 0x00010004#32) = true := by decide

-- `NEG R1, R2`
theorem test_negR : gives (at_ 0xc0300002#32 (reset |> reg 2 0x80000000#32))
    (fun t => t.reg 1 == 0x80000000#32 && t.ms == 0x00010004#32) = true := by decide

-- `NOT R1, 0x9000`
theorem test_notA : gives (at_ 0xb0209000#32 (reset |> word 0x09000 0xf0f0f0f0#32))
    (fun t => t.reg 1 == 0x0f0f0f0f#32 && t.ms == 0x00010002#32) = true := by decide

-- `NOT R1, R2`
theorem test_notR : gives (at_ 0xb0300002#32 (reset |> reg 2 0x00000000#32))
    (fun t => t.reg 1 == 0xffffffff#32 && t.ms == 0x00010004#32) = true := by decide

-- `SHFL [R1], [R1], 8`
theorem test_shfl : gives (at_ 0x80004628#32 (reset |> reg 1 0x00009000#32 |> word 0x09000 0x00ff00ff#32))
    (fun t => t.wordAt 0x09000 == 0xff00ff00#32 && t.ms == 0x00010004#32) = true := by decide

-- `SHFRL R1, R2, 4`
theorem test_shfrl : gives (at_ 0x84000444#32 (reset |> reg 2 0x80000000#32))
    (fun t => t.reg 1 == 0x08000000#32 && t.ms == 0x00010002#32) = true := by decide

-- `SHFRA R1, R2, 31`
theorem test_shfra : gives (at_ 0x8600045f#32 (reset |> reg 2 0x80000000#32))
    (fun t => t.reg 1 == 0xffffffff#32 && t.ms == 0x00010004#32) = true := by decide

-- `JCnp 0x8010`
theorem test_jcA : gives (at_ 0xbe008010#32 (reset |> msIs 0x00010004#32))
    (fun t => t.pc == 0x08010#20 && t.ms == 0x00010004#32) = true := by decide

-- `JCp [R3]`
theorem test_jcR : gives (at_ 0xba100003#32 (reset |> msIs 0x00010002#32 |> reg 3 0x12308020#32))
    (fun t => t.pc == 0x08020#20 && t.ms == 0x00010002#32) = true := by decide

-- `JMP 0x8010`
theorem test_jmpA : gives (at_ 0xbf008010#32 (reset |> msIs 0x00010000#32))
    (fun t => t.pc == 0x08010#20 && t.ms == 0x00010000#32) = true := by decide

-- `JMP [R3]`
theorem test_jmpR : gives (at_ 0xbf100003#32 (reset |> reg 3 0x12308020#32))
    (fun t => t.pc == 0x08020#20 && t.ms == 0x00010001#32) = true := by decide

-- `CALL 0x8100`
theorem test_callA : gives (at_ 0x40008100#32 (reset |> reg 15 0x00010000#32))
    (fun t => t.reg 15 == 0x0000fffc#32 && t.wordAt 0x0fffc == 0x00000204#32 && t.pc == 0x08100#20 &&
      t.ms == 0x00010001#32) = true := by decide

-- `CALL [R15]`
theorem test_callR : gives (at_ 0x4010000f#32 (reset |> reg 15 0x00009000#32))
    (fun t => t.reg 15 == 0x00008ffc#32 && t.wordAt 0x08ffc == 0x00000204#32 && t.pc == 0x09000#20 &&
      t.ms == 0x00010001#32) = true := by decide

-- `SCL 3`
theorem test_scl : gives (at_ 0x44000003#32 (reset |> pcIs 0x08000#20 |> msIs 0x00000002#32 |> sspIs 0x04000#20
     |> reg 15 0x0000f000#32 |> word 0x0010c 0x80000300#32))
    (fun t => t.reg 15 == 0x00003ff4#32 && t.wordAt 0x03ff4 == 0x00008004#32 && t.wordAt 0x03ff8 == 0x00000002#32 &&
      t.wordAt 0x03ffc == 0x0000f000#32 && t.pc == 0x00300#20 && t.ms == 0x00010002#32) = true := by decide

-- `RET`
theorem test_ret : gives (at_ 0x18000000#32 (reset |> reg 15 0x0000fffc#32 |> word 0x0fffc 0xabc08204#32))
    (fun t => t.reg 15 == 0x00010000#32 && t.pc == 0x08204#20 && t.ms == 0x00010001#32) = true := by decide

-- `RETI`
theorem test_reti : gives (at_ 0x1c000000#32 (reset |> pcIs 0x00400#20 |> reg 15 0x00006ff4#32
     |> word 0x06ff4 0x00008000#32 |> word 0x06ff8 0x00000000#32 |> word 0x06ffc 0x12345678#32))
    (fun t => t.reg 15 == 0x12345678#32 && t.pc == 0x08000#20 && t.ms == 0x00000000#32) = true := by decide

-- `RETS`, the constructor itself
theorem test_rets : completesWith .rets (reset |> pcIs 0x00304#20 |> msIs 0x00010002#32 |> reg 15 0x00003ff4#32
     |> word 0x03ff4 0x00008004#32 |> word 0x03ff8 0x00000002#32 |> word 0x03ffc 0x0000f000#32)
    (fun t => t.reg 15 == 0x0000f000#32 && t.pc == 0x08004#20 && t.ms == 0x00000002#32) = true := by decide

-- `LDB R1, 0x9000`
theorem test_ldbA : gives (at_ 0x4a209000#32 (reset |> byte 0x09000 0x80#8))
    (fun t => t.reg 1 == 0xffffff80#32 && t.ms == 0x00010004#32) = true := by decide

-- `LDB R1, [R2]`
theorem test_ldbR : gives (at_ 0x4a300002#32 (reset |> reg 1 0xffffffff#32 |> reg 2 0xfff09001#32
     |> byte 0x09001 0x00#8))
    (fun t => t.reg 1 == 0x00000000#32 && t.ms == 0x00010001#32) = true := by decide

-- `LDS R1, 0x9000`
theorem test_ldsA : gives (at_ 0x4c209000#32 (reset |> byte 0x09000 0x34#8 |> byte 0x09001 0x92#8))
    (fun t => t.reg 1 == 0xffff9234#32 && t.ms == 0x00010004#32) = true := by decide

-- `LDS R1, [R2]`
theorem test_ldsR : gives (at_ 0x4c300002#32 (reset |> reg 2 0x00009002#32 |> byte 0x09002 0x34#8
     |> byte 0x09003 0x12#8))
    (fun t => t.reg 1 == 0x00001234#32 && t.ms == 0x00010002#32) = true := by decide

-- `LDW R1, 0x9000`
theorem test_ldwA : gives (at_ 0x4e209000#32 (reset |> word 0x09000 0x89abcdef#32))
    (fun t => t.reg 1 == 0x89abcdef#32 && t.ms == 0x00010004#32) = true := by decide

-- `LDW R1, [R2]`
theorem test_ldwR : gives (at_ 0x4e300002#32 (reset |> reg 1 0xffffffff#32 |> reg 2 0x00009000#32
     |> word 0x09000 0x00000000#32))
    (fun t => t.reg 1 == 0x00000000#32 && t.ms == 0x00010001#32) = true := by decide

-- `STB 0x9000, R3`
theorem test_stbA : gives (at_ 0x0a090003#32 (reset |> reg 3 0x123456ab#32 |> word 0x09000 0x11223344#32))
    (fun t => t.wordAt 0x09000 == 0x112233ab#32 && t.ms == 0x00010001#32) = true := by decide

-- `STB [R2], R3`
theorem test_stbR : gives (at_ 0x0b000023#32 (reset |> reg 2 0x00009003#32 |> reg 3 0x123456ab#32
     |> word 0x09000 0x11223344#32))
    (fun t => t.wordAt 0x09000 == 0xab223344#32 && t.ms == 0x00010001#32) = true := by decide

-- `STS 0x9000, R3`
theorem test_stsA : gives (at_ 0x0c090003#32 (reset |> reg 3 0x123456ab#32 |> word 0x09000 0x11223344#32))
    (fun t => t.wordAt 0x09000 == 0x112256ab#32 && t.ms == 0x00010001#32) = true := by decide

-- `STS [R2], R3`
theorem test_stsR : gives (at_ 0x0d000023#32 (reset |> reg 2 0x00009002#32 |> reg 3 0x123456ab#32
     |> word 0x09000 0x11223344#32))
    (fun t => t.wordAt 0x09000 == 0x56ab3344#32 && t.ms == 0x00010001#32) = true := by decide

-- `STW 0x9000, R3`
theorem test_stwA : gives (at_ 0x0e090003#32 (reset |> reg 3 0x123456ab#32 |> word 0x09000 0x11223344#32))
    (fun t => t.wordAt 0x09000 == 0x123456ab#32 && t.ms == 0x00010001#32) = true := by decide

-- `STW [R2], R3`
theorem test_stwR : gives (at_ 0x0f000023#32 (reset |> reg 2 0xabc09000#32 |> reg 3 0x123456ab#32
     |> word 0x09000 0x11223344#32))
    (fun t => t.wordAt 0x09000 == 0x123456ab#32 && t.ms == 0x00010001#32) = true := by decide

-- `CPYI R1, 0x8000`
theorem test_cpyI : gives (at_ 0x10048000#32 reset)
    (fun t => t.reg 1 == 0xffff8000#32 && t.ms == 0x00010001#32) = true := by decide

-- `CPYU R1, 0x8000`
theorem test_cpyU : gives (at_ 0x10058000#32 (reset |> reg 1 0xffffffff#32))
    (fun t => t.reg 1 == 0x00008000#32 && t.ms == 0x00010001#32) = true := by decide

-- `CPY R1, R2`
theorem test_cpy : gives (at_ 0x10060002#32 (reset |> msIs 0x00010002#32 |> reg 2 0xdeadbeef#32))
    (fun t => t.reg 1 == 0xdeadbeef#32 && t.ms == 0x00010002#32) = true := by decide

-- `PUSHI -2`
theorem test_pushI : gives (at_ 0xf800fffe#32 (reset |> reg 15 0x00009000#32))
    (fun t => t.reg 15 == 0x00008ffc#32 && t.wordAt 0x08ffc == 0xfffffffe#32 &&
      t.ms == 0x00010001#32) = true := by decide

-- `PUSHU 0x8000`
theorem test_pushU : gives (at_ 0xf8018000#32 (reset |> reg 15 0x00009000#32))
    (fun t => t.reg 15 == 0x00008ffc#32 && t.wordAt 0x08ffc == 0x00008000#32 &&
      t.ms == 0x00010001#32) = true := by decide

-- `PUSHB 0x9100`
theorem test_pushbA : gives (at_ 0xf9009100#32 (reset |> reg 15 0x00009000#32 |> byte 0x09100 0x80#8))
    (fun t => t.reg 15 == 0x00008ffc#32 && t.wordAt 0x08ffc == 0xffffff80#32 &&
      t.ms == 0x00010001#32) = true := by decide

-- `PUSHB [R3]`
theorem test_pushbR : gives (at_ 0xf9100013#32 (reset |> reg 3 0x00009100#32 |> reg 15 0x00009000#32
     |> word 0x09100 0x123456f0#32))
    (fun t => t.reg 15 == 0x00008ffc#32 && t.wordAt 0x08ffc == 0xfffffff0#32 &&
      t.ms == 0x00010001#32) = true := by decide

-- `PUSHS 0x9100`
theorem test_pushsA : gives (at_ 0xfa009100#32 (reset |> reg 15 0x00009000#32 |> byte 0x09100 0x34#8
     |> byte 0x09101 0x92#8))
    (fun t => t.reg 15 == 0x00008ffc#32 && t.wordAt 0x08ffc == 0xffff9234#32 &&
      t.ms == 0x00010001#32) = true := by decide

-- `PUSHS R3`
theorem test_pushsR : gives (at_ 0xfa100003#32 (reset |> reg 3 0x12347fff#32 |> reg 15 0x00009000#32))
    (fun t => t.reg 15 == 0x00008ffc#32 && t.wordAt 0x08ffc == 0x00007fff#32 &&
      t.ms == 0x00010001#32) = true := by decide

-- `PUSHW 0x9100`
theorem test_pushwA : gives (at_ 0xfb009100#32 (reset |> reg 15 0x00009000#32 |> word 0x09100 0xdeadbeef#32))
    (fun t => t.reg 15 == 0x00008ffc#32 && t.wordAt 0x08ffc == 0xdeadbeef#32 &&
      t.ms == 0x00010001#32) = true := by decide

-- `PUSHW [R15]`
theorem test_pushwR : gives (at_ 0xfb10001f#32 (reset |> reg 15 0x0000f000#32 |> word 0x0f000 0x11111111#32))
    (fun t => t.reg 15 == 0x0000effc#32 && t.wordAt 0x0effc == 0x11111111#32 &&
      t.ms == 0x00010001#32) = true := by decide

-- `POPB 0x9100`
theorem test_popbA : gives (at_ 0xfd009100#32 (reset |> reg 15 0x00008ffc#32 |> word 0x08ffc 0x11223344#32
     |> word 0x09100 0xaaaaaaaa#32))
    (fun t => t.reg 15 == 0x00009000#32 && t.wordAt 0x09100 == 0xaaaaaa44#32 &&
      t.ms == 0x00010001#32) = true := by decide

-- `POPB R1`
theorem test_popbR : gives (at_ 0xfd100001#32 (reset |> reg 1 0xaaaaaaaa#32 |> reg 15 0x00008ffc#32
     |> word 0x08ffc 0x11223344#32))
    (fun t => t.reg 1 == 0xaaaaaa44#32 && t.reg 15 == 0x00009000#32 && t.ms == 0x00010001#32) = true := by decide

-- `POPS 0x9100`
theorem test_popsA : gives (at_ 0xfe009100#32 (reset |> reg 15 0x00008ffc#32 |> word 0x08ffc 0x11223344#32
     |> word 0x09100 0xaaaaaaaa#32))
    (fun t => t.reg 15 == 0x00009000#32 && t.wordAt 0x09100 == 0xaaaa3344#32 &&
      t.ms == 0x00010001#32) = true := by decide

-- `POPS [R1]`
theorem test_popsR : gives (at_ 0xfe100011#32 (reset |> reg 1 0x00009100#32 |> reg 15 0x00008ffc#32
     |> word 0x08ffc 0x11223344#32 |> word 0x09100 0xaaaaaaaa#32))
    (fun t => t.reg 15 == 0x00009000#32 && t.wordAt 0x09100 == 0xaaaa3344#32 &&
      t.ms == 0x00010001#32) = true := by decide

-- `POPW 0x9100`
theorem test_popwA : gives (at_ 0xff009100#32 (reset |> reg 15 0x00008ffc#32 |> word 0x08ffc 0x11223344#32
     |> word 0x09100 0xaaaaaaaa#32))
    (fun t => t.reg 15 == 0x00009000#32 && t.wordAt 0x09100 == 0x11223344#32 &&
      t.ms == 0x00010001#32) = true := by decide

-- `POPW R15`
theorem test_popwR : gives (at_ 0xff10000f#32 (reset |> reg 15 0x00008ffc#32 |> word 0x08ffc 0x00009000#32))
    (fun t => t.reg 15 == 0x00009004#32 && t.ms == 0x00010001#32) = true := by decide

-- `OUT 12, R1`
theorem test_outI : gives (at_ 0x74000181#32 (reset |> reg 1 0x12345641#32))
    (fun t => t.outTrace == [0x41#7] && t.ms == 0x00010001#32) = true := by decide

-- `OUT R2, R1`
theorem test_outR : gives (at_ 0x74000441#32 (reset |> reg 1 0x00000041#32 |> reg 2 0x0000002c#32))
    (fun t => t.outTrace == [0x41#7] && t.ms == 0x00010001#32) = true := by decide

-- `SSSP 0x7000`
theorem test_ssspA : gives (at_ 0x30007000#32 (reset |> word 0x07000 0xfff04000#32))
    (fun t => t.ssp == 0x04000#20 && t.ms == 0x00010001#32) = true := by decide

-- `SSSP R1`
theorem test_ssspR : gives (at_ 0x30100001#32 (reset |> reg 1 0xabc04000#32))
    (fun t => t.ssp == 0x04000#20 && t.ms == 0x00010001#32) = true := by decide

-- `HALT`
theorem test_halt : gives (at_ 0x88012345#32 reset)
    (fun t => t.halted && t.ms == 0x00010001#32) = true := by decide

-- `IN R1, 8`: bits 30..7 are undefined, free values
theorem test_inI : ∃ t, step (at_ 0x70000048#32 { reset with avl := true, ch := 0x41#7 }) = .next t ∧
    t.reg 1 = 1#1 ++ Config.charUndefined 0 ++ 0x41#7 ∧ t.avl = true := ⟨_, rfl, rfl, rfl⟩

-- `IN R1, R2`: port 8 from the low 5 bits of `x2`
theorem test_inR : ∃ t, step (at_ 0x70000062#32 (reg 2 0xffffff28#32 { reset with ch := 0x41#7 })) = .next t ∧
    t.reg 1 = 0#1 ++ Config.charUndefined 0 ++ 0x41#7 ∧ t.freeTick = 1 := ⟨_, rfl, rfl, rfl⟩

/-! ## Errors, devices and interrupts -/

theorem test_error_alignment : stops (at_ 0x40008102#32 (reg 15 0x00010000#32 reset)) .alignment
    (fun t => t.reg 15 == 0x0000fffc#32 && t.wordAt 0x0fffc == 0x00000204#32 && t.pc == 0x00204#20) = true := by decide

theorem test_error_protection : stops (at_ 0x0e000203#32 (reset |> pcIs 0x08000#20 |> msIs 0x00000001#32
     |> reg 3 0x80000400#32)) .protection (fun t => t.wordAt 0x00020 == 0#32) = true := by decide

theorem test_error_fetch_protection : stops (at_ 0x20440003#32 (reset |> pcIs 0x07ffc#20 |> msIs 0x00000001#32))
    .protection (fun t => t.pc == 0x07ffc#20) = true := by decide

theorem test_error_privilege : stops (at_ 0x88000000#32 (reset |> pcIs 0x08000#20 |> msIs 0x00000001#32))
    .privilegeViolation (fun t => !t.halted) = true := by decide

theorem test_error_sctDisabled : stops (at_ 0x44000003#32 (reset |> pcIs 0x08000#20 |> msIs 0x00000002#32
     |> sspIs 0x04000#20 |> reg 15 0x0000f000#32)) .sctDisabled (fun t => t.reg 15 == 0x0000f000#32) = true := by decide

theorem test_error_addressRange : stops (at_ 0xf8000001#32 reset) .addressRange
    (fun t => t.reg 15 == 0xfffffffc#32) = true := by decide

theorem test_error_reservedValue : stops (at_ 0x1c000000#32 (reset |> pcIs 0x00400#20 |> reg 15 0x00006ff8#32
     |> word 0x06ff8 0x00000250#32 |> word 0x06ffc 0x00010012#32)) .reservedValue
    (fun t => t.reg 15 == 0x00006ffc#32 && t.pc == 0x00250#20) = true := by decide

theorem test_error_illegal :
    stops (at_ 0x38000000#32 reset) .illegalInstruction (fun t => t.pc == 0x00204#20) = true := by decide

theorem test_fetch_wraps : gives (at_ 0x20440003#32 (reset |> pcIs 0xffffc#20 |> reg 2 1#32 |> reg 3 2#32))
    (fun t => t.reg 1 == 3#32 && t.pc == 0#20) = true := by decide

theorem test_interrupt_user : gives (reset |> pcIs 0x08010#20 |> msIs 0x00000004#32 |> sspIs 0x04000#20
     |> reg 15 0x0000f000#32 |> word 0x00020 0x80000400#32 |> word 0x00400 0xb8000000#32 |> pend [8])
    (fun t => t.reg 15 == 0x00003ff4#32 && t.wordAt 0x03ff4 == 0x00008010#32 && t.wordAt 0x03ff8 == 0x00000004#32 &&
      t.wordAt 0x03ffc == 0x0000f000#32 && t.pc == 0x00404#20 && t.ms == 0x00010004#32 && t.pending == []) = true := by
  decide

theorem test_interrupt_supervisor : gives (reset |> pcIs 0x00250#20 |> msIs 0x00010002#32 |> reg 15 0x00007000#32
     |> word 0x000fc 0x80000400#32 |> word 0x00400 0xb8000000#32 |> pend [63])
    (fun t => t.reg 15 == 0x00006ff8#32 && t.wordAt 0x06ff8 == 0x00000250#32 && t.wordAt 0x06ffc == 0x00010002#32 &&
      t.pc == 0x00404#20) = true := by decide

theorem test_interrupt_disabled : gives (reset |> pcIs 0x00250#20 |> reg 15 0x00007000#32 |> word 0x00020 0x00000400#32
     |> word 0x00250 0xb8000000#32 |> pend [8])
    (fun t => t.reg 15 == 0x00007000#32 && t.pc == 0x00254#20 && t.pending == []) = true := by decide

-- R258: a character before the cycle is taken and raises vector 8, here through a disabled entry
theorem test_character_arrives : gives (reset |> word 0x00200 0xb8000000#32
     |> fun s => { s with arrivals := [[.char 0x4f#7]] })
    (fun t => t.avl && t.busy && t.ch == 0x4f#7 && t.pending == [] && t.arrivals == []) = true := by decide

-- R258: a zero written to port 8 acknowledges the character
theorem test_character_acknowledged : gives (at_ 0x74000101#32 { reset with avl := true, busy := true, ch := 0x4f#7 })
    (fun t => !t.avl && !t.busy && t.ch == 0x4f#7) = true := by decide

-- R287
theorem test_halted : gives { at_ 0x20440003#32 reset with halted := true } (fun t => t.pc == 0x00200#20) = true := by
  decide

/-! ## Witnesses: for each statement with hypotheses, states and operands that meet them, clause by clause -/

/-- Supervisor mode: `x4` misaligned, `x5` usable, `x6` protected, a frame on the stack at `0x09000`. -/
def sup : State :=
  reset |> reg 15 0x09000#32 |> reg 4 0x09102#32 |> reg 5 0x09100#32 |> reg 6 0x07000#32 |> word 0x09000 0x00000300#32
    |> word 0x09004 0x00010002#32 |> word 0x09008 0x0000f000#32 |> word 0x09100 0x00000300#32

/-- The same in user mode, the program counter in user space. -/
def usr : State := sup |> msIs 0x00000001#32 |> pcIs 0x08000#20

/-- The user of system call 3 and of vector 8, and their supervisor. -/
def entering (s : State) : State :=
  s |> sspIs 0x04000#20 |> word 0x0010c 0x80000300#32 |> word 0x00020 0x80000400#32

/-- The instruction completes. -/
def completes (i : Instr) (s : State) : Bool := match exec i s with | .next _ => true | _ => false

theorem test_witness_InvKeptByStep :
    StateInv (at_ 0x20440003#32 sup) ∧ gives (at_ 0x20440003#32 sup) (fun _ => true) = true := by
  unfold StateInv; decide

theorem test_witness_AccessChecks :
    ((0x00006#20).toNat % 4 ≠ 0) ∧ ((0x07ffc#20).toNat % 4 = 0 ∧ (0x07ffc#20).toNat < 0x08000) ∧
    ((0x08000#20).toNat % 4 = 0 ∧ 0x08000 ≤ (0x08000#20).toNat) ∧ (0x07fff#20).toNat < 0x08000 ∧
    (0x08001#20).toNat % 2 ≠ 0 ∧ ((0x07ffe#20).toNat % 2 = 0 ∧ (0x07ffe#20).toNat < 0x08000) ∧
    ((0xffff8#20).toNat % 8 = 0 ∧ 0x08000 ≤ (0xffff8#20).toNat) := by decide

/-- At the last word, short and doubleword of memory. -/
theorem test_witness_StoredValueReadsBack :
    (∃ t, store .user 0xffffc#20 4 (0x11223344#32) sup = .ok t) ∧
    (∃ t, store .user 0xffffe#20 2 (0x1122#16) sup = .ok t) ∧
    (∃ t, store .supervisor 0xffff8#20 8 (0x1122334455667788#64) sup = .ok t) := ⟨⟨_, rfl⟩, ⟨_, rfl⟩, ⟨_, rfl⟩⟩

theorem test_witness_DecodeInvertsEncode :
    (Instr.jcA true false true 0x12344#20).wellFormed = true ∧ Instr.jcA true false true 0x12344#20 ≠ .rets ∧
    Instr.rets.wellFormed = true := by decide

theorem test_witness_EncodeInvertsDecode :
    decode 0x20440003#32 = .ok (.addR (.reg 1) (.reg 2) (.reg 3)) ∧ Instr.addR (.reg 1) (.reg 2) (.reg 3) ≠ .halt ∧
    decode 0x88012345#32 = .ok .halt := by decide

/-- A quiet cycle that runs; one whose word is illegal; one whose fetch is misaligned or protected; one where step 1
raises an error. -/
theorem test_witness_StepRunsDecodedInstruction :
    (sup.halted = false ∧ Quiet (at_ 0x20440003#32 sup) ∧
      decodeBytes [0x03#8, 0x00#8, 0x44#8, 0x20#8] = .ok (.addR (.reg 1) (.reg 2) (.reg 3), [])) ∧
    (stops (at_ 0x38000000#32 sup) .illegalInstruction fun t => t.pc == 0x00204#20) = true ∧
    accessError (pcIs 0x00202#20 sup).mode 4 0x00202#20 = some .alignment ∧
    accessError usr.mode 4 0x07ffc#20 = some .protection ∧
    (stops (pend [8] (word 0x00020 0x80100400#32 sup)) .reservedValue fun _ => true) = true := by
  unfold Quiet; decide

theorem test_witness_StoreSeenByNextFetch :
    Quiet usr ∧ usr.halted = false ∧ decode 0x20440003#32 = .ok (.addR (.reg 1) (.reg 2) (.reg 3)) ∧
    ∃ t, store usr.mode usr.pc 4 0x20440003#32 usr = .ok t := ⟨⟨rfl, rfl⟩, rfl, by decide, ⟨_, rfl⟩⟩

theorem test_witness_HaltedIsFinal : ({ sup with halted := true } : State).halted = true := rfl

theorem test_witness_AddResult :
    firstError [operandError sup (.ind 5), operandError sup (.ind 5), operandError sup (.ind 5)] = none ∧
    firstError [operandError sup (.reg 4), operandError sup (.reg 4), operandError sup (.ind 4)] = some .alignment ∧
    firstError [operandError usr (.ind 6), operandError usr (.ind 4), operandError usr (.ind 4)] = some .protection ∧
    firstError [operandError sup (.ind 5), operandError sup (.ind 5)] = none ∧
    firstError [operandError sup (.reg 4), operandError sup (.ind 4)] = some .alignment ∧
    firstError [operandError usr (.ind 6), operandError usr (.ind 4)] = some .protection := by decide

theorem test_witness_SubResult :
    firstError [operandError sup (.ind 5), operandError sup (.ind 5), operandError sup (.ind 5)] = none ∧
    firstError [operandError sup (.reg 4), operandError sup (.reg 4), operandError sup (.ind 4)] = some .alignment ∧
    firstError [operandError usr (.ind 6), operandError usr (.ind 4), operandError usr (.ind 4)] = some .protection ∧
    firstError [operandError sup (.ind 5), operandError sup (.ind 5)] = none ∧
    firstError [operandError sup (.reg 4), operandError sup (.ind 4)] = some .alignment ∧
    firstError [operandError usr (.ind 6), operandError usr (.ind 4)] = some .protection := by decide

theorem test_witness_CmpFlags :
    firstError [operandError sup (.ind 5), operandError sup (.ind 5)] = none ∧
    firstError [operandError sup (.reg 4), operandError sup (.ind 4)] = some .alignment ∧
    firstError [operandError usr (.ind 6), operandError usr (.ind 4)] = some .protection ∧
    firstError [operandError sup (.ind 5)] = none ∧
    firstError [operandError sup (.ind 4)] = some .alignment ∧
    firstError [operandError usr (.ind 6)] = some .protection := by decide

theorem test_witness_ByteProducts :
    firstError [operandError sup (.ind 5), operandError sup (.ind 5), operandError sup (.ind 5)] = none ∧
    firstError [operandError sup (.reg 4), operandError sup (.reg 4), operandError sup (.ind 4)] = some .alignment ∧
    firstError [operandError usr (.ind 6), operandError usr (.ind 4), operandError usr (.ind 4)] = some .protection := by
  decide

theorem test_witness_ShortProducts :
    firstError [operandError sup (.ind 5), operandError sup (.ind 5), operandError sup (.ind 5)] = none ∧
    firstError [operandError sup (.reg 4), operandError sup (.reg 4), operandError sup (.ind 4)] = some .alignment ∧
    firstError [operandError usr (.ind 6), operandError usr (.ind 4), operandError usr (.ind 4)] = some .protection := by
  decide

theorem test_witness_WordProducts :
    firstError [operandError sup (.reg 1), operandError sup (.ind 5), doubleError sup (.reg 15)] = none ∧
    firstError [operandError sup (.reg 1), operandError sup (.ind 5), doubleError (reg 5 0x09108#32 sup) (.ind 5)] = none ∧
    firstError [operandError sup (.reg 1), operandError sup (.ind 5), doubleError (reg 5 0x09104#32 sup) (.ind 5)] =
      some .alignment := by decide

theorem test_witness_NegResult :
    firstError [accessError sup.mode 4 0x09100#20, operandError sup (.ind 5)] = none ∧
    firstError [accessError sup.mode 4 0x09101#20, operandError sup (.ind 5)] = some .alignment ∧
    firstError [operandError usr (.ind 5), operandError usr (.reg 6)] = none ∧
    firstError [operandError usr (.ind 5), operandError usr (.ind 6)] = some .protection := by decide

theorem test_witness_NotResult :
    firstError [accessError sup.mode 4 0x09100#20, operandError sup (.ind 5)] = none ∧
    firstError [accessError sup.mode 4 0x09101#20, operandError sup (.ind 5)] = some .alignment ∧
    firstError [operandError usr (.ind 5), operandError usr (.reg 6)] = none ∧
    firstError [operandError usr (.ind 5), operandError usr (.ind 6)] = some .protection := by decide

theorem test_witness_LogicResults :
    firstError [operandError sup (.ind 5), operandError sup (.ind 5), operandError sup (.ind 5)] = none ∧
    firstError [operandError sup (.reg 4), operandError sup (.reg 4), operandError sup (.ind 4)] = some .alignment ∧
    firstError [operandError usr (.ind 6), operandError usr (.ind 4), operandError usr (.ind 4)] = some .protection ∧
    firstError [operandError sup (.ind 5), operandError sup (.ind 5)] = none ∧
    firstError [operandError sup (.reg 4), operandError sup (.ind 4)] = some .alignment ∧
    firstError [operandError usr (.ind 6), operandError usr (.ind 4)] = some .protection := by decide

theorem test_witness_ShiftResults :
    firstError [operandError sup (.ind 5), operandError sup (.ind 5)] = none ∧
    firstError [operandError sup (.reg 4), operandError sup (.ind 4)] = some .alignment ∧
    firstError [operandError usr (.ind 6), operandError usr (.ind 4)] = some .protection := by decide

/-- Taken and not taken; an aligned and a misaligned target, in both forms. -/
theorem test_witness_JumpOnCondition :
    ¬(false = true ∧ true = true ∧ true = true) ∧ (sup.zf = true ∧ sup.pf = false ∧ sup.nf = false) ∧
    (0xffffc#20).toNat % 4 = 0 ∧ (0x08012#20).toNat % 4 ≠ 0 ∧
    ((sup.reg 5).extractLsb' 0 20).toNat % 4 = 0 ∧ ((sup.reg 4).extractLsb' 0 20).toNat % 4 ≠ 0 := by decide

theorem test_witness_JumpAlways :
    (0x00000#20).toNat % 4 = 0 ∧ (0x08012#20).toNat % 4 ≠ 0 ∧
    ((sup.reg 5).extractLsb' 0 20).toNat % 4 = 0 ∧ ((sup.reg 4).extractLsb' 0 20).toNat % 4 ≠ 0 := by decide

/-- A push at the top of memory, one below address 0, one in protected space. -/
theorem test_witness_CallPushesAndJumps :
    (pushError (reg 15 0x00100000#32 sup) = none ∧ (0x08100#20).toNat % 4 = 0) ∧
    pushError (reg 15 0#32 sup) = some .addressRange ∧ pushError (reg 15 0x08000#32 usr) = some .protection ∧
    (pushError sup = none ∧ (0x08102#20).toNat % 4 ≠ 0) := by decide

/-- A system call through the last entry, with just room for its frame. -/
theorem test_witness_SystemCallEnters :
    (word 0x0017c 0x80000300#32 sup).wordAt (0x00100 + 4 * (31#5).toNat) = 0x80000300#32 ∧
    (0x80000300#32).getLsbD 31 = true ∧ (0x80000300#32).toNat / 2 ^ 20 % 2 ^ 11 = 0 ∧ (0x80000300#32).toNat % 4 = 0 ∧
    (sspIs 12#20 sup).ssp.toNat % 4 = 0 ∧ 12 ≤ (sspIs 12#20 sup).ssp.toNat := by decide

theorem test_witness_SystemCallErrors :
    (sup.wordAt (0x00100 + 4 * (3#5).toNat)).getLsbD 31 = false ∧
    ((word 0x0010c 0x80100300#32 sup).wordAt (0x00100 + 4 * (3#5).toNat) = 0x80100300#32 ∧
      (0x80100300#32).getLsbD 31 = true ∧ (0x80100300#32).toNat / 2 ^ 20 % 2 ^ 11 ≠ 0) ∧
    ((entering sup |> sspIs 8#20).wordAt (0x00100 + 4 * (3#5).toNat) = 0x80000300#32 ∧
      (0x80000300#32).toNat / 2 ^ 20 % 2 ^ 11 = 0 ∧ (entering sup |> sspIs 8#20).ssp.toNat % 4 = 0 ∧
      (entering sup |> sspIs 8#20).ssp.toNat < 12) ∧
    ((entering sup |> sspIs 0#20).ssp.toNat % 4 = 0 ∧ (entering sup |> sspIs 0#20).ssp.toNat < 12) ∧
    ((entering sup |> sspIs 5#20).wordAt (0x00100 + 4 * (3#5).toNat) = 0x80000300#32 ∧
      (entering sup |> sspIs 5#20).ssp.toNat % 4 ≠ 0 ∧ 4 ≤ (entering sup |> sspIs 5#20).ssp.toNat) ∧
    ((entering sup |> sspIs 3#20).ssp.toNat % 4 ≠ 0 ∧ (entering sup |> sspIs 3#20).ssp.toNat < 4) ∧
    ((entering sup |> sspIs 12#20 |> word 0x0010c 0x80000302#32).wordAt (0x00100 + 4 * (3#5).toNat) = 0x80000302#32 ∧
      (0x80000302#32).getLsbD 31 = true ∧ (0x80000302#32).toNat / 2 ^ 20 % 2 ^ 11 = 0 ∧ (0x80000302#32).toNat % 4 ≠ 0 ∧
      12 % 4 = 0 ∧ (entering sup |> sspIs 12#20 |> word 0x0010c 0x80000302#32).ssp.toNat = 12) := by decide

theorem test_witness_ReturnFromSubroutine :
    stackError sup.mode 4 (0x00100000#32) = some .addressRange ∧ stackError usr.mode 4 (0x07ffc#32) = some .protection ∧
    (stackError sup.mode 4 (sup.reg sp) = none ∧ (sup.wordAt (sup.reg sp).toNat).toNat % 4 = 0) ∧
    ((word 0x09000 0x00000302#32 sup).wordAt ((word 0x09000 0x00000302#32 sup).reg sp).toNat).toNat % 4 ≠ 0 := by decide

/-- A frame of two words that ends at the top of memory. -/
def frame2 : State := sup |> reg 15 0xffff8#32 |> word 0xffff8 0x00000300#32 |> word 0xffffc 0x00010002#32

/-- A frame of three words that ends there. -/
def frame3 : State :=
  sup |> reg 15 0xffff4#32 |> word 0xffff4 0x00008000#32 |> word 0xffff8 0x00000007#32 |> word 0xffffc 0x0000f000#32

theorem test_witness_HandlerReturnRestores :
    (frame2.mi = true ∧ (frame2.reg sp).toNat = 0xffff8 ∧ 0xffff8 % 4 = 0 ∧ 0xffff8 + 4 < 2 ^ 20 ∧
      (frame2.wordAt 0xffff8).toNat % 4 = 0 ∧ frame2.wordAt (0xffff8 + 4) &&& 0xFFFEFFF8#32 = 0#32 ∧
      (frame2.wordAt (0xffff8 + 4)).getLsbD 16 = true) ∧
    (frame3.mi = true ∧ (frame3.reg sp).toNat = 0xffff4 ∧ 0xffff4 % 4 = 0 ∧ 0xffff4 + 4 < 2 ^ 20 ∧
      (frame3.wordAt 0xffff4).toNat % 4 = 0 ∧ frame3.wordAt (0xffff4 + 4) &&& 0xFFFEFFF8#32 = 0#32 ∧
      (frame3.wordAt (0xffff4 + 4)).getLsbD 16 = false ∧ 0xffff4 + 8 < 2 ^ 20) := by decide

theorem test_witness_HandlerReturnErrors :
    usr.mi = false ∧
    (sup.mi = true ∧ 2 ^ 20 ≤ ((reg 15 0x00100000#32 sup).reg sp).toNat) ∧
    (((reg 15 0x09002#32 sup).reg sp).toNat < 2 ^ 20 ∧ ((reg 15 0x09002#32 sup).reg sp).toNat % 4 ≠ 0) ∧
    ((sup.reg sp).toNat = 0x09000 ∧ ((word 0x09000 0x00000302#32 sup).wordAt 0x09000).toNat % 4 ≠ 0) ∧
    ((frame2 |> reg 15 0xffffc#32 |> word 0xffffc 0x00000300#32).wordAt 0xffffc = 0x00000300#32 ∧
      2 ^ 20 ≤ ((frame2 |> reg 15 0xffffc#32).reg sp).toNat + 4) ∧
    ((word 0x09004 0x00010012#32 sup).wordAt (0x09000 + 4) &&& 0xFFFEFFF8#32 ≠ 0#32) ∧
    ((frame2 |> word 0xffffc 0x00000001#32).wordAt (0xffff8 + 4) = 0x00000001#32 ∧
      (0x00000001#32) &&& 0xFFFEFFF8#32 = 0#32 ∧ (0x00000001#32).getLsbD 16 = false ∧ 2 ^ 20 ≤ 0xffff8 + 8) := by decide

theorem test_witness_LoadResults :
    accessError sup.mode 1 0xfffff#20 = none ∧ accessError usr.mode 1 0x07fff#20 = some .protection ∧
    accessError usr.mode 2 0x08000#20 = none ∧ accessError sup.mode 2 0x09001#20 = some .alignment ∧
    accessError sup.mode 4 0xffffc#20 = none ∧ accessError sup.mode 4 0x09002#20 = some .alignment := by decide

theorem test_witness_StoreResults :
    accessError usr.mode 1 0x08000#20 = none ∧ accessError usr.mode 1 0x07fff#20 = some .protection ∧
    accessError sup.mode 2 0xffffe#20 = none ∧ accessError sup.mode 2 0x09001#20 = some .alignment ∧
    accessError sup.mode 4 0x00000#20 = none ∧ accessError usr.mode 4 0x07ffc#20 = some .protection := by decide

theorem test_witness_PushImmediates :
    pushError sup = none ∧ pushError (reg 15 3#32 sup) = some .addressRange ∧
    pushError (reg 15 0x09002#32 sup) = some .alignment := by decide

theorem test_witness_PushOperands :
    (firstError [accessError sup.mode 1 0x09101#20] = none ∧ firstError [operandError sup (.ind 5)] = none ∧
      firstError [accessError sup.mode 2 0x09102#20] = none ∧ firstError [accessError sup.mode 4 0x09100#20] = none ∧
      pushError sup = none) ∧
    (firstError [operandError sup (.ind 4)] = some .alignment ∧ firstError [accessError usr.mode 1 0x07fff#20] =
      some .protection ∧ firstError [accessError sup.mode 2 0x09101#20] = some .alignment ∧
      firstError [accessError sup.mode 4 0x09102#20] = some .alignment) ∧
    (firstError [operandError sup (.reg 4)] = none ∧ pushError (reg 15 0#32 sup) = some .addressRange) := by decide

theorem test_witness_PopParts :
    firstError [stackError sup.mode 1 (0x09001#32), accessError sup.mode 1 0x09103#20] = none ∧
    firstError [stackError sup.mode 1 (0x00100000#32), accessError sup.mode 1 0x09103#20] = some .addressRange ∧
    firstError [stackError sup.mode 1 (sup.reg sp), operandError sup (.ind 5)] = none ∧
    firstError [stackError sup.mode 1 (sup.reg sp), operandError sup (.ind 4)] = some .alignment ∧
    firstError [stackError sup.mode 2 (0x09002#32), accessError sup.mode 2 0x09102#20] = none ∧
    firstError [stackError sup.mode 2 (0x09001#32), accessError sup.mode 2 0x09102#20] = some .alignment ∧
    firstError [stackError sup.mode 2 (sup.reg sp), operandError sup (.reg 15)] = none := by decide

theorem test_witness_PopWord :
    firstError [stackError sup.mode 4 (0xffffc#32), accessError sup.mode 4 0x09100#20] = none ∧
    firstError [stackError usr.mode 4 (0x07ffc#32), accessError usr.mode 4 0x09100#20] = some .protection ∧
    firstError [stackError sup.mode 4 (sup.reg sp), operandError sup (.reg 15)] = none ∧
    firstError [stackError sup.mode 4 (sup.reg sp), operandError sup (.ind 4)] = some .alignment := by decide

theorem test_witness_InputResult :
    operandError sup (.ind 4) = some .alignment ∧ usr.mi = false ∧
    (sup.mi = true ∧ operandError sup (.ind 5) = none) ∧ (sup.mi = true ∧ operandError sup (.ind 4) = some .alignment) ∧
    (operandValue sup (.ind 5)).toNat % 32 = 0 := by decide

theorem test_witness_OutputResult :
    operandError sup (.ind 4) = some .alignment ∧ operandError sup (.ind 5) = none ∧
    firstError [operandError sup (.reg 1), privilegeError sup] = none ∧
    firstError [operandError usr (.reg 1), privilegeError usr] = some .privilegeViolation ∧
    firstError [operandError usr (.ind 6), privilegeError usr] = some .protection ∧
    (8#5).toNat = 8 ∧ (12#5).toNat = 12 ∧ operandValue sup (.reg 1) = 0#32 := by decide

theorem test_witness_SetSupervisorStack :
    firstError [accessError sup.mode 4 0x09100#20, privilegeError sup,
      targetError ((sup.wordAt (0x09100#20).toNat).extractLsb' 0 20)] = none ∧
    firstError [operandError usr (.reg 4), privilegeError usr,
      targetError ((operandValue usr (.reg 4)).extractLsb' 0 20)] = some .privilegeViolation ∧
    firstError [operandError sup (.reg 4), privilegeError sup,
      targetError ((operandValue sup (.reg 4)).extractLsb' 0 20)] = some .alignment ∧
    firstError [operandError sup (.ind 5), privilegeError sup,
      targetError ((operandValue sup (.ind 5)).extractLsb' 0 20)] = none := by decide

theorem test_witness_HaltStops :
    firstError [privilegeError sup] = none ∧ firstError [privilegeError usr] = some .privilegeViolation := by decide

theorem test_witness_PrivilegedOnlyInSupervisorMode :
    (isPrivileged .halt = true ∧ usr.mi = false) ∧ exec .halt usr = .fault (.privilegeViolation usr) := ⟨by decide, rfl⟩

/-- Vector 63 in user mode, with just room for its frame. -/
theorem test_witness_InterruptEntersFromUserMode :
    (word 0x000fc 0x80000400#32 usr).wordAt (4 * (63 : IntVec).val) = 0x80000400#32 ∧ usr.mi = false ∧
    (0x80000400#32).getLsbD 31 = true ∧ (0x80000400#32).toNat / 2 ^ 20 % 2 ^ 11 = 0 ∧ (0x80000400#32).toNat % 4 = 0 ∧
    (sspIs 12#20 usr).ssp.toNat % 4 = 0 ∧ 12 ≤ (sspIs 12#20 usr).ssp.toNat := by decide

/-- The stack just large enough, and at the top of memory. -/
theorem test_witness_InterruptEntersFromSupervisorMode :
    (word 0x00000 0x80000400#32 sup).wordAt (4 * (0 : IntVec).val) = 0x80000400#32 ∧ sup.mi = true ∧
    (0x80000400#32).getLsbD 31 = true ∧ (0x80000400#32).toNat / 2 ^ 20 % 2 ^ 11 = 0 ∧ (0x80000400#32).toNat % 4 = 0 ∧
    (((reg 15 8#32 sup).reg sp).toNat = 8 ∧ 8 % 4 = 0 ∧ 8 ≤ 2 ^ 20) ∧
    (((reg 15 0x00100000#32 sup).reg sp).toNat = 2 ^ 20 ∧ 2 ^ 20 % 4 = 0 ∧ 8 ≤ 2 ^ 20) := by decide

theorem test_witness_InterruptNotEntered :
    (sup.wordAt (4 * (8 : IntVec).val)).getLsbD 31 = false ∧
    ((word 0x00020 0x80100400#32 sup).wordAt (4 * (8 : IntVec).val) = 0x80100400#32 ∧
      (0x80100400#32).getLsbD 31 = true ∧ (0x80100400#32).toNat / 2 ^ 20 % 2 ^ 11 ≠ 0) ∧
    ((entering sup).wordAt (4 * (8 : IntVec).val) = 0x80000400#32 ∧ (0x80000400#32).getLsbD 31 = true ∧
      (0x80000400#32).toNat / 2 ^ 20 % 2 ^ 11 = 0) ∧
    (usr.mi = false ∧ (entering usr |> sspIs 8#20).ssp.toNat % 4 = 0 ∧ (entering usr |> sspIs 8#20).ssp.toNat < 12) ∧
    ((entering usr |> sspIs 3#20).mi = false ∧ (entering usr |> sspIs 3#20).ssp.toNat % 4 ≠ 0 ∧
      (entering usr |> sspIs 5#20).mi = false ∧ (entering usr |> sspIs 5#20).ssp.toNat % 4 ≠ 0) ∧
    (((entering sup |> reg 15 3#32).reg sp).toNat % 4 ≠ 0 ∧ ((entering sup |> reg 15 3#32).reg sp).toNat < 4) ∧
    (((entering sup |> reg 15 0x00100005#32).reg sp).toNat % 4 ≠ 0 ∧
      2 ^ 20 + 4 ≤ ((entering sup |> reg 15 0x00100005#32).reg sp).toNat) ∧
    ((entering sup).mi = true ∧ ((entering sup |> reg 15 4#32).reg sp).toNat = 4) ∧
    (((entering sup |> reg 15 0x00100004#32).reg sp).toNat % 4 = 0 ∧
      2 ^ 20 < ((entering sup |> reg 15 0x00100004#32).reg sp).toNat) ∧
    (((entering sup |> reg 15 0x00100003#32).reg sp).toNat % 4 ≠ 0 ∧
      ((entering sup |> reg 15 0x00100003#32).reg sp).toNat < 2 ^ 20 + 4) ∧
    (((entering sup |> reg 15 5#32).reg sp).toNat % 4 ≠ 0 ∧ 4 ≤ ((entering sup |> reg 15 5#32).reg sp).toNat) ∧
    ((word 0x00020 0x80000402#32 sup).wordAt (4 * (8 : IntVec).val) = 0x80000402#32 ∧
      (0x80000402#32).getLsbD 31 = true ∧ (0x80000402#32).toNat % 4 ≠ 0 ∧ (sup.reg sp).toNat % 4 = 0 ∧
      8 ≤ (sup.reg sp).toNat ∧ (sup.reg sp).toNat ≤ 2 ^ 20) := by decide

/-- None pending, one, several; step 1 of the cycle that completes and one that raises an error. -/
theorem test_witness_PendingVectorsServedInTurn :
    sup.pending = [] ∧ (pend [8] sup).pending = [8] ∧ (pend [8, 9] sup).pending ≠ [] ∧
    (∃ t, handleInterrupts (pend [8] sup) = .ok t) ∧
    (∃ f, handleInterrupts (pend [8] (word 0x00020 0x80100400#32 sup)) = .error f) :=
  ⟨rfl, rfl, by decide, ⟨_, rfl⟩, ⟨_, rfl⟩⟩

/-- A handler that returns at once. -/
theorem readyToReturn_self {t : State} {n : Nat} (h : t.mi = true) : ReadyToReturn t t n := ⟨h, rfl, fun _ _ _ => rfl⟩

theorem test_witness_HandlerReturnUndoesEntry :
    StateInv (entering usr) ∧ StateInv (entering sup) ∧ (entering usr).mi = false ∧ (entering sup).mi = true ∧
    (∃ t, exec (.scl 3#5) (entering usr) = .next t ∧ ReadyToReturn t t 12) ∧
    (∃ t, exec (.scl 3#5) (entering sup) = .next t ∧ ReadyToReturn t t 12) ∧
    ((entering usr).wordAt (4 * (8 : IntVec).val)).getLsbD 31 = true ∧
    ((entering sup).wordAt (4 * (8 : IntVec).val)).getLsbD 31 = true ∧
    (∃ t, service 8 (entering usr) = .ok t ∧ ReadyToReturn t t 12) ∧
    (∃ t, service 8 (entering sup) = .ok t ∧ ReadyToReturn t t 8) :=
  ⟨by unfold StateInv; decide, by unfold StateInv; decide, by decide, by decide, ⟨_, rfl, readyToReturn_self (by decide)⟩,
    ⟨_, rfl, readyToReturn_self (by decide)⟩, by decide, by decide, ⟨_, rfl, readyToReturn_self (by decide)⟩,
    ⟨_, rfl, readyToReturn_self (by decide)⟩⟩

theorem test_witness_DeviceEvents :
    (63 : IntVec) ≠ 8 ∧ sup.busy = false ∧
    ((deviceEvent sup (.char 0x41#7)).busy = true ∧ 8 ∉ ({ sup with busy := true } : State).pending ∧
      ({ sup with busy := true } : State).busy = true) := by decide

/-- A system call, a handler's return, another instruction; an enabled vector and a disabled one. -/
theorem test_witness_ModeChangedOnlyBy :
    (completes (.scl 3#5) (entering usr) = true ∧ isSystemCall (.scl 3#5) = true) ∧
    (completes .reti sup = true ∧ isHandlerReturn .reti = true) ∧
    (completes .ret sup = true ∧ isSystemCall .ret = false ∧ isHandlerReturn .ret = false) ∧
    (∃ t, service 8 (entering usr) = .ok t) ∧ (∃ t, service 9 (entering usr) = .ok t) :=
  ⟨by decide, by decide, by decide, ⟨_, rfl⟩, ⟨_, rfl⟩⟩

theorem test_witness_FlagsChangedOnlyBy :
    (completes (.negR (.reg 1) (.reg 5)) sup = true ∧ isFlagSetter (.negR (.reg 1) (.reg 5)) = true) ∧
    (completes (.cpy 1 5) sup = true ∧ isFlagSetter (.cpy 1 5) = false ∧ isHandlerReturn (.cpy 1 5) = false) := by
  decide

theorem test_witness_ProgramCounterAndSSPWriters :
    (completes (.cpy 1 5) sup = true ∧ isTransfer (.cpy 1 5) = false ∧ isSSSP (.cpy 1 5) = false) ∧
    (completes (.ssspR (.reg 5)) sup = true ∧ isSSSP (.ssspR (.reg 5)) = true ∧ sup.pc.toNat % 4 = 0) ∧
    (∃ t, service 8 (entering usr) = .ok t) := ⟨by decide, by decide, ⟨_, rfl⟩⟩

theorem test_witness_RegistersWritten :
    completes (.imulW (.reg 7) (.reg 1) (.reg 5)) sup = true ∧ completes (.popwR (.reg 15)) sup = true := by decide

theorem test_witness_MemoryWritten :
    completes (.addR (.ind 5) (.ind 5) (.ind 5)) sup = true ∧ completes (.scl 3#5) (entering usr) = true := by decide

theorem test_witness_UserModeCannotChangeProtected :
    Quiet (at_ 0x20440003#32 usr) ∧ (at_ 0x20440003#32 usr).mi = false ∧
    (gives (at_ 0x20440003#32 usr) fun t => t.mi == false) = true := by
  unfold Quiet; decide

/-- Two states that differ in a protected word. -/
theorem test_witness_UserModeCannotLearnProtected :
    SameOutsideProtected (at_ 0x20440003#32 usr) ((at_ 0x20440003#32 usr).putBytes 0x04000#20 4 0x55555555#32) ∧
    (at_ 0x20440003#32 usr).mi = false ∧ Quiet (at_ 0x20440003#32 usr) ∧
    isSystemCall (.addR (.reg 1) (.reg 2) (.reg 3)) = false ∧
    ∀ n, decode ((at_ 0x20440003#32 usr).wordAt (at_ 0x20440003#32 usr).pc.toNat) ≠ .ok (.scl n) := by
  refine ⟨⟨fun x hx => ?_, rfl⟩, by decide, ⟨rfl, rfl⟩, by decide, by decide⟩
  unfold protectedBelow at hx
  exact (State.memKeptOutside_putBytes _ 0x04000#20 4 0x55555555#32 x (by simp; omega)).symm

end Sys2Proof.Tests
end

/-! # The mode bit (10_state.md R28)

The rules of the mode: what one operation makes of `MI`, then what one instruction makes of it, then the statement. An
operation whose definition has no write of `MS` but `SetFlags` is shown to keep `MI` part by part, along its definition
or along its lemma in Laws/Shapes.lean. -/

namespace Sys2Proof.Machine

/-! ### What the checked reads answer -/

theorem loadWord_eq (priv : Mode) (a : Addr) (s : State) :
    loadWord priv a s = checked (accessError priv 4 a) s (s.wordAt a.toNat) := rfl

theorem loadWord_ok {priv : Mode} {a : Addr} {s : State} {w : Word} (h : loadWord priv a s = .ok w) :
    accessError priv 4 a = none ∧ w = s.wordAt a.toNat := by
  rw [loadWord_eq, checked_eq_ok] at h
  exact ⟨h.1, h.2.symm⟩

/-- The word at the stack top is read at the whole stack pointer, which is an address (R14). -/
theorem stackTop_ok {priv : Mode} {s : State} {w : Word} (h : stackTop priv s = .ok w) :
    (s.reg sp).toNat < 2 ^ 20 ∧ w = s.wordAt (s.reg sp).toNat := by
  rw [stackTop_eq, checked_eq_ok, stackError_eq_none] at h
  obtain ⟨⟨hlt, -⟩, rfl⟩ := h
  exact ⟨hlt, by rw [addrOf_toNat_of_lt hlt]⟩

theorem ivtEntry_toNat (v : IntVec) : (ivtEntry v).toNat = 4 * v.val := by
  have := v.isLt
  simp only [ivtEntry, BitVec.toNat_ofNat]
  omega

/-! ### Results that keep the mode bit -/

/-- Where the result is a state, its `MI` is that of `s`. -/
def KeepsMI (s : State) (r : Except Fault State) : Prop := ∀ t, r = .ok t → t.mi = s.mi

theorem KeepsMI.ok {s t : State} (h : t.mi = s.mi) : KeepsMI s (.ok t) := by
  rintro _ ⟨⟩
  exact h

theorem KeepsMI.error (s : State) (f : Fault) : KeepsMI s (.error f) := nofun

theorem KeepsMI.checked {s u t : State} {e : Option ErrorKind} (h : t.mi = s.mi) : KeepsMI s (checked e u t) := by
  cases e with
  | none => exact .ok h
  | some k => exact .error s _

/-- A value is computed first, which leaves the state alone. -/
theorem KeepsMI.bind_value {α : Type} {s : State} {x : Except Fault α} {f : α → Except Fault State}
    (h : ∀ a, KeepsMI s (f a)) : KeepsMI s (x >>= f) := by
  intro t ht
  obtain ⟨a, -, ha⟩ := except_bind_ok.mp ht
  exact h a t ha

/-- One operation after another. -/
theorem KeepsMI.bind {s : State} {x : Except Fault State} {f : State → Except Fault State}
    (hx : KeepsMI s x) (hf : ∀ u, KeepsMI u (f u)) : KeepsMI s (x >>= f) := by
  intro t ht
  obtain ⟨u, hu, ht⟩ := except_bind_ok.mp ht
  rw [hf u t ht, hx u hu]

theorem KeepsMI.of_next {s t : State} {r : Except Fault State} (hr : KeepsMI s r) (h : outcomeOf r = .next t) :
    t.mi = s.mi :=
  hr t (outcomeOf_eq_next.mp h)

/-! ### The shared operations keep the mode bit -/

theorem State.mi_congr {s t : State} (h : t.ms = s.ms) : t.mi = s.mi := by rw [State.mi, State.mi, h]

@[simp] theorem putOperand_mi (s : State) (d : Operand) (r : Word) : (putOperand s d r).mi = s.mi :=
  State.mi_congr (putOperand_ms s d r)

@[simp] theorem putByte_mi (s : State) (d : Operand) (b : Byte) : (putByte s d b).mi = s.mi := by cases d <;> rfl

@[simp] theorem putShort_mi (s : State) (d : Operand) (h : BitVec 16) : (putShort s d h).mi = s.mi := by
  cases d <;> rfl

@[simp] theorem putDouble_mi (s : State) (d : Operand) (v : BitVec 64) : (putDouble s d v).mi = s.mi := by
  cases d <;> rfl

@[simp] theorem loadInto_mi (dr : RegNum) (v : Word) (s : State) : (loadInto dr v s).mi = s.mi := by
  simp [loadInto]

@[simp] theorem portWrite_mi (p : Port) (v : Word) (s : State) : (portWrite p v s).mi = s.mi := by
  unfold portWrite
  split
  · split <;> rfl
  · split <;> rfl

theorem setPC_keepsMI (a : Addr) (s : State) : KeepsMI s (setPC a s) := by
  rw [setPC_eq]
  exact .checked rfl

theorem push_keepsMI (priv : Mode) (v : Word) (s : State) : KeepsMI s (push priv v s) := by
  rw [push_eq]
  exact .checked rfl

theorem store_keepsMI {w : Nat} (priv : Mode) (a : Addr) (n : Nat) (v : BitVec w) (s : State) :
    KeepsMI s (store priv a n v s) :=
  .checked rfl

theorem writeDest_keepsMI (d : Operand) (v : Word) (s : State) : KeepsMI s (writeDest s.mode (destOf d s) v s) := by
  rw [writeDest_eq]
  exact .checked (putOperand_mi s d v)

theorem writeDestByte_keepsMI (d : Operand) (b : Byte) (s : State) :
    KeepsMI s (writeDestByte s.mode (destOf d s) b s) := by
  rw [writeDestByte_eq]
  exact .checked (putByte_mi s d b)

theorem writeDestShort_keepsMI (d : Operand) (v : BitVec 16) (s : State) :
    KeepsMI s (writeDestShort s.mode (destOf d s) v s) := by
  rw [writeDestShort_eq]
  exact .checked (putShort_mi s d v)

theorem privileged_keepsMI (s : State) : KeepsMI s (privileged s) := by
  rw [privileged_eq]
  exact .checked rfl

theorem writeResult_keepsMI (d : Operand) (r : Word) (s : State) : KeepsMI s (writeResult d r s) := by
  rw [writeResult_eq]
  exact .checked (by simp)

/-! ### The shapes of instruction that keep the mode bit -/

theorem binaryOp_keepsMI (f : Word → Word → Word) (d o1 o2 : Operand) (s : State) :
    KeepsMI s (binaryOp f d o1 o2 s) := by
  rw [binaryOp_eq]
  exact .checked (by simp)

theorem binaryImm_keepsMI (f : Word → Word → Word) (d o1 : Operand) (imm : BitVec 16) (s : State) :
    KeepsMI s (binaryImm f d o1 imm s) := by
  rw [binaryImm_eq]
  exact .checked (by simp)

theorem unaryOp_keepsMI (f : Word → Word) (d o : Operand) (s : State) : KeepsMI s (unaryOp f d o s) := by
  rw [unaryOp_eq]
  exact .checked (by simp)

theorem unaryAbs_keepsMI (f : Word → Word) (d : Operand) (a : Addr) (s : State) :
    KeepsMI s (unaryAbs f d a s) := by
  rw [unaryAbs_eq]
  exact .checked (by simp)

theorem binaryShort_keepsMI (f : Word → Word → BitVec 16) (d o1 o2 : Operand) (s : State) :
    KeepsMI s (binaryShort f d o1 o2 s) := by
  rw [binaryShort_eq]
  exact .checked (by simp)

theorem binaryDouble_keepsMI (f : Word → Word → BitVec 64) (d o1 o2 : Operand) (s : State) :
    KeepsMI s (binaryDouble f d o1 o2 s) := by
  rw [binaryDouble_eq]
  exact .checked (by simp)

theorem compareWith_keepsMI (o1 : Operand) (b : Except Fault Word) (s : State) :
    KeepsMI s (compareWith o1 b s) :=
  .bind_value fun _ => .bind_value fun _ => .ok (State.setFlags_mi s _)

theorem loadByteInto_keepsMI (dr : RegNum) (a : Addr) (s : State) : KeepsMI s (loadByteInto dr a s) := by
  rw [loadByteInto_eq]
  exact .checked (loadInto_mi dr _ s)

theorem loadShortInto_keepsMI (dr : RegNum) (a : Addr) (s : State) : KeepsMI s (loadShortInto dr a s) := by
  rw [loadShortInto_eq]
  exact .checked (loadInto_mi dr _ s)

theorem loadWordInto_keepsMI (dr : RegNum) (a : Addr) (s : State) : KeepsMI s (loadWordInto dr a s) := by
  rw [loadWordInto_eq]
  exact .checked (loadInto_mi dr _ s)

theorem jumpIf_keepsMI (taken : Bool) (a : Addr) (s : State) : KeepsMI s (jumpIf taken a s) := by
  cases taken with
  | true => exact setPC_keepsMI a s
  | false => exact .ok rfl

theorem callTo_keepsMI (a : Addr) (s : State) : KeepsMI s (callTo a s) :=
  .bind (push_keepsMI _ _ s) (setPC_keepsMI a)

theorem returnFromCall_keepsMI (s : State) : KeepsMI s (returnFromCall s) :=
  .bind_value fun r => setPC_keepsMI (addrOf r) s.popped

theorem pushOperand_keepsMI (v : Except Fault Word) (s : State) : KeepsMI s (pushOperand v s) :=
  .bind_value fun x => push_keepsMI _ x s

theorem popByte_keepsMI {write : Byte → State → Except Fault State} {s : State}
    (hw : ∀ b, KeepsMI s (write b s)) : KeepsMI s (popByte write s) :=
  .bind_value fun _ => .bind_value fun b => .bind (hw b) fun u => .ok (State.popped_mi u)

theorem popShort_keepsMI {write : BitVec 16 → State → Except Fault State} {s : State}
    (hw : ∀ v, KeepsMI s (write v s)) : KeepsMI s (popShort write s) :=
  .bind_value fun _ => .bind_value fun v => .bind (hw v) fun u => .ok (State.popped_mi u)

theorem popWord_keepsMI {write : Word → State → Except Fault State} {s : State}
    (hw : ∀ v, KeepsMI s (write v s)) : KeepsMI s (popWord write s) :=
  .bind_value fun v => .bind (hw v) fun u => .ok (State.popped_mi u)

theorem inputFrom_keepsMI (d : Operand) (p : Port) (s : State) : KeepsMI s (inputFrom d p s) :=
  .bind (privileged_keepsMI s) fun u => writeResult_keepsMI d _ u.afterPortRead

theorem outputTo_keepsMI (p : Port) (v : Word) (s : State) : KeepsMI s (outputTo p v s) :=
  .bind (privileged_keepsMI s) fun u => .ok (portWrite_mi p v u)

theorem setSSP_keepsMI (a : Addr) (s : State) : KeepsMI s (setSSP a s) := by
  refine .bind (privileged_keepsMI s) fun u => ?_
  split
  · exact .error u _
  · exact .ok rfl

theorem haltMachine_keepsMI (s : State) : KeepsMI s (haltMachine s) :=
  .bind (privileged_keepsMI s) fun _ => .ok rfl

/-- Every instruction but SCL and RETI/RETS keeps `MI` (R28). -/
theorem exec_mi_kept {i : Instr} {s t : State} (h : exec i s = .next t) (hc : isSystemCall i = false)
    (hr : isHandlerReturn i = false) : t.mi = s.mi := by
  cases i with
  | addR | subR | andR | orR | xorR | imulS | umulS => exact (binaryOp_keepsMI _ _ _ _ s).of_next h
  | addI | subI | andI | orI | xorI => exact (binaryImm_keepsMI _ _ _ _ s).of_next h
  | imulB | umulB => exact (binaryShort_keepsMI _ _ _ _ s).of_next h
  | imulW | umulW => exact (binaryDouble_keepsMI _ _ _ _ s).of_next h
  | negA | notA => exact (unaryAbs_keepsMI _ _ _ s).of_next h
  | negR | notR | shfl | shfrl | shfra => exact (unaryOp_keepsMI _ _ _ s).of_next h
  | cmpR | cmpI => exact (compareWith_keepsMI _ _ s).of_next h
  | jcA | jcR => exact (jumpIf_keepsMI _ _ s).of_next h
  | jmpA | jmpR => exact (setPC_keepsMI _ s).of_next h
  | callA | callR => exact (callTo_keepsMI _ s).of_next h
  | scl => cases hc
  | ret => exact (returnFromCall_keepsMI s).of_next h
  | reti | rets => cases hr
  | ldbA | ldbR => exact (loadByteInto_keepsMI _ _ s).of_next h
  | ldsA | ldsR => exact (loadShortInto_keepsMI _ _ s).of_next h
  | ldwA | ldwR => exact (loadWordInto_keepsMI _ _ s).of_next h
  | stbA | stbR | stsA | stsR | stwA | stwR => exact (store_keepsMI _ _ _ _ s).of_next h
  | cpyI | cpyU | cpy => exact (KeepsMI.ok (State.setReg_mi s _ _)).of_next h
  | pushI | pushU => exact (push_keepsMI _ _ s).of_next h
  | pushbA | pushbR | pushsA | pushsR | pushwA | pushwR => exact (pushOperand_keepsMI _ s).of_next h
  | popbA a => exact (popByte_keepsMI fun b => store_keepsMI _ a 1 b s).of_next h
  | popbR d => exact (popByte_keepsMI fun b => writeDestByte_keepsMI d b s).of_next h
  | popsA a => exact (popShort_keepsMI fun v => store_keepsMI _ a 2 v s).of_next h
  | popsR d => exact (popShort_keepsMI fun v => writeDestShort_keepsMI d v s).of_next h
  | popwA a => exact (popWord_keepsMI fun v => store_keepsMI _ a 4 v s).of_next h
  | popwR d => exact (popWord_keepsMI fun v => writeDest_keepsMI d v s).of_next h
  | inI d => exact (inputFrom_keepsMI d _ s).of_next h
  | inR d => exact (KeepsMI.bind_value fun _ => inputFrom_keepsMI d _ s).of_next h
  | outI => exact (KeepsMI.bind_value fun v => outputTo_keepsMI _ v s).of_next h
  | outR => exact (KeepsMI.bind_value fun _ => .bind_value fun v => outputTo_keepsMI _ v s).of_next h
  | ssspA | ssspR => exact (KeepsMI.bind_value fun v => setSSP_keepsMI (addrOf v) s).of_next h
  | halt => exact (haltMachine_keepsMI s).of_next h

/-! ### The writers of the mode bit -/

theorem enterHandler_mi {e : Word} {switch : Bool} {s t : State} (h : enterHandler e switch s = .ok t) :
    t.mi = true := by
  obtain ⟨-, _, _, s3, -, -, -, -, rfl⟩ := enterHandler_ok h
  exact State.setMI_mi s3

theorem systemCall_mi {n : BitVec 5} {s t : State} (h : systemCall n s = .ok t) : t.mi = true := by
  obtain ⟨e, -, -, h⟩ := systemCall_ok h
  exact enterHandler_mi h

/-- The image of `MS` lies in the word above the return address; its bit 16 is the mode returned to (R165). -/
theorem returnFromHandler_mi {s t : State} (h : returnFromHandler s = .ok t) :
    t.mi = (s.wordAt ((s.reg sp).toNat + 4)).getLsbD 16 := by
  obtain ⟨r, m, s1, hr, hpc, hm, -, ht⟩ := returnFromHandler_ok h
  obtain ⟨hlt, -⟩ := stackTop_ok hr
  rw [setPC_eq, checked_eq_ok] at hpc
  obtain ⟨-, rfl⟩ := hpc
  obtain ⟨-, hms⟩ := stackTop_ok hm
  have hsp : (s.popped.reg sp).toNat = (s.reg sp).toNat + 4 := by
    rw [State.popped_reg_sp, BitVec.toNat_add]
    simp only [BitVec.toNat_ofNat]
    omega
  have himage : m = s.wordAt ((s.reg sp).toNat + 4) := by
    rw [← hsp]
    exact hms
  have htm : t.mi = m.getLsbD 16 := by
    obtain ⟨-, rfl⟩ | ⟨-, u, -, rfl⟩ := ht <;> rfl
  rw [htm, himage]

theorem privilegedReturn_mi {s t : State} (h : privilegedReturn s = .ok t) :
    t.mi = (s.wordAt ((s.reg sp).toNat + 4)).getLsbD 16 := by
  obtain ⟨s1, h1, h⟩ := except_bind_ok.mp h
  rw [privileged_eq, checked_eq_ok] at h1
  obtain ⟨-, rfl⟩ := h1
  exact returnFromHandler_mi h

theorem exec_mi_of_systemCall {i : Instr} {s t : State} (h : exec i s = .next t) (hc : isSystemCall i = true) :
    t.mi = true := by
  cases i with
  | scl n => exact systemCall_mi (outcomeOf_eq_next.mp h)
  | _ => cases hc

theorem exec_mi_of_handlerReturn {i : Instr} {s t : State} (h : exec i s = .next t)
    (hr : isHandlerReturn i = true) : t.mi = (s.wordAt ((s.reg sp).toNat + 4)).getLsbD 16 := by
  cases i with
  | reti | rets => exact privilegedReturn_mi (outcomeOf_eq_next.mp h)
  | _ => cases hr

/-- Serving a vector sets `MI` if its entry is enabled, and keeps it else (R247). -/
theorem service_mi {v : IntVec} {s t : State} (h : service v s = .ok t) :
    t.mi = ((s.wordAt (4 * v.val)).getLsbD 31 || s.mi) := by
  obtain ⟨e, he, hcase⟩ := service_ok h
  obtain ⟨-, rfl⟩ := loadWord_ok he
  rw [ivtEntry_toNat, entryEnabled] at hcase
  obtain ⟨hdis, rfl⟩ | ⟨hen, h⟩ := hcase
  · rw [hdis, Bool.false_or]
  · rw [hen, Bool.true_or]
    exact enterHandler_mi h

/-- Settles O50: the mode is read off `MI` by definition; each instruction is a writer of `MI` or is a shape that
keeps it; interrupt service enters a handler or does nothing. -/
theorem modeChangedOnlyBy : Obligations.ModeChangedOnlyBy := by
  refine ⟨rfl, fun s => ⟨s.mode_eq_supervisor_iff, s.mode_eq_user_iff⟩, fun i s t h => ?_, fun v s t h => ?_⟩
  · exact ⟨exec_mi_of_systemCall h, exec_mi_of_handlerReturn h, exec_mi_kept h⟩
  · constructor
    · intro hen
      rw [service_mi h, hen, Bool.true_or]
    · intro hdis
      rw [service_mi h, hdis, Bool.false_or]

end Sys2Proof.Machine

/-! # The copies (43_load_store_copy.md R186 to R188)

The words of the copies are those of the encoder's formats, so the decoder reads them field by field as Laws/Encode.lean
says; each copy is one register write. -/

namespace Sys2Proof

/-! ### The words of the copies -/

theorem decode_eq_decodeCpy {w : Word} (h : field w 27 5 = 0b00010#5) : decode w = decodeCpy w := by
  simp only [decode, h, BitVec.toNat_ofNat]

/-- The selector of the immediate form tells CPYI from CPYU (R102). -/
theorem decode_fmtCpyI (sel : BitVec 2) (dr : RegNum) (imm : BitVec 16) {i : Instr}
    (h : sel = 0b00#2 ∧ i = .cpyI dr imm ∨ sel = 0b01#2 ∧ i = .cpyU dr imm) :
    decode (fmtCpyI sel dr imm) = .ok i := by
  obtain ⟨hop, hzero, hdr, hsel, himm⟩ := fmtCpyI_fields sel dr imm
  rw [decode_eq_decodeCpy hop]
  obtain ⟨rfl, rfl⟩ | ⟨rfl, rfl⟩ := h
  · simp [decodeCpy, accept, fieldZero, hzero, hdr, hsel, himm]
  · simp [decodeCpy, accept, fieldZero, hzero, hdr, hsel, himm]

theorem decode_fmtCpy (dr sr : RegNum) : decode (fmtCpy dr sr) = .ok (.cpy dr sr) := by
  obtain ⟨hop, hzero, hdr, hsel, hzero', hsr⟩ := fmtCpy_fields dr sr
  rw [decode_eq_decodeCpy hop]
  simp [decodeCpy, accept, fieldZero, hzero, hdr, hsel, hzero', hsr]

end Sys2Proof

namespace Sys2Proof.Machine

/-! ### The immediates as numbers (R109) -/

theorem signImm_eq_ofInt (imm : BitVec 16) : signImm imm = BitVec.ofInt 32 imm.toInt := rfl

theorem zeroImm_eq_ofNat (imm : BitVec 16) : zeroImm imm = BitVec.ofNat 32 imm.toNat :=
  (BitVec.ofNat_toNat 32 imm).symm

/-! ### What a copy does -/

theorem exec_cpyI (dr : RegNum) (imm : BitVec 16) (s : State) :
    exec (.cpyI dr imm) s = .next (s.setReg dr (signImm imm)) := rfl

theorem exec_cpyU (dr : RegNum) (imm : BitVec 16) (s : State) :
    exec (.cpyU dr imm) s = .next (s.setReg dr (zeroImm imm)) := rfl

theorem exec_cpy (dr sr : RegNum) (s : State) : exec (.cpy dr sr) s = .next (s.setReg dr (s.reg sr)) := rfl

theorem onlyRegWritten_setReg (s : State) (n : RegNum) (v : Word) : OnlyRegWritten s (s.setReg n v) n v :=
  ⟨State.setReg_reg_self s n v, regsKept_setReg s n v, State.setReg_byteAt s n v, State.setReg_ms s n v,
    State.setReg_pc s n v, systemKept_putOperand s (.reg n) v⟩

/-- Settles O34: the three words are the encoder's formats, and each copy is one `setReg`. -/
theorem copyResults : Obligations.CopyResults := by
  intro dr sr imm s
  refine ⟨decode_fmtCpyI 0b00#2 dr imm (.inl ⟨rfl, rfl⟩), decode_fmtCpyI 0b01#2 dr imm (.inr ⟨rfl, rfl⟩),
    decode_fmtCpy dr sr, ?signed, ?unsigned, ?register⟩
  case signed =>
    rw [← signImm_eq_ofInt]
    exact ⟨_, exec_cpyI dr imm s, onlyRegWritten_setReg s dr _⟩
  case unsigned =>
    rw [← zeroImm_eq_ofNat]
    exact ⟨_, exec_cpyU dr imm s, onlyRegWritten_setReg s dr _⟩
  case register => exact ⟨_, exec_cpy dr sr s, onlyRegWritten_setReg s dr _⟩

end Sys2Proof.Machine

/-! # Start-up (70_reset_and_hazards.md R280)

The reset table element by element. Registers and the system registers are read off the initial state; the parts of the
table that speak of every address come from the rule of a memory in which nothing is listed: the two tables below
`0x00200` are zero, and every other byte is `INIT_MEM`. -/

namespace Sys2Proof.Machine

/-! ### Memory in which nothing is listed -/

theorem Memory.byte_nil (a : Nat) : Memory.byte [] a = if a < 0x200 then 0#8 else Config.initMem a := by
  unfold Memory.byte Memory.lookup Memory.unlisted
  split <;> rfl

theorem State.reset_byteAt (a : Nat) : State.reset.byteAt a = if a < 0x200 then 0#8 else Config.initMem a :=
  Memory.byte_nil a

/-! ### The registers at reset -/

theorem State.reset_reg (r : RegNum) : State.reset.reg r = 0#32 := by
  simp [State.reg, State.reset]

theorem State.reset_mode : State.reset.mode = .supervisor := State.reset.mode_eq_supervisor_iff.mpr rfl

/-! ### The first fetch -/

/-- The first fetch passes its checks: `0x00200` is a multiple of 4, and supervisor mode may read below `0x08000`. -/
theorem fetch_reset : fetch State.reset = .ok (State.reset.wordAt 0x00200) := by
  have hcheck : accessError State.reset.mode 4 State.reset.pc = none :=
    accessError_eq_none.mpr ⟨rfl, by simp [State.reset_mode]⟩
  rw [fetch, loadWord_eq, hcheck, checked_none]
  rfl

/-- Settles O1: the table's values row by row, and the first fetch with its checks. -/
theorem resetState : Obligations.ResetState := by
  refine ⟨State.reset_reg, rfl, rfl, rfl, rfl, rfl, rfl, rfl, ?tables, ?initMem, fetch_reset⟩
  case tables =>
    intro a ha
    rw [State.reset_byteAt, if_pos ha]
  case initMem =>
    intro a hlow _
    rw [State.reset_byteAt, if_neg (Nat.not_lt.mpr hlow)]

end Sys2Proof.Machine

/-! # What an instruction may change (10_state.md, 20_memory.md section 5)

One statement for all instructions: the footprint of an instruction names the registers, the bytes, the part of `MS`,
the program counter and the supervisor stack pointer it may write, and every completed instruction stays within its
footprint. The rules over all instructions are read off it. -/

namespace Sys2Proof.Machine

/-! ### Footprints -/

/-- What an instruction writes into `MS`: nothing, the flags of a result (R12), `MI` (R163), an image with no reserved
bit set (R165). -/
inductive MsWrite where
  | keep
  | flags
  | enter
  | load

/-- What holds of `MS` before and after it is written. -/
def MsWrite.Holds : MsWrite → Word → Word → Prop
  | .keep, m, m' => m' = m
  | .flags, m, m' => ∃ (w : Nat) (v : BitVec w), m' = withFlags m (zeroFlag v) (positiveFlag v) (negativeFlag v)
  | .enter, m, m' => m' = m ||| 0x00010000#32
  | .load, _, m' => msReservedZero m' = true

/-- What may be written, and with which privilege the bytes are. -/
structure Footprint where
  priv : Mode
  regs : List RegNum
  bytes : Nat × Nat
  ms : MsWrite
  jumps : Bool
  setsSSP : Bool

/-- From one state to another nothing has changed but what a footprint names, and what has changed is well-formed. -/
structure Within (f : Footprint) (s t : State) : Prop where
  regs : RegsKept s t f.regs
  inSpace : f.bytes.1 + f.bytes.2 ≤ 2 ^ 20
  allowed : f.priv = .user → f.bytes.2 = 0 ∨ protectedBelow ≤ f.bytes.1
  mem : ∀ x, ¬(f.bytes.1 ≤ x ∧ x < f.bytes.1 + f.bytes.2) → t.byteAt x = s.byteAt x
  wf : Memory.wf s.mem = true → Memory.wf t.mem = true
  ms : f.ms.Holds s.ms t.ms
  pc : f.jumps = false → t.pc = s.pc
  aligned : s.pc.toNat % 4 = 0 → t.pc.toNat % 4 = 0
  ssp : if f.setsSSP then t.ssp.toNat % 4 = 0 else t.ssp = s.ssp
  pending : t.pending = s.pending
  system : s.mi = false → SystemKept s t

/-- The footprint of an instruction. The accesses of SCL are system accesses (R59). -/
def footprint (s : State) (i : Instr) : Footprint where
  priv := if isSystemCall i then .supervisor else s.mode
  regs := writtenRegs i
  bytes := storedBytes s i
  ms := if isFlagSetter i then .flags else if isSystemCall i then .enter else if isHandlerReturn i then .load else .keep
  jumps := isTransfer i
  setsSSP := isSSSP i

/-! ### Writes, one after the other -/

theorem within_self (priv : Mode) (s : State) : Within ⟨priv, [], (0, 0), .keep, false, false⟩ s s where
  regs := regsKept_refl s []
  inSpace := Nat.zero_le _
  allowed _ := .inl rfl
  mem _ _ := rfl
  wf := id
  ms := rfl
  pc _ := rfl
  aligned := id
  ssp := rfl
  pending := rfl
  system _ := systemKept_refl s

section
variable {f : Footprint} {s t : State}

theorem Within.mono_regs (h : Within f s t) {rs : List RegNum} (hsub : ∀ r ∈ f.regs, r ∈ rs) :
    Within { f with regs := rs } s t :=
  { h with regs := fun r hr => h.regs r fun hm => hr (hsub r hm) }

theorem Within.setReg (h : Within f s t) (n : RegNum) (v : Word) :
    Within { f with regs := n :: f.regs } s (t.setReg n v) :=
  { h with
    regs := fun r hr => by
      obtain ⟨hne, hr⟩ := List.ne_and_not_mem_of_not_mem_cons hr
      rw [State.setReg_reg_ne t v hne, h.regs r hr] }

theorem Within.popped (h : Within f s t) : Within { f with regs := sp :: f.regs } s t.popped :=
  h.setReg sp _

/-- The low bytes of an access that is allowed are stored, and these are the only bytes. -/
theorem Within.putBytes (h : Within f s t) (hb : f.bytes = (0, 0)) {a : Addr} {n k w : Nat} (hk : k ∣ 2 ^ 20)
    (hn : n ≤ k) (ha : accessError f.priv k a = none) (v : BitVec w) :
    Within { f with bytes := (a.toNat, n) } s (t.putBytes a n v) := by
  have hin : a.toNat + n ≤ 2 ^ 20 := Nat.le_trans (Nat.add_le_add_left hn _) (access_in_range hk ha)
  have hmem : ∀ x, t.byteAt x = s.byteAt x := fun x => h.mem x (by rw [hb]; omega)
  exact { h with
    inSpace := hin
    allowed := fun hu => .inr ((accessError_eq_none.mp ha).2 hu)
    mem := fun x hx => by rw [State.byteAt_putBytes, if_neg hx, hmem]
    wf := fun hs => State.putBytes_wf v hin (h.wf hs) }

theorem Within.setFlags (h : Within f s t) (hms : f.ms = .keep) {w : Nat} (v : BitVec w) :
    Within { f with ms := .flags } s (t.setFlags v) :=
  have hkeep : t.ms = s.ms := by simpa only [hms, MsWrite.Holds] using h.ms
  { h with ms := ⟨w, v, by rw [State.setFlags_ms, hkeep]⟩ }

theorem Within.setPC (h : Within f s t) {a : Addr} (ha : a.toNat % 4 = 0) :
    Within { f with jumps := true } s { t with pc := a } :=
  { h with pc := nofun, aligned := fun _ => ha }

end

/-! ### Destinations -/

theorem putOperand_within {s : State} {d : Operand} (h : operandError s d = none) (v : Word) :
    Within ⟨s.mode, destRegs d, destBytes s 4 d, .keep, false, false⟩ s (putOperand s d v) := by
  cases d with
  | reg n => exact (within_self s.mode s).setReg n v
  | ind n => exact (within_self s.mode s).putBytes rfl (by decide) le_rfl h v

theorem putShort_within {s : State} {d : Operand} (h : operandError s d = none) (v : BitVec 16) :
    Within ⟨s.mode, destRegs d, destBytes s 2 d, .keep, false, false⟩ s (putShort s d v) := by
  cases d with
  | reg n => exact (within_self s.mode s).setReg n _
  | ind n => exact (within_self s.mode s).putBytes rfl (by decide) (by decide : 2 ≤ 4) h v

theorem putByte_within {s : State} {d : Operand} (h : operandError s d = none) (v : Byte) :
    Within ⟨s.mode, destRegs d, destBytes s 1 d, .keep, false, false⟩ s (putByte s d v) := by
  cases d with
  | reg n => exact (within_self s.mode s).setReg n _
  | ind n => exact (within_self s.mode s).putBytes rfl (by decide) (by decide : 1 ≤ 4) h v

theorem putDouble_within {s : State} {d : Operand} (h : doubleError s d = none) (v : BitVec 64) :
    Within ⟨s.mode, destPair d, destBytes s 8 d, .keep, false, false⟩ s (putDouble s d v) := by
  cases d with
  | reg n =>
    exact (((within_self s.mode s).setReg n _).setReg (nextReg n) _).mono_regs fun r hr => by
      simp only [destPair, ← nextReg_eq_pairOf, List.mem_cons, List.not_mem_nil, or_false] at hr ⊢
      exact hr.symm
  | ind n => exact (within_self s.mode s).putBytes rfl (by decide) le_rfl h v

/-! ### Shapes of instruction -/

section
variable {s t : State}

/-- Where a list of checks is passed, the last of them is. -/
theorem checks_passed {es : List (Option ErrorKind)} {u : State} (h : checked (firstError es) s u = .ok t) :
    (∀ e ∈ es, e = none) ∧ u = t := by
  rw [checked_eq_ok, firstError_eq_none] at h
  exact h

theorem binaryOp_within {f : Word → Word → Word} {d o1 o2 : Operand} (h : binaryOp f d o1 o2 s = .ok t) :
    Within ⟨s.mode, destRegs d, destBytes s 4 d, .flags, false, false⟩ s t := by
  rw [binaryOp_eq] at h
  obtain ⟨hes, rfl⟩ := checks_passed h
  exact (putOperand_within (hes _ (by simp)) _).setFlags rfl _

theorem binaryImm_within {f : Word → Word → Word} {d o1 : Operand} {imm : BitVec 16}
    (h : binaryImm f d o1 imm s = .ok t) :
    Within ⟨s.mode, destRegs d, destBytes s 4 d, .flags, false, false⟩ s t := by
  rw [binaryImm_eq] at h
  obtain ⟨hes, rfl⟩ := checks_passed h
  exact (putOperand_within (hes _ (by simp)) _).setFlags rfl _

theorem unaryOp_within {f : Word → Word} {d o : Operand} (h : unaryOp f d o s = .ok t) :
    Within ⟨s.mode, destRegs d, destBytes s 4 d, .flags, false, false⟩ s t := by
  rw [unaryOp_eq] at h
  obtain ⟨hes, rfl⟩ := checks_passed h
  exact (putOperand_within (hes _ (by simp)) _).setFlags rfl _

theorem unaryAbs_within {f : Word → Word} {d : Operand} {a : Addr} (h : unaryAbs f d a s = .ok t) :
    Within ⟨s.mode, destRegs d, destBytes s 4 d, .flags, false, false⟩ s t := by
  rw [unaryAbs_eq] at h
  obtain ⟨hes, rfl⟩ := checks_passed h
  exact (putOperand_within (hes _ (by simp)) _).setFlags rfl _

theorem binaryShort_within {f : Word → Word → BitVec 16} {d o1 o2 : Operand} (h : binaryShort f d o1 o2 s = .ok t) :
    Within ⟨s.mode, destRegs d, destBytes s 2 d, .flags, false, false⟩ s t := by
  rw [binaryShort_eq] at h
  obtain ⟨hes, rfl⟩ := checks_passed h
  exact (putShort_within (hes _ (by simp)) _).setFlags rfl _

theorem binaryDouble_within {f : Word → Word → BitVec 64} {d o1 o2 : Operand}
    (h : binaryDouble f d o1 o2 s = .ok t) :
    Within ⟨s.mode, destPair d, destBytes s 8 d, .flags, false, false⟩ s t := by
  rw [binaryDouble_eq] at h
  obtain ⟨hes, rfl⟩ := checks_passed h
  exact (putDouble_within (hes _ (by simp)) _).setFlags rfl _

theorem compareWith_within {o : Operand} {b : Except Fault Word} (h : compareWith o b s = .ok t) :
    Within ⟨s.mode, [], (0, 0), .flags, false, false⟩ s t := by
  obtain ⟨x, -, h⟩ := except_bind_ok.mp h
  obtain ⟨y, -, h⟩ := except_bind_ok.mp h
  obtain rfl := Except.ok.inj h
  exact (within_self s.mode s).setFlags rfl _

theorem loadInto_within (dr : RegNum) (v : Word) (s : State) :
    Within ⟨s.mode, [dr], (0, 0), .flags, false, false⟩ s (loadInto dr v s) :=
  ((within_self s.mode s).setReg dr v).setFlags rfl v

theorem loadByteInto_within {dr : RegNum} {a : Addr} (h : loadByteInto dr a s = .ok t) :
    Within ⟨s.mode, [dr], (0, 0), .flags, false, false⟩ s t := by
  rw [loadByteInto_eq] at h
  obtain ⟨-, rfl⟩ := checks_passed h
  exact loadInto_within dr _ s

theorem loadShortInto_within {dr : RegNum} {a : Addr} (h : loadShortInto dr a s = .ok t) :
    Within ⟨s.mode, [dr], (0, 0), .flags, false, false⟩ s t := by
  rw [loadShortInto_eq] at h
  obtain ⟨-, rfl⟩ := checks_passed h
  exact loadInto_within dr _ s

theorem loadWordInto_within {dr : RegNum} {a : Addr} (h : loadWordInto dr a s = .ok t) :
    Within ⟨s.mode, [dr], (0, 0), .flags, false, false⟩ s t := by
  rw [loadWordInto_eq] at h
  obtain ⟨-, rfl⟩ := checks_passed h
  exact loadInto_within dr _ s

theorem store_within {a : Addr} {n w : Nat} {v : BitVec w} (hn : n ∣ 2 ^ 20) (h : store s.mode a n v s = .ok t) :
    Within ⟨s.mode, [], (a.toNat, n), .keep, false, false⟩ s t := by
  obtain ⟨ha, rfl⟩ := checked_eq_ok.mp h
  exact (within_self s.mode s).putBytes rfl hn le_rfl ha v

theorem push_within {priv : Mode} {v : Word} (h : push priv v s = .ok t) :
    Within ⟨priv, [sp], ((addrOf (s.reg sp - 4#32)).toNat, 4), .keep, false, false⟩ s t := by
  rw [push_eq, checked_eq_ok, stackError_eq_none] at h
  obtain ⟨⟨-, ha⟩, rfl⟩ := h
  exact ((within_self priv s).setReg sp _).putBytes rfl (by decide) le_rfl ha v

theorem pushOperand_within {x : Except Fault Word} (h : pushOperand x s = .ok t) :
    Within ⟨s.mode, [sp], ((addrOf (s.reg sp - 4#32)).toNat, 4), .keep, false, false⟩ s t := by
  obtain ⟨v, -, h⟩ := except_bind_ok.mp h
  exact push_within h

theorem popByte_within {f : Footprint} {write : Byte → State → Except Fault State}
    (hw : ∀ b u, write b s = .ok u → Within f s u) (h : popByte write s = .ok t) :
    Within { f with regs := sp :: f.regs } s t := by
  obtain ⟨a, -, h⟩ := except_bind_ok.mp h
  obtain ⟨b, -, h⟩ := except_bind_ok.mp h
  obtain ⟨u, hu, h⟩ := except_bind_ok.mp h
  obtain rfl := Except.ok.inj h
  exact (hw b u hu).popped

theorem popShort_within {f : Footprint} {write : BitVec 16 → State → Except Fault State}
    (hw : ∀ v u, write v s = .ok u → Within f s u) (h : popShort write s = .ok t) :
    Within { f with regs := sp :: f.regs } s t := by
  obtain ⟨a, -, h⟩ := except_bind_ok.mp h
  obtain ⟨v, -, h⟩ := except_bind_ok.mp h
  obtain ⟨u, hu, h⟩ := except_bind_ok.mp h
  obtain rfl := Except.ok.inj h
  exact (hw v u hu).popped

theorem popWord_within {f : Footprint} {write : Word → State → Except Fault State}
    (hw : ∀ v u, write v s = .ok u → Within f s u) (h : popWord write s = .ok t) :
    Within { f with regs := sp :: f.regs } s t := by
  obtain ⟨v, -, h⟩ := except_bind_ok.mp h
  obtain ⟨u, hu, h⟩ := except_bind_ok.mp h
  obtain rfl := Except.ok.inj h
  exact (hw v u hu).popped

theorem writeDestByte_within {d : Operand} {b : Byte} (h : writeDestByte s.mode (destOf d s) b s = .ok t) :
    Within ⟨s.mode, destRegs d, destBytes s 1 d, .keep, false, false⟩ s t := by
  rw [writeDestByte_eq, checked_eq_ok] at h
  obtain ⟨hd, rfl⟩ := h
  exact putByte_within hd b

theorem writeDestShort_within {d : Operand} {v : BitVec 16} (h : writeDestShort s.mode (destOf d s) v s = .ok t) :
    Within ⟨s.mode, destRegs d, destBytes s 2 d, .keep, false, false⟩ s t := by
  rw [writeDestShort_eq, checked_eq_ok] at h
  obtain ⟨hd, rfl⟩ := h
  exact putShort_within hd v

theorem writeDest_within {d : Operand} {v : Word} (h : writeDest s.mode (destOf d s) v s = .ok t) :
    Within ⟨s.mode, destRegs d, destBytes s 4 d, .keep, false, false⟩ s t := by
  rw [writeDest_eq, checked_eq_ok] at h
  obtain ⟨hd, rfl⟩ := h
  exact putOperand_within hd v

/-! ### Control transfer -/

theorem setPC_within {a : Addr} (h : setPC a s = .ok t) :
    Within ⟨s.mode, [], (0, 0), .keep, true, false⟩ s t := by
  rw [setPC_eq, checked_eq_ok, targetError_eq_none] at h
  obtain ⟨ha, rfl⟩ := h
  exact (within_self s.mode s).setPC ha

theorem jumpIf_within {taken : Bool} {a : Addr} (h : jumpIf taken a s = .ok t) :
    Within ⟨s.mode, [], (0, 0), .keep, true, false⟩ s t := by
  cases taken with
  | true => exact setPC_within h
  | false =>
    obtain rfl := Except.ok.inj h
    exact { within_self s.mode s with pc := nofun }

theorem callTo_within {a : Addr} (h : callTo a s = .ok t) :
    Within ⟨s.mode, [sp], ((addrOf (s.reg sp - 4#32)).toNat, 4), .keep, true, false⟩ s t := by
  obtain ⟨u, hu, ha, rfl⟩ := callTo_ok h
  exact (push_within hu).setPC ha

theorem returnFromCall_within (h : returnFromCall s = .ok t) :
    Within ⟨s.mode, [sp], (0, 0), .keep, true, false⟩ s t := by
  obtain ⟨w, -, ha, rfl⟩ := returnFromCall_ok h
  exact (within_self s.mode s).popped.setPC ha

/-- What follows a privilege test happens in supervisor mode, at the same state (R255). -/
theorem privileged_bind_ok {α : Type} {g : State → Except Fault α} {x : α} (h : (privileged s >>= g) = .ok x) :
    s.mi = true ∧ g s = .ok x := by
  obtain ⟨u, hu, hg⟩ := except_bind_ok.mp h
  rw [privileged_eq, checked_eq_ok, privilegeError] at hu
  obtain ⟨he, rfl⟩ := hu
  refine ⟨?_, hg⟩
  by_contra hmi
  simp [hmi] at he

/-- What happens in supervisor mode may change the system. -/
theorem Within.of_supervisor {f : Footprint} {u : State} (h : Within f s t) (hmi : s.mi = true)
    (hregs : u.regs = t.regs) (hmem : u.mem = t.mem) (hms : u.ms = t.ms) (hpc : u.pc = t.pc)
    (hssp : if f.setsSSP then u.ssp.toNat % 4 = 0 else u.ssp = s.ssp) (hpend : u.pending = t.pending) :
    Within f s u where
  regs r hr := by rw [State.reg, hregs]; exact h.regs r hr
  inSpace := h.inSpace
  allowed := h.allowed
  mem x hx := by rw [State.byteAt, hmem]; exact h.mem x hx
  wf hs := by rw [hmem]; exact h.wf hs
  ms := by rw [hms]; exact h.ms
  pc hj := by rw [hpc]; exact h.pc hj
  aligned ha := by rw [hpc]; exact h.aligned ha
  ssp := hssp
  pending := by rw [hpend]; exact h.pending
  system hu := by simp [hmi] at hu

end

/-! ### Entering a handler and returning from it -/

section
variable {f : Footprint} {s t u : State}

/-- A push that succeeds finds room below the stack pointer (R14). -/
theorem push_ok {priv : Mode} {v : Word} (h : push priv v s = .ok t) :
    4 ≤ (s.reg sp).toNat ∧ (s.reg sp - 4#32).toNat = (s.reg sp).toNat - 4 ∧
      (addrOf (s.reg sp - 4#32)).toNat = (s.reg sp).toNat - 4 ∧ accessError priv 4 (addrOf (s.reg sp - 4#32)) = none ∧
      t = (s.setReg sp (s.reg sp - 4#32)).putBytes (addrOf (s.reg sp - 4#32)) 4 v := by
  rw [push_eq, checked_eq_ok, stackError_eq_none] at h
  obtain ⟨⟨hlt, ha⟩, rfl⟩ := h
  have hsub : 4 ≤ (s.reg sp).toNat ∧ (s.reg sp - 4#32).toNat = (s.reg sp).toNat - 4 := by bv_omega
  exact ⟨hsub.1, hsub.2, by rw [addrOf_toNat_of_lt hlt, hsub.2], ha, rfl⟩

/-- A push adds its word below the bytes stored so far. -/
theorem Within.push {v : Word} (h : Within f s t) (hp : push f.priv v t = .ok u)
    (hb : f.bytes.2 = 0 ∨ f.bytes.1 = (t.reg sp).toNat) :
    Within { f with regs := sp :: f.regs, bytes := ((t.reg sp).toNat - 4, f.bytes.2 + 4) } s u := by
  obtain ⟨hroom, hsp, haddr, ha, rfl⟩ := push_ok hp
  have hword := access_in_range (by decide) ha
  have hin : (t.reg sp).toNat - 4 + (f.bytes.2 + 4) ≤ 2 ^ 20 := by
    have := h.inSpace
    omega
  have hlow := h.setReg sp (t.reg sp - 4#32)
  exact { hlow with
    inSpace := hin
    allowed := fun hu => .inr (by rw [← haddr]; exact (accessError_eq_none.mp ha).2 hu)
    mem := fun x hx => by
      dsimp only at hx
      rw [State.byteAt_putBytes, if_neg (by omega), State.setReg_byteAt, h.mem x (by omega)]
    wf := fun hs => State.putBytes_wf v hword (h.wf hs) }

theorem Within.loadMs (h : Within f s t) {m : Word} (hm : msReservedZero m = true) :
    Within { f with ms := .load } s { t with ms := m } :=
  { h with ms := hm }

theorem Within.setMI (h : Within f s t) (hms : f.ms = .keep) : Within { f with ms := .enter } s t.setMI :=
  have hkeep : t.ms = s.ms := by simpa only [hms, MsWrite.Holds] using h.ms
  { h with ms := by rw [State.setMI_ms, hkeep]; rfl }

/-- The bytes a handler's frame covers: three words below `SSP`, or two below the current stack pointer. -/
def frameBytes (switch : Bool) (s : State) : Nat × Nat :=
  if switch then (s.ssp.toNat - 12, 12) else ((s.reg sp).toNat - 8, 8)

theorem enterHandler_within {e : Word} {switch : Bool} (h : enterHandler e switch s = .ok t) :
    Within ⟨.supervisor, [sp], frameBytes switch s, .enter, true, false⟩ s t := by
  obtain ⟨-, s1, s2, s3, h1, h2, h3, ha, rfl⟩ := enterHandler_ok h
  have hsp2 := (push_ok h2).2.1
  have hspIn2 : (s2.reg sp).toNat = (s1.reg sp).toNat - 4 := by
    obtain ⟨-, -, -, -, rfl⟩ := push_ok h2
    rw [State.putBytes_reg, State.setReg_reg_self, hsp2]
  cases switch with
  | true =>
    have hspIn1 : (s1.reg sp).toNat = s.ssp.toNat - 4 := by
      obtain ⟨-, hsub, -, -, rfl⟩ := push_ok h1
      rw [State.setReg_reg_self, BitVec.toNat_setWidth_of_le (by decide)] at hsub
      rw [State.putBytes_reg, State.setReg_reg_self, State.setReg_reg_self, hsub]
    have w1 := ((within_self .supervisor s).setReg sp _).push h1 (.inl rfl)
    have w2 := w1.push h2 (.inr (by
      rw [hspIn1, State.setReg_reg_self, BitVec.toNat_setWidth_of_le (by decide)]))
    have w3 := ((w2.push h3 (.inr hspIn2.symm)).setMI rfl).setPC ha
    have hb : (s2.reg sp).toNat - 4 = s.ssp.toNat - 12 := by omega
    simp only [hb] at w3
    exact w3.mono_regs (by simp)
  | false =>
    obtain rfl := Except.ok.inj h1
    have w2 := (within_self .supervisor s).push h2 (.inl rfl)
    have w3 := ((w2.push h3 (.inr hspIn2.symm)).setMI rfl).setPC ha
    have hb : (s2.reg sp).toNat - 4 = (s.reg sp).toNat - 8 := by omega
    simp only [hb] at w3
    exact w3.mono_regs (by simp)

theorem systemCall_within {n : BitVec 5} (h : systemCall n s = .ok t) :
    Within ⟨.supervisor, [sp], (s.ssp.toNat - 12, 12), .enter, true, false⟩ s t := by
  obtain ⟨e, -, -, h⟩ := systemCall_ok h
  exact enterHandler_within h

theorem returnFromHandler_within (h : returnFromHandler s = .ok t) :
    Within ⟨s.mode, [sp], (0, 0), .load, true, false⟩ s t := by
  obtain ⟨r, m, s1, -, h1, -, hm, ht⟩ := returnFromHandler_ok h
  rw [setPC_eq, checked_eq_ok, targetError_eq_none] at h1
  obtain ⟨ha, rfl⟩ := h1
  have hw := (((within_self s.mode s).popped.setPC ha).loadMs hm).popped
  obtain ⟨-, rfl⟩ | ⟨-, u, -, rfl⟩ := ht
  · exact hw.mono_regs (by simp)
  · exact (hw.setReg sp u).mono_regs (by simp)

theorem privilegedReturn_within (h : privilegedReturn s = .ok t) :
    Within ⟨s.mode, [sp], (0, 0), .load, true, false⟩ s t := by
  exact returnFromHandler_within (privileged_bind_ok h).2

/-! ### Ports and system -/

theorem inputFrom_within {d : Operand} {p : Port} (h : inputFrom d p s = .ok t) :
    Within ⟨s.mode, destRegs d, destBytes s 4 d, .flags, false, false⟩ s t := by
  obtain ⟨hmi, h⟩ := privileged_bind_ok h
  rw [writeResult_eq, checked_eq_ok] at h
  obtain ⟨hd, rfl⟩ := h
  have hw := (putOperand_within hd (portValue p s)).setFlags rfl (portValue p s)
  exact { hw with system := fun hu => by simp [hmi] at hu }

@[simp] theorem portWrite_regs (p : Port) (v : Word) (s : State) : (portWrite p v s).regs = s.regs := by
  unfold portWrite; split_ifs <;> rfl

@[simp] theorem portWrite_mem (p : Port) (v : Word) (s : State) : (portWrite p v s).mem = s.mem := by
  unfold portWrite; split_ifs <;> rfl

@[simp] theorem portWrite_ms (p : Port) (v : Word) (s : State) : (portWrite p v s).ms = s.ms := by
  unfold portWrite; split_ifs <;> rfl

@[simp] theorem portWrite_pc (p : Port) (v : Word) (s : State) : (portWrite p v s).pc = s.pc := by
  unfold portWrite; split_ifs <;> rfl

@[simp] theorem portWrite_ssp (p : Port) (v : Word) (s : State) : (portWrite p v s).ssp = s.ssp := by
  unfold portWrite; split_ifs <;> rfl

@[simp] theorem portWrite_pending (p : Port) (v : Word) (s : State) : (portWrite p v s).pending = s.pending := by
  unfold portWrite; split_ifs <;> rfl

theorem outputTo_within {p : Port} {v : Word} (h : outputTo p v s = .ok t) :
    Within ⟨s.mode, [], (0, 0), .keep, false, false⟩ s t := by
  obtain ⟨hmi, h⟩ := privileged_bind_ok h
  obtain rfl := Except.ok.inj h
  exact (within_self s.mode s).of_supervisor hmi (by simp) (by simp) (by simp) (by simp) (by simp) (by simp)

theorem setSSP_eq (a : Addr) (s : State) :
    setSSP a s = checked (firstError [privilegeError s, targetError a]) s { s with ssp := a } := by
  unfold setSSP
  rw [privileged_eq]
  refine checked_bind _ _ _ _ _ _ ?_
  rw [firstError_singleton]
  unfold targetError
  by_cases h : a.toNat % 4 = 0 <;> simp [h, low2_eq_zero]

theorem setSSP_within {a : Addr} (h : setSSP a s = .ok t) :
    Within ⟨s.mode, [], (0, 0), .keep, false, true⟩ s t := by
  rw [setSSP_eq] at h
  obtain ⟨hes, rfl⟩ := checks_passed h
  have ha : a.toNat % 4 = 0 := targetError_eq_none.mp (hes _ (by simp))
  have hmi : s.mi = true := by
    have := hes (privilegeError s) (by simp)
    by_contra hmi
    simp [privilegeError, hmi] at this
  exact { within_self s.mode s with ssp := ha, system := fun hu => by simp [hmi] at hu }

theorem haltMachine_within (h : haltMachine s = .ok t) : Within ⟨s.mode, [], (0, 0), .keep, false, false⟩ s t := by
  obtain ⟨hmi, h⟩ := privileged_bind_ok h
  obtain rfl := Except.ok.inj h
  exact (within_self s.mode s).of_supervisor hmi rfl rfl rfl rfl rfl rfl

/-- A value is computed first. -/
theorem within_of_bind {α : Type} {x : Except Fault α} {g : α → Except Fault State}
    (hg : ∀ a t, g a = .ok t → Within f s t) (h : (x >>= g) = .ok t) : Within f s t := by
  obtain ⟨a, -, ha⟩ := except_bind_ok.mp h
  exact hg a t ha

/-! ### Every instruction -/

/-- An instruction that completes stays within its footprint. -/
theorem exec_within {i : Instr} (h : exec i s = .next t) : Within (footprint s i) s t := by
  cases i with
  | addR | subR | andR | orR | xorR | imulS | umulS => exact binaryOp_within (outcomeOf_eq_next.mp h)
  | addI | subI | andI | orI | xorI => exact binaryImm_within (outcomeOf_eq_next.mp h)
  | imulB | umulB => exact binaryShort_within (outcomeOf_eq_next.mp h)
  | imulW | umulW => exact binaryDouble_within (outcomeOf_eq_next.mp h)
  | negA | notA => exact unaryAbs_within (outcomeOf_eq_next.mp h)
  | negR | notR | shfl | shfrl | shfra => exact unaryOp_within (outcomeOf_eq_next.mp h)
  | cmpR | cmpI => exact compareWith_within (outcomeOf_eq_next.mp h)
  | jcA | jcR => exact jumpIf_within (outcomeOf_eq_next.mp h)
  | jmpA | jmpR => exact setPC_within (outcomeOf_eq_next.mp h)
  | callA | callR => exact callTo_within (outcomeOf_eq_next.mp h)
  | scl => exact systemCall_within (outcomeOf_eq_next.mp h)
  | ret => exact returnFromCall_within (outcomeOf_eq_next.mp h)
  | reti | rets => exact privilegedReturn_within (outcomeOf_eq_next.mp h)
  | ldbA | ldbR => exact loadByteInto_within (outcomeOf_eq_next.mp h)
  | ldsA | ldsR => exact loadShortInto_within (outcomeOf_eq_next.mp h)
  | ldwA | ldwR => exact loadWordInto_within (outcomeOf_eq_next.mp h)
  | stbA | stbR | stsA | stsR | stwA | stwR => exact store_within (by decide) (outcomeOf_eq_next.mp h)
  | cpyI dr | cpyU dr | cpy dr =>
    obtain rfl := Except.ok.inj (outcomeOf_eq_next.mp h)
    exact (within_self s.mode s).setReg dr _
  | pushI | pushU => exact push_within (outcomeOf_eq_next.mp h)
  | pushbA | pushbR | pushsA | pushsR | pushwA | pushwR => exact pushOperand_within (outcomeOf_eq_next.mp h)
  | popbA => exact popByte_within (fun _ _ => store_within (by decide)) (outcomeOf_eq_next.mp h)
  | popbR => exact popByte_within (fun _ _ => writeDestByte_within) (outcomeOf_eq_next.mp h)
  | popsA => exact popShort_within (fun _ _ => store_within (by decide)) (outcomeOf_eq_next.mp h)
  | popsR => exact popShort_within (fun _ _ => writeDestShort_within) (outcomeOf_eq_next.mp h)
  | popwA => exact popWord_within (fun _ _ => store_within (by decide)) (outcomeOf_eq_next.mp h)
  | popwR => exact popWord_within (fun _ _ => writeDest_within) (outcomeOf_eq_next.mp h)
  | inI => exact inputFrom_within (outcomeOf_eq_next.mp h)
  | inR => exact within_of_bind (fun _ _ => inputFrom_within) (outcomeOf_eq_next.mp h)
  | outI => exact within_of_bind (fun _ _ => outputTo_within) (outcomeOf_eq_next.mp h)
  | outR =>
    exact within_of_bind (fun _ _ => within_of_bind fun _ _ => outputTo_within) (outcomeOf_eq_next.mp h)
  | ssspA | ssspR => exact within_of_bind (fun _ _ => setSSP_within) (outcomeOf_eq_next.mp h)
  | halt => exact haltMachine_within (outcomeOf_eq_next.mp h)

end

end Sys2Proof.Machine

/-! # The rules over all instructions (10_state.md sections 1 to 4, 20_memory.md section 5)

Read off the footprint of an instruction. -/

namespace Sys2Proof.Machine

/-! ### The flags -/

/-- The sign of a result is one of three (R12). -/
theorem one_flag_set {w : Nat} (v : BitVec w) :
    (zeroFlag v = true ∧ positiveFlag v = false ∧ negativeFlag v = false) ∨
      (zeroFlag v = false ∧ positiveFlag v = true ∧ negativeFlag v = false) ∨
        (zeroFlag v = false ∧ positiveFlag v = false ∧ negativeFlag v = true) := by
  unfold positiveFlag
  by_cases hz : v = 0#w
  · subst hz
    simp [zeroFlag, negativeFlag]
  · cases hn : negativeFlag v <;> simp [zeroFlag, hz]

theorem flags_of_ms {s t : State} (h : t.ms = s.ms) : t.zf = s.zf ∧ t.pf = s.pf ∧ t.nf = s.nf := by
  simp [State.zf, State.pf, State.nf, h]

theorem exec_ms_flags {i : Instr} {s t : State} (h : exec i s = .next t) (hi : isFlagSetter i = true) :
    ∃ (w : Nat) (v : BitVec w), t.ms = (s.setFlags v).ms := by
  have := (exec_within h).ms
  simpa only [footprint, hi, if_true, MsWrite.Holds, State.setFlags_ms] using this

theorem exec_ms_kept {i : Instr} {s t : State} (h : exec i s = .next t) (hi : isFlagSetter i = false)
    (hc : isSystemCall i = false) (hr : isHandlerReturn i = false) : t.ms = s.ms := by
  have := (exec_within h).ms
  simpa only [footprint, hi, hc, hr, if_false, Bool.false_eq_true, MsWrite.Holds] using this

theorem exec_ms_enter {i : Instr} {s t : State} (h : exec i s = .next t) (hc : isSystemCall i = true) :
    t.ms = s.setMI.ms := by
  cases i with
  | scl n => exact (systemCall_within (outcomeOf_eq_next.mp h)).ms
  | _ => cases hc

/-- Setting `MI` leaves the flags. -/
theorem setMI_flags (s : State) : s.setMI.zf = s.zf ∧ s.setMI.pf = s.pf ∧ s.setMI.nf = s.nf := by
  simp [State.zf, State.pf, State.nf]

/-- Settles O51: a flag setter writes the flags of a result, whose sign is one of three; the others keep `MS`, but for
SCL, which sets `MI` only. -/
theorem flagsChangedOnlyBy : Obligations.FlagsChangedOnlyBy := by
  intro i s t h
  constructor
  · intro hi
    obtain ⟨w, v, hms⟩ := exec_ms_flags h hi
    obtain ⟨hz, hp, hn⟩ := flags_of_ms hms
    rw [hz, hp, hn, State.setFlags_zf, State.setFlags_pf, State.setFlags_nf]
    exact one_flag_set v
  · intro hi hr
    cases hc : isSystemCall i with
    | false => exact flags_of_ms (exec_ms_kept h hi hc hr)
    | true =>
      obtain ⟨hz, hp, hn⟩ := flags_of_ms (exec_ms_enter h hc)
      rw [hz, hp, hn]
      exact setMI_flags s

/-! ### Registers, memory, the program counter and the supervisor stack pointer -/

/-- Settles O53: the registers of the footprint. -/
theorem registersWritten : Obligations.RegistersWritten := fun _ _ _ h => (exec_within h).regs

/-- Settles O54: the bytes of the footprint. -/
theorem memoryWritten : Obligations.MemoryWritten := fun _ _ _ h => ⟨(exec_within h).inSpace, (exec_within h).mem⟩

/-- Serving a vector changes nothing, or what entering a handler changes (R247). -/
theorem service_within {v : IntVec} {s t : State} (h : service v s = .ok t) :
    t = s ∨ Within ⟨.supervisor, [sp], frameBytes (!s.mi) s, .enter, true, false⟩ s t := by
  obtain ⟨e, -, ⟨-, ht⟩ | ⟨-, h⟩⟩ := service_ok h
  · exact .inl ht
  · exact .inr (enterHandler_within h)

/-- Settles O52: read off the footprints of the instructions and of interrupt service. -/
theorem programCounterAndSSPWriters : Obligations.ProgramCounterAndSSPWriters := by
  refine ⟨fun i s t h => ?_, fun v s t h => ?_⟩
  · have hw := exec_within h
    have hssp := hw.ssp
    refine ⟨hw.pc, hw.aligned, fun hi => ?_, fun hi => ?_⟩
    · simpa only [footprint, hi, Bool.false_eq_true, if_false] using hssp
    · simpa only [footprint, hi, if_true] using hssp
  · obtain rfl | hw := service_within h
    · rfl
    · exact hw.ssp

/-! ### No refusal -/

theorem exec_ne_refused (i : Instr) (s : State) (r : Refusal) : exec i s ≠ .refused r := by
  cases i with
  | cpyI | cpyU | cpy => exact outcomeOf_ne_refused (.ok _) r
  | _ => exact outcomeOf_ne_refused _ r

theorem step_ne_refused (s : State) (r : Refusal) : step s ≠ .refused r := by
  unfold step cycle runWord
  intro h
  split at h
  · cases h
  · split at h
    · cases h
    · split at h
      · cases h
      · split at h
        · exact exec_ne_refused _ _ r h
        · cases h

/-- Settles O55: every meaning is the outcome of a result, and a step is a meaning's or a fault. -/
theorem nothingRefused : Obligations.NothingRefused := ⟨exec_ne_refused, step_ne_refused⟩

/-! ### Privilege violations (R255) -/

@[simp] theorem raise_kind (k : ErrorKind) (s : State) : (raise k s).kind = k := by cases k <;> rfl

@[simp] theorem raise_state (k : ErrorKind) (s : State) : (raise k s).state = s := by cases k <;> rfl

/-- A result is not a privilege violation. -/
def NoViolation {α : Type} (r : Except Fault α) : Prop := ∀ f, r = .error f → f.kind ≠ .privilegeViolation

theorem NoViolation.ok {α : Type} (a : α) : NoViolation (.ok a) := nofun

theorem NoViolation.bind {α β : Type} {x : Except Fault α} {g : α → Except Fault β} (hx : NoViolation x)
    (hg : ∀ a, NoViolation (g a)) : NoViolation (x >>= g) := by
  intro f h
  cases x with
  | error e => exact hx f (congrArg Except.error (Except.error.inj h))
  | ok a => exact hg a f h

theorem NoViolation.map {α β : Type} {x : Except Fault α} (hx : NoViolation x) (g : α → β) :
    NoViolation (x.map g) := by
  intro f h
  cases x with
  | error e => exact hx f (congrArg Except.error (Except.error.inj h))
  | ok a => cases h

theorem NoViolation.raise {α : Type} {k : ErrorKind} (hk : k ≠ .privilegeViolation) (s : State) :
    NoViolation (.error (raise k s) : Except Fault α) := by
  rintro _ ⟨⟩
  rwa [raise_kind]

theorem NoViolation.checked {α : Type} {e : Option ErrorKind} (he : e ≠ some .privilegeViolation) (s : State)
    (x : α) : NoViolation (checked e s x) := by
  cases e with
  | none => exact .ok x
  | some k => exact .raise (fun hk => he (congrArg some hk)) s

section
variable (s : State)

theorem accessError_ne_privilege (priv : Mode) (n : Nat) (a : Addr) :
    accessError priv n a ≠ some .privilegeViolation := by
  unfold accessError
  split_ifs <;> simp

theorem targetError_ne_privilege (a : Addr) : targetError a ≠ some .privilegeViolation := by
  unfold targetError
  split_ifs <;> simp

theorem stackError_ne_privilege (priv : Mode) (n : Nat) (v : Word) :
    stackError priv n v ≠ some .privilegeViolation := by
  unfold stackError
  split_ifs
  · simp
  · exact accessError_ne_privilege priv n _

theorem operandError_ne_privilege (o : Operand) : operandError s o ≠ some .privilegeViolation := by
  cases o with
  | reg r => nofun
  | ind r => exact accessError_ne_privilege _ 4 _

theorem doubleError_ne_privilege (o : Operand) : doubleError s o ≠ some .privilegeViolation := by
  cases o with
  | reg r => nofun
  | ind r => exact accessError_ne_privilege _ 8 _

theorem readOperand_noViolation (o : Operand) : NoViolation (readOperand s.mode o s) := by
  rw [readOperand_eq]
  exact .checked (operandError_ne_privilege s o) s _

theorem loadByte_noViolation (priv : Mode) (a : Addr) : NoViolation (loadByte priv a s) :=
  .checked (accessError_ne_privilege priv 1 a) s _

theorem loadShort_noViolation (priv : Mode) (a : Addr) : NoViolation (loadShort priv a s) :=
  .checked (accessError_ne_privilege priv 2 a) s _

theorem loadWord_noViolation (priv : Mode) (a : Addr) : NoViolation (loadWord priv a s) :=
  .checked (accessError_ne_privilege priv 4 a) s _

theorem store_noViolation {w : Nat} (priv : Mode) (a : Addr) (n : Nat) (v : BitVec w) :
    NoViolation (store priv a n v s) :=
  .checked (accessError_ne_privilege priv n a) s _

theorem setPC_noViolation (a : Addr) : NoViolation (setPC a s) := by
  rw [setPC_eq]
  exact .checked (targetError_ne_privilege a) s _

theorem stackAddr_noViolation : NoViolation (stackAddr s) := by
  rw [stackAddr_eq]
  split_ifs
  · exact .raise (by decide) s
  · exact .ok _

theorem stackTop_noViolation (priv : Mode) : NoViolation (stackTop priv s) :=
  (stackAddr_noViolation s).bind fun a => loadWord_noViolation s priv a

theorem push_noViolation (priv : Mode) (v : Word) : NoViolation (push priv v s) := by
  rw [push_eq]
  exact .checked (stackError_ne_privilege priv 4 _) _ _

theorem writeDest_noViolation (d : Operand) (v : Word) : NoViolation (writeDest s.mode (destOf d s) v s) := by
  rw [writeDest_eq]
  exact .checked (operandError_ne_privilege s d) s _

theorem writeDestByte_noViolation (d : Operand) (b : Byte) :
    NoViolation (writeDestByte s.mode (destOf d s) b s) := by
  rw [writeDestByte_eq]
  exact .checked (operandError_ne_privilege s d) s _

theorem writeDestShort_noViolation (d : Operand) (v : BitVec 16) :
    NoViolation (writeDestShort s.mode (destOf d s) v s) := by
  rw [writeDestShort_eq]
  exact .checked (operandError_ne_privilege s d) s _

theorem writeResult_noViolation (d : Operand) (v : Word) : NoViolation (writeResult d v s) :=
  (writeDest_noViolation s d v).bind fun _ => .ok _

theorem writeDestDouble_noViolation (d : Operand) (v : BitVec 64) :
    NoViolation (writeDestDouble s.mode (destOf d s) v s) := by
  rw [writeDestDouble_eq]
  exact .checked (doubleError_ne_privilege s d) s _

theorem binaryOp_noViolation (f : Word → Word → Word) (d o1 o2 : Operand) : NoViolation (binaryOp f d o1 o2 s) :=
  (readOperand_noViolation s o1).bind fun _ => (readOperand_noViolation s o2).bind fun _ =>
    writeResult_noViolation s d _

theorem binaryImm_noViolation (f : Word → Word → Word) (d o1 : Operand) (imm : BitVec 16) :
    NoViolation (binaryImm f d o1 imm s) :=
  (readOperand_noViolation s o1).bind fun _ => writeResult_noViolation s d _

theorem unaryOp_noViolation (f : Word → Word) (d o : Operand) : NoViolation (unaryOp f d o s) :=
  (readOperand_noViolation s o).bind fun _ => writeResult_noViolation s d _

theorem unaryAbs_noViolation (f : Word → Word) (d : Operand) (a : Addr) : NoViolation (unaryAbs f d a s) :=
  (loadWord_noViolation s _ a).bind fun _ => writeResult_noViolation s d _

theorem binaryShort_noViolation (f : Word → Word → BitVec 16) (d o1 o2 : Operand) :
    NoViolation (binaryShort f d o1 o2 s) :=
  (readOperand_noViolation s o1).bind fun _ => (readOperand_noViolation s o2).bind fun _ =>
    (writeDestShort_noViolation s d _).bind fun _ => .ok _

theorem binaryDouble_noViolation (f : Word → Word → BitVec 64) (d o1 o2 : Operand) :
    NoViolation (binaryDouble f d o1 o2 s) :=
  (readOperand_noViolation s o1).bind fun _ => (readOperand_noViolation s o2).bind fun _ =>
    (writeDestDouble_noViolation s d _).bind fun _ => .ok _

theorem compareWith_noViolation (o : Operand) {b : Except Fault Word} (hb : NoViolation b) :
    NoViolation (compareWith o b s) :=
  (readOperand_noViolation s o).bind fun _ => hb.bind fun _ => .ok _

theorem loadInto_noViolation {α : Type} {x : Except Fault α} (hx : NoViolation x) (dr : RegNum) (f : α → Word) :
    NoViolation (x >>= fun v => .ok (loadInto dr (f v) s)) :=
  hx.bind fun _ => .ok _

theorem jumpIf_noViolation (taken : Bool) (a : Addr) : NoViolation (jumpIf taken a s) := by
  cases taken with
  | true => exact setPC_noViolation s a
  | false => exact .ok s

theorem callTo_noViolation (a : Addr) : NoViolation (callTo a s) :=
  (push_noViolation s _ _).bind fun u => setPC_noViolation u a

theorem enterHandler_noViolation (e : Word) (switch : Bool) : NoViolation (enterHandler e switch s) := by
  unfold enterHandler
  split
  · exact .raise (by decide) s
  · refine .bind ?_ fun s1 => (push_noViolation s1 _ _).bind fun s2 => (push_noViolation s2 _ _).bind fun s3 =>
      setPC_noViolation _ _
    cases switch with
    | true => exact push_noViolation _ _ _
    | false => exact .ok s

theorem systemCall_noViolation (n : BitVec 5) : NoViolation (systemCall n s) := by
  refine (loadWord_noViolation s _ _).bind fun e => ?_
  split
  · exact .raise (by decide) s
  · exact enterHandler_noViolation s e true

theorem returnFromCall_noViolation : NoViolation (returnFromCall s) :=
  (stackTop_noViolation s _).bind fun _ => setPC_noViolation _ _

theorem pushOperand_noViolation {x : Except Fault Word} (hx : NoViolation x) : NoViolation (pushOperand x s) :=
  hx.bind fun v => push_noViolation s _ v

theorem popByte_noViolation {write : Byte → State → Except Fault State} (hw : ∀ b, NoViolation (write b s)) :
    NoViolation (popByte write s) :=
  (stackAddr_noViolation s).bind fun a => (loadByte_noViolation s _ a).bind fun b => (hw b).bind fun _ => .ok _

theorem popShort_noViolation {write : BitVec 16 → State → Except Fault State} (hw : ∀ v, NoViolation (write v s)) :
    NoViolation (popShort write s) :=
  (stackAddr_noViolation s).bind fun a => (loadShort_noViolation s _ a).bind fun v => (hw v).bind fun _ => .ok _

theorem popWord_noViolation {write : Word → State → Except Fault State} (hw : ∀ v, NoViolation (write v s)) :
    NoViolation (popWord write s) :=
  (stackTop_noViolation s _).bind fun v => (hw v).bind fun _ => .ok _

theorem returnFromHandler_noViolation : NoViolation (returnFromHandler s) := by
  refine (stackTop_noViolation s _).bind fun _ => (setPC_noViolation s.popped _).bind fun s1 =>
    (stackTop_noViolation s1 _).bind fun m => ?_
  split
  · exact .raise (by decide) s1
  · dsimp only
    split
    · exact .ok _
    · exact (stackTop_noViolation _ _).bind fun _ => .ok _

end

theorem NoViolation.of_fault {r : Except Fault State} (hr : NoViolation r) {u : State}
    (h : outcomeOf r = .fault (.privilegeViolation u)) : False :=
  hr _ (outcomeOf_eq_fault.mp h) rfl

/-- No instruction without privilege raises a privilege violation. -/
theorem exec_unprivileged {i : Instr} {s u : State} (hi : isPrivileged i = false)
    (h : exec i s = .fault (.privilegeViolation u)) : False := by
  cases i with
  | addR | subR | andR | orR | xorR | imulS | umulS => exact (binaryOp_noViolation s _ _ _ _).of_fault h
  | addI | subI | andI | orI | xorI => exact (binaryImm_noViolation s _ _ _ _).of_fault h
  | imulB | umulB => exact (binaryShort_noViolation s _ _ _ _).of_fault h
  | imulW | umulW => exact (binaryDouble_noViolation s _ _ _ _).of_fault h
  | negA | notA => exact (unaryAbs_noViolation s _ _ _).of_fault h
  | negR | notR | shfl | shfrl | shfra => exact (unaryOp_noViolation s _ _ _).of_fault h
  | cmpR o1 o2 => exact (compareWith_noViolation s _ (readOperand_noViolation s o2)).of_fault h
  | cmpI => exact (compareWith_noViolation s _ (.ok _)).of_fault h
  | jcA | jcR => exact (jumpIf_noViolation s _ _).of_fault h
  | jmpA | jmpR => exact (setPC_noViolation s _).of_fault h
  | callA | callR => exact (callTo_noViolation s _).of_fault h
  | scl => exact (systemCall_noViolation s _).of_fault h
  | ret => exact (returnFromCall_noViolation s).of_fault h
  | ldbA | ldbR => exact (loadInto_noViolation s (loadByte_noViolation s _ _) _ _).of_fault h
  | ldsA | ldsR => exact (loadInto_noViolation s (loadShort_noViolation s _ _) _ _).of_fault h
  | ldwA | ldwR => exact (loadInto_noViolation s (loadWord_noViolation s _ _) _ id).of_fault h
  | stbA | stbR | stsA | stsR | stwA | stwR => exact (store_noViolation s _ _ _ _).of_fault h
  | cpyI | cpyU | cpy => exact (NoViolation.ok _).of_fault h
  | pushI | pushU => exact (push_noViolation s _ _).of_fault h
  | pushbA => exact (pushOperand_noViolation s ((loadByte_noViolation s _ _).map _)).of_fault h
  | pushsA => exact (pushOperand_noViolation s ((loadShort_noViolation s _ _).map _)).of_fault h
  | pushwA => exact (pushOperand_noViolation s (loadWord_noViolation s _ _)).of_fault h
  | pushbR o | pushsR o =>
    exact (pushOperand_noViolation s ((readOperand_noViolation s o).map _)).of_fault h
  | pushwR o => exact (pushOperand_noViolation s (readOperand_noViolation s o)).of_fault h
  | popbA => exact (popByte_noViolation s fun _ => store_noViolation s _ _ _ _).of_fault h
  | popbR d => exact (popByte_noViolation s fun _ => writeDestByte_noViolation s d _).of_fault h
  | popsA => exact (popShort_noViolation s fun _ => store_noViolation s _ _ _ _).of_fault h
  | popsR d => exact (popShort_noViolation s fun _ => writeDestShort_noViolation s d _).of_fault h
  | popwA => exact (popWord_noViolation s fun _ => store_noViolation s _ _ _ _).of_fault h
  | popwR d => exact (popWord_noViolation s fun _ => writeDest_noViolation s d _).of_fault h
  | inI | inR | outI | outR | ssspA | ssspR | halt | reti | rets => cases hi

/-- In supervisor mode the privilege test changes nothing. -/
theorem privileged_supervisor {s : State} (h : s.mi = true) : privileged s = .ok s := by
  rw [privileged_eq, privilegeError, h]; rfl

/-- In user mode the privilege test stops. -/
theorem privileged_user {s : State} (h : s.mi = false) : privileged s = .error (.privilegeViolation s) := by
  rw [privileged_eq, privilegeError, h]; rfl

theorem NoViolation.privileged_bind {α : Type} {s : State} (h : s.mi = true) {g : State → Except Fault α}
    (hg : NoViolation (g s)) : NoViolation (privileged s >>= g) := by
  rw [privileged_supervisor h]
  exact hg

theorem setSSP_noViolation {s : State} (h : s.mi = true) (a : Addr) : NoViolation (setSSP a s) := by
  refine .privileged_bind h ?_
  split
  · exact .raise (by decide) s
  · exact .ok _

theorem inputFrom_noViolation {s : State} (h : s.mi = true) (d : Operand) (p : Port) :
    NoViolation (inputFrom d p s) :=
  .privileged_bind h (writeResult_noViolation s.afterPortRead d _)

theorem outputTo_noViolation {s : State} (h : s.mi = true) (p : Port) (v : Word) : NoViolation (outputTo p v s) :=
  .privileged_bind h (.ok _)

theorem haltMachine_noViolation {s : State} (h : s.mi = true) : NoViolation (haltMachine s) :=
  .privileged_bind h (.ok _)

/-- In supervisor mode no instruction raises a privilege violation. -/
theorem exec_supervisor {i : Instr} {s u : State} (hs : s.mi = true)
    (h : exec i s = .fault (.privilegeViolation u)) : False := by
  cases hi : isPrivileged i with
  | false => exact exec_unprivileged hi h
  | true =>
    cases i with
    | inI => exact (inputFrom_noViolation hs _ _).of_fault h
    | inR d o => exact ((readOperand_noViolation s o).bind fun _ => inputFrom_noViolation hs _ _).of_fault h
    | outI p o => exact ((readOperand_noViolation s o).bind fun _ => outputTo_noViolation hs _ _).of_fault h
    | outR d o =>
      exact ((readOperand_noViolation s d).bind fun _ => (readOperand_noViolation s o).bind fun _ =>
        outputTo_noViolation hs _ _).of_fault h
    | ssspA => exact ((loadWord_noViolation s _ _).bind fun _ => setSSP_noViolation hs _).of_fault h
    | ssspR o => exact ((readOperand_noViolation s o).bind fun _ => setSSP_noViolation hs _).of_fault h
    | halt => exact (haltMachine_noViolation hs).of_fault h
    | reti | rets => exact (NoViolation.privileged_bind hs (returnFromHandler_noViolation s)).of_fault h
    | _ => cases hi

/-- A result that stops at a state. -/
def StopsAt (s : State) {α : Type} (r : Except Fault α) : Prop := ∃ f, r = .error f ∧ f.state = s

theorem stopsAt_privileged_bind {s : State} (h : s.mi = false) {α : Type} (g : State → Except Fault α) :
    StopsAt s (privileged s >>= g) := by
  rw [privileged_user h]
  exact ⟨_, rfl, rfl⟩

/-- What follows a checked read stops, and so does the whole. -/
theorem StopsAt.checked_bind {s : State} {α β : Type} {g : α → Except Fault β} (e : Option ErrorKind) (x : α)
    (h : StopsAt s (g x)) : StopsAt s (checked e s x >>= g) := by
  cases e with
  | none => exact h
  | some k => exact ⟨_, rfl, raise_state k s⟩

theorem StopsAt.readOperand_bind {s : State} {β : Type} {g : Word → Except Fault β} (o : Operand)
    (h : ∀ v, StopsAt s (g v)) : StopsAt s (readOperand s.mode o s >>= g) := by
  rw [readOperand_eq]
  exact .checked_bind _ _ (h _)

theorem StopsAt.fault {s : State} {r : Except Fault State} (h : StopsAt s r) :
    ∃ f, outcomeOf r = .fault f ∧ f.state = s := by
  obtain ⟨f, rfl, hf⟩ := h
  exact ⟨f, rfl, hf⟩

/-- In user mode a privileged instruction stops at the state it began in: its operands are read, then it fails the
privilege test (R242). -/
theorem exec_privileged_user {i : Instr} {s : State} (hi : isPrivileged i = true) (hs : s.mi = false) :
    ∃ f, exec i s = .fault f ∧ f.state = s := by
  cases i with
  | inI | halt | reti | rets => exact (stopsAt_privileged_bind hs _).fault
  | inR d o | outI p o | ssspR o => exact (StopsAt.readOperand_bind o fun _ => stopsAt_privileged_bind hs _).fault
  | outR d o =>
    exact (StopsAt.readOperand_bind d fun _ => .readOperand_bind o fun _ => stopsAt_privileged_bind hs _).fault
  | ssspA a =>
    exact (StopsAt.checked_bind (g := fun v => setSSP (addrOf v) s) _ _ (stopsAt_privileged_bind hs _)).fault
  | _ => cases hi

/-- Settles O43: in user mode a privileged instruction fails its test; an unprivileged instruction has no test, and in
supervisor mode the test passes. -/
theorem privilegedOnlyInSupervisorMode : Obligations.PrivilegedOnlyInSupervisorMode := by
  refine fun i s => ⟨exec_privileged_user, fun u h => ⟨?_, ?_⟩⟩
  · by_contra hi
    exact exec_unprivileged (Bool.not_eq_true _ ▸ hi) h
  · by_contra hs
    exact exec_supervisor (by simpa using hs) h

end Sys2Proof.Machine

/-! # The decoder and the encoder (30_encoding.md sections 3, 5 and 6)

One lemma per decoder of a format for each direction: it reads back the fields of the encoder's format, and what it
reads from a word is an instruction whose word that is. -/

namespace Sys2Proof

/-! ### A word is its fields -/

/-- Two words agree on consecutive fields of the given lengths, the first field ending below bit `hi`, down to bit 0. -/
def SameFields (v w : Word) : Nat → List Nat → Prop
  | hi, [] => hi = 0
  | hi, n :: ns => n ≤ hi ∧ field v (hi - n) n = field w (hi - n) n ∧ SameFields v w (hi - n) ns

theorem low_bits_eq_of_sameFields {v w : Word} {hi : Nat} {ns : List Nat} (h : SameFields v w hi ns) :
    v.toNat % 2 ^ hi = w.toNat % 2 ^ hi := by
  induction ns generalizing hi with
  | nil =>
    obtain rfl : hi = 0 := h
    simp [Nat.mod_one]
  | cons n ns ih =>
    obtain ⟨hn, hf, hrest⟩ := h
    rw [field_eq_iff, field, BitVec.extractLsb'_toNat, Nat.shiftRight_eq_div_pow] at hf
    obtain ⟨lo, rfl⟩ := Nat.exists_eq_add_of_le hn
    rw [Nat.add_sub_cancel_left] at hf hrest
    rw [Nat.add_comm, Nat.pow_add, Nat.mod_mul, Nat.mod_mul, hf, ih hrest]

/-- Words with the same fields are the same. -/
theorem eq_of_sameFields {v w : Word} (ns : List Nat) (h : SameFields v w 32 ns) : v = w := by
  have := low_bits_eq_of_sameFields h
  rwa [Nat.mod_eq_of_lt v.isLt, Nat.mod_eq_of_lt w.isLt, BitVec.toNat_inj] at this

theorem field_eq_of_toNat {w : Word} {lo len n : Nat} (h : (field w lo len).toNat = n) :
    field w lo len = BitVec.ofNat len n := by
  rw [← h, BitVec.ofNat_toNat, BitVec.setWidth_eq]

theorem bit_eq_one_iff {w : Word} {lo : Nat} : ¬fieldZero w lo 1 = true ↔ field w lo 1 = 1#1 := by
  rw [fieldZero_iff]
  generalize field w lo 1 = b
  revert b
  decide

theorem bit_eq_ofBool (w : Word) (lo : Nat) : field w lo 1 = BitVec.ofBool (!fieldZero w lo 1) := by
  rw [fieldZero]
  generalize field w lo 1 = b
  revert b
  decide

@[simp] theorem accept_eq_ok {z : Bool} {i j : Instr} : accept z i = .ok j ↔ z = true ∧ i = j := by
  cases z <;> simp [accept]

/-! ### The decoder of each opcode (R110) -/

section
variable {w : Word}

theorem decode_sub (h : field w 27 5 = 0b00000#5) : decode w = decodeAlu .subR .subI w := by
  simp only [decode, h, BitVec.toNat_ofNat]
theorem decode_st (h : field w 27 5 = 0b00001#5) : decode w = decodeSt w := by
  simp only [decode, h, BitVec.toNat_ofNat]
theorem decode_ret (h : field w 27 5 = 0b00011#5) : decode w = decodeRet w := by
  simp only [decode, h, BitVec.toNat_ofNat]
theorem decode_add (h : field w 27 5 = 0b00100#5) : decode w = decodeAlu .addR .addI w := by
  simp only [decode, h, BitVec.toNat_ofNat]
theorem decode_and (h : field w 27 5 = 0b00101#5) : decode w = decodeAlu .andR .andI w := by
  simp only [decode, h, BitVec.toNat_ofNat]
theorem decode_sssp (h : field w 27 5 = 0b00110#5) : decode w = decodeSssp w := by
  simp only [decode, h, BitVec.toNat_ofNat]
theorem decode_call (h : field w 27 5 = 0b01000#5) : decode w = decodeCall w := by
  simp only [decode, h, BitVec.toNat_ofNat]
theorem decode_ld (h : field w 27 5 = 0b01001#5) : decode w = decodeLd w := by
  simp only [decode, h, BitVec.toNat_ofNat]
theorem decode_or (h : field w 27 5 = 0b01101#5) : decode w = decodeAlu .orR .orI w := by
  simp only [decode, h, BitVec.toNat_ofNat]
theorem decode_io (h : field w 27 5 = 0b01110#5) : decode w = decodeIo w := by
  simp only [decode, h, BitVec.toNat_ofNat]
theorem decode_mul (h : field w 27 5 = 0b01111#5) : decode w = decodeMul w := by
  simp only [decode, h, BitVec.toNat_ofNat]
theorem decode_shf (h : field w 27 5 = 0b10000#5) : decode w = decodeShf w := by
  simp only [decode, h, BitVec.toNat_ofNat]
theorem decode_halt (h : field w 27 5 = 0b10001#5) : decode w = decodeHalt w := by
  simp only [decode, h, BitVec.toNat_ofNat]
theorem decode_xor (h : field w 27 5 = 0b10101#5) : decode w = decodeAlu .xorR .xorI w := by
  simp only [decode, h, BitVec.toNat_ofNat]
theorem decode_not (h : field w 27 5 = 0b10110#5) : decode w = decodeUn .notA .notR w := by
  simp only [decode, h, BitVec.toNat_ofNat]
theorem decode_jump (h : field w 27 5 = 0b10111#5) : decode w = decodeJump w := by
  simp only [decode, h, BitVec.toNat_ofNat]
theorem decode_neg (h : field w 27 5 = 0b11000#5) : decode w = decodeUn .negA .negR w := by
  simp only [decode, h, BitVec.toNat_ofNat]
theorem decode_cmp (h : field w 27 5 = 0b11100#5) : decode w = decodeCmp w := by
  simp only [decode, h, BitVec.toNat_ofNat]
theorem decode_stack (h : field w 27 5 = 0b11111#5) : decode w = decodeStack w := by
  simp only [decode, h, BitVec.toNat_ofNat]

end

/-! ### Reading back the encoder's formats -/

theorem decodeAlu_fmtAluR (rr : Operand → Operand → Operand → Instr) (ri : Operand → Operand → BitVec 16 → Instr)
    (op : BitVec 5) (d a b : Operand) :
    decodeAlu rr ri (fmtAluR op (operandBits d) (operandBits a) (operandBits b)) = .ok (rr d a b) := by
  simp [decodeAlu, fieldZero, fmtAluR_fields]

theorem decodeAlu_fmtAluI (rr : Operand → Operand → Operand → Instr) (ri : Operand → Operand → BitVec 16 → Instr)
    (op : BitVec 5) (d a : Operand) (imm : BitVec 16) :
    decodeAlu rr ri (fmtAluI op (operandBits d) (operandBits a) imm) = .ok (ri d a imm) := by
  simp [decodeAlu, fieldZero, fmtAluI_fields]

theorem decode_fmtCmpR (a b : Operand) : decode (fmtCmpR (operandBits a) (operandBits b)) = .ok (.cmpR a b) := by
  simp [decode_cmp, decodeCmp, fieldZero, fmtCmpR_fields]

theorem decode_fmtCmpI (a : Operand) (imm : BitVec 16) : decode (fmtCmpI (operandBits a) imm) = .ok (.cmpI a imm) := by
  simp [decode_cmp, decodeCmp, fieldZero, fmtCmpI_fields]

theorem decodeUn_fmtUnA (ra : Operand → Addr → Instr) (rr : Operand → Operand → Instr) (op : BitVec 5) (d : Operand)
    (a : Addr) : decodeUn ra rr (fmtUnA op (operandBits d) a) = .ok (ra d a) := by
  simp [decodeUn, fieldZero, fmtUnA_fields]

theorem decodeUn_fmtUnR (ra : Operand → Addr → Instr) (rr : Operand → Operand → Instr) (op : BitVec 5)
    (d o : Operand) : decodeUn ra rr (fmtUnR op (operandBits d) (operandBits o)) = .ok (rr d o) := by
  simp [decodeUn, fieldZero, fmtUnR_fields]

/-- A JC or, with all three letters, a JMP (R117). -/
theorem decode_fmtJumpA (n p z : Bool) (a : Addr) :
    decode (fmtJumpA n p z a) = .ok (if n && p && z then .jmpA a else .jcA n p z a) := by
  simp [decode_jump, decodeJump, fieldZero, fmtJumpA_fields]

theorem decode_fmtJumpR (n p z : Bool) (sr : RegNum) :
    decode (fmtJumpR n p z sr) = .ok (if n && p && z then .jmpR sr else .jcR n p z sr) := by
  simp [decode_jump, decodeJump, fieldZero, fmtJumpR_fields]

theorem decode_fmtCallA (a : Addr) : decode (fmtCallA a) = .ok (.callA a) := by
  simp [decode_call, decodeCall, fieldZero, fmtCallA_fields]

theorem decode_fmtCallR (sr : RegNum) : decode (fmtCallR sr) = .ok (.callR sr) := by
  simp [decode_call, decodeCall, fieldZero, fmtCallR_fields]

theorem decode_fmtScl (imm : BitVec 5) : decode (fmtScl imm) = .ok (.scl imm) := by
  simp [decode_call, decodeCall, fieldZero, fmtScl_fields]

theorem decode_fmtRet (sys : BitVec 1) : decode (fmtRet sys) = .ok (if sys = 0#1 then .ret else .reti) := by
  simp [decode_ret, decodeRet, fieldZero, fmtRet_fields]

theorem decodeLdSize_fmtLdA (ra : RegNum → Addr → Instr) (rr : RegNum → RegNum → Instr) (size : BitVec 2)
    (dr : RegNum) (a : Addr) : decodeLdSize ra rr (fmtLdA size dr a) = .ok (ra dr a) := by
  simp [decodeLdSize, fieldZero, fmtLdA_fields]

theorem decodeLdSize_fmtLdR (ra : RegNum → Addr → Instr) (rr : RegNum → RegNum → Instr) (size : BitVec 2)
    (dr sr : RegNum) : decodeLdSize ra rr (fmtLdR size dr sr) = .ok (rr dr sr) := by
  simp [decodeLdSize, fieldZero, fmtLdR_fields]

theorem decodeStSize_fmtStA (ra : Addr → RegNum → Instr) (rr : RegNum → RegNum → Instr) (size : BitVec 2)
    (a : Addr) (sr : RegNum) : decodeStSize ra rr (fmtStA size a sr) = .ok (ra a sr) := by
  simp [decodeStSize, fieldZero, fmtStA_fields]

theorem decodeStSize_fmtStR (ra : Addr → RegNum → Instr) (rr : RegNum → RegNum → Instr) (size : BitVec 2)
    (dr sr : RegNum) : decodeStSize ra rr (fmtStR size dr sr) = .ok (rr dr sr) := by
  simp [decodeStSize, fieldZero, fmtStR_fields]

theorem decode_fmtPushI (imm : BitVec 16) : decode (fmtPushI 0#1 imm) = .ok (.pushI imm) := by
  simp [decode_stack, decodeStack, fieldZero, fmtPushI_fields, fmtPushI_selector]

theorem decode_fmtPushU (imm : BitVec 16) : decode (fmtPushI 1#1 imm) = .ok (.pushU imm) := by
  simp [decode_stack, decodeStack, fieldZero, fmtPushI_fields, fmtPushI_selector]

theorem decodeStackSize_fmtStackA (ra : Addr → Instr) (rr : Operand → Instr) (pop : BitVec 1) (size : BitVec 2)
    (a : Addr) : decodeStackSize ra rr (fmtStackA pop size a) = .ok (ra a) := by
  simp [decodeStackSize, fieldZero, fmtStackA_fields]

theorem decodeStackSize_fmtStackR (ra : Addr → Instr) (rr : Operand → Instr) (pop : BitVec 1) (size : BitVec 2)
    (o : Operand) : decodeStackSize ra rr (fmtStackR pop size (operandBits o)) = .ok (rr o) := by
  simp [decodeStackSize, fieldZero, fmtStackR_fields]

theorem decode_fmtIn_imm (d : Operand) (imm : BitVec 5) :
    decode (fmtIn 0#1 (operandBits d) imm) = .ok (.inI d imm) := by
  simp [decode_io, decodeIo, fieldZero, fmtIn_fields]

theorem decode_fmtIn_operand (d o : Operand) :
    decode (fmtIn 1#1 (operandBits d) (operandBits o)) = .ok (.inR d o) := by
  simp [decode_io, decodeIo, fieldZero, fmtIn_fields]

theorem decode_fmtOut_imm (imm : BitVec 5) (o : Operand) :
    decode (fmtOut 0#1 imm (operandBits o)) = .ok (.outI imm o) := by
  simp [decode_io, decodeIo, fieldZero, fmtOut_fields]

theorem decode_fmtOut_operand (d o : Operand) :
    decode (fmtOut 1#1 (operandBits d) (operandBits o)) = .ok (.outR d o) := by
  simp [decode_io, decodeIo, fieldZero, fmtOut_fields]

theorem decode_fmtSsspA (a : Addr) : decode (fmtSsspA a) = .ok (.ssspA a) := by
  simp [decode_sssp, decodeSssp, fieldZero, fmtSsspA_fields]

theorem decode_fmtSsspR (o : Operand) : decode (fmtSsspR (operandBits o)) = .ok (.ssspR o) := by
  simp [decode_sssp, decodeSssp, fieldZero, fmtSsspR_fields]

theorem decode_fmtHalt : decode fmtHalt = .ok .halt := by
  simp [decode_halt, decodeHalt, fieldZero, fmtHalt_fields, fmtHalt_fixed]

/-- The word of an instruction is read as that instruction; the word of RETS as RETI (R114). -/
theorem decode_encode {i : Instr} (hwf : i.wellFormed = true) : decode (encode i) = .ok i.canonical := by
  cases i with
  | addR => simp [encode, Instr.canonical, decode_add, fmtAluR_fields, decodeAlu_fmtAluR]
  | addI => simp [encode, Instr.canonical, decode_add, fmtAluI_fields, decodeAlu_fmtAluI]
  | subR => simp [encode, Instr.canonical, decode_sub, fmtAluR_fields, decodeAlu_fmtAluR]
  | subI => simp [encode, Instr.canonical, decode_sub, fmtAluI_fields, decodeAlu_fmtAluI]
  | andR => simp [encode, Instr.canonical, decode_and, fmtAluR_fields, decodeAlu_fmtAluR]
  | andI => simp [encode, Instr.canonical, decode_and, fmtAluI_fields, decodeAlu_fmtAluI]
  | orR => simp [encode, Instr.canonical, decode_or, fmtAluR_fields, decodeAlu_fmtAluR]
  | orI => simp [encode, Instr.canonical, decode_or, fmtAluI_fields, decodeAlu_fmtAluI]
  | xorR => simp [encode, Instr.canonical, decode_xor, fmtAluR_fields, decodeAlu_fmtAluR]
  | xorI => simp [encode, Instr.canonical, decode_xor, fmtAluI_fields, decodeAlu_fmtAluI]
  | cmpR a b => exact decode_fmtCmpR a b
  | cmpI a imm => exact decode_fmtCmpI a imm
  | imulB | imulS | imulW | umulB | umulS | umulW =>
    simp [encode, Instr.canonical, decode_mul, decodeMul, fieldZero, fmtMul_fields, fmtMul_selector]
  | negA => simp [encode, Instr.canonical, decode_neg, fmtUnA_fields, decodeUn_fmtUnA]
  | negR => simp [encode, Instr.canonical, decode_neg, fmtUnR_fields, decodeUn_fmtUnR]
  | notA => simp [encode, Instr.canonical, decode_not, fmtUnA_fields, decodeUn_fmtUnA]
  | notR => simp [encode, Instr.canonical, decode_not, fmtUnR_fields, decodeUn_fmtUnR]
  | shfl | shfrl | shfra => simp [encode, Instr.canonical, decode_shf, decodeShf, fieldZero, fmtShf_fields]
  | jcA n p z a =>
    have hall : (n && p && z) = false := by
      simpa only [Instr.wellFormed, Instr.conditionsOk, Bool.not_eq_true'] using hwf
    rw [encode, decode_fmtJumpA, hall]
    rfl
  | jcR n p z sr =>
    have hall : (n && p && z) = false := by
      simpa only [Instr.wellFormed, Instr.conditionsOk, Bool.not_eq_true'] using hwf
    rw [encode, decode_fmtJumpR, hall]
    rfl
  | jmpA a => exact decode_fmtJumpA true true true a
  | jmpR sr => exact decode_fmtJumpR true true true sr
  | callA a => exact decode_fmtCallA a
  | callR sr => exact decode_fmtCallR sr
  | scl imm => exact decode_fmtScl imm
  | ret => exact decode_fmtRet 0#1
  | reti | rets => exact decode_fmtRet 1#1
  | ldbA | ldsA | ldwA => simp [encode, Instr.canonical, decode_ld, decodeLd, fmtLdA_fields, decodeLdSize_fmtLdA]
  | ldbR | ldsR | ldwR => simp [encode, Instr.canonical, decode_ld, decodeLd, fmtLdR_fields, decodeLdSize_fmtLdR]
  | stbA | stsA | stwA => simp [encode, Instr.canonical, decode_st, decodeSt, fmtStA_fields, decodeStSize_fmtStA]
  | stbR | stsR | stwR => simp [encode, Instr.canonical, decode_st, decodeSt, fmtStR_fields, decodeStSize_fmtStR]
  | cpyI dr imm => exact decode_fmtCpyI 0b00#2 dr imm (.inl ⟨rfl, rfl⟩)
  | cpyU dr imm => exact decode_fmtCpyI 0b01#2 dr imm (.inr ⟨rfl, rfl⟩)
  | cpy dr sr => exact decode_fmtCpy dr sr
  | pushI imm => exact decode_fmtPushI imm
  | pushU imm => exact decode_fmtPushU imm
  | pushbA | pushsA | pushwA | popbA | popsA | popwA =>
    simp [encode, Instr.canonical, decode_stack, decodeStack, fmtStackA_fields, fmtStackA_selector,
      decodeStackSize_fmtStackA]
  | pushbR | pushsR | pushwR | popbR | popsR | popwR =>
    simp [encode, Instr.canonical, decode_stack, decodeStack, fmtStackR_fields, fmtStackR_selector,
      decodeStackSize_fmtStackR]
  | inI d imm => exact decode_fmtIn_imm d imm
  | inR d o => exact decode_fmtIn_operand d o
  | outI imm o => exact decode_fmtOut_imm imm o
  | outR d o => exact decode_fmtOut_operand d o
  | ssspA a => exact decode_fmtSsspA a
  | ssspR o => exact decode_fmtSsspR o
  | halt => exact decode_fmtHalt

theorem canonical_of_ne_rets {i : Instr} (h : i ≠ .rets) : i.canonical = i := by
  cases i with
  | rets => exact absurd rfl h
  | _ => rfl

/-- Settles O7: every word is read back format by format; RETS has the word of RETI. -/
theorem decodeInvertsEncode : Obligations.DecodeInvertsEncode := by
  refine fun i hwf => ⟨fun hr => ?_, ?_⟩
  · rw [decode_encode hwf, canonical_of_ne_rets hr]
  · rintro rfl
    exact decode_encode hwf

/-! ### What is read from a word -/

/-- A word is the word of a well-formed instruction, which the decoder may answer and which is not HALT. -/
def IsWordOf (w : Word) (i : Instr) : Prop := i.wellFormed = true ∧ i ≠ .rets ∧ i ≠ .halt ∧ encode i = w

section
variable {w : Word} {i : Instr}

theorem decodeAlu_ok {op : BitVec 5} {rr : Operand → Operand → Operand → Instr}
    {ri : Operand → Operand → BitVec 16 → Instr} (hop : field w 27 5 = op)
    (h : decodeAlu rr ri w = .ok i)
    (hr : ∀ d a b, IsWordOf (fmtAluR op (operandBits d) (operandBits a) (operandBits b)) (rr d a b))
    (hi : ∀ d a imm, IsWordOf (fmtAluI op (operandBits d) (operandBits a) imm) (ri d a imm)) : IsWordOf w i := by
  unfold decodeAlu at h
  dsimp only at h
  split at h
  · next h16 =>
    obtain ⟨hz, rfl⟩ := accept_eq_ok.mp h
    rw [fieldZero_iff] at h16 hz
    have : fmtAluR op (field w 22 5) (field w 17 5) (field w 0 5) = w :=
      eq_of_sameFields [5, 5, 5, 1, 11, 5] (by simp [SameFields, fmtAluR_fields, hop, h16, hz])
    simpa [this] using hr (operandOf (field w 22 5)) (operandOf (field w 17 5)) (operandOf (field w 0 5))
  · next h16 =>
    obtain rfl := Except.ok.inj h
    rw [bit_eq_one_iff] at h16
    have : fmtAluI op (field w 22 5) (field w 17 5) (field w 0 16) = w :=
      eq_of_sameFields [5, 5, 5, 1, 16] (by simp [SameFields, fmtAluI_fields, hop, h16])
    simpa [this] using hi (operandOf (field w 22 5)) (operandOf (field w 17 5)) (field w 0 16)

theorem decodeCmp_ok (hop : field w 27 5 = 0b11100#5) (h : decodeCmp w = .ok i) : IsWordOf w i := by
  unfold decodeCmp at h
  dsimp only at h
  split at h
  · next h16 =>
    obtain ⟨hz, rfl⟩ := accept_eq_ok.mp h
    rw [Bool.and_eq_true, fieldZero_iff, fieldZero_iff] at hz
    rw [fieldZero_iff] at h16
    refine ⟨rfl, nofun, nofun, eq_of_sameFields [5, 5, 5, 1, 11, 5] ?_⟩
    simp [SameFields, encode, fmtCmpR_fields, hop, h16, hz]
  · next h16 =>
    obtain ⟨hz, rfl⟩ := accept_eq_ok.mp h
    rw [bit_eq_one_iff] at h16
    rw [fieldZero_iff] at hz
    refine ⟨rfl, nofun, nofun, eq_of_sameFields [5, 5, 5, 1, 16] ?_⟩
    simp [SameFields, encode, fmtCmpI_fields, hop, h16, hz]

/-- A word of format MUL with a given selector. -/
theorem fmtMul_of_fields {u : BitVec 1} {size : BitVec 2} (hop : field w 27 5 = 0b01111#5)
    (hsel : field w 24 3 = u ++ size) (hz : fieldZero w 15 9 = true) :
    fmtMul u size (field w 10 5) (field w 5 5) (field w 0 5) = w := by
  rw [fieldZero_iff] at hz
  refine eq_of_sameFields [5, 3, 9, 5, 5, 5] ?_
  simp [SameFields, fmtMul_fields, fmtMul_selector, hop, hsel, hz]

theorem decodeMul_ok (hop : field w 27 5 = 0b01111#5) (h : decodeMul w = .ok i) : IsWordOf w i := by
  unfold decodeMul at h
  dsimp only at h
  split at h
  iterate 6
    next hsel =>
      obtain ⟨hz, rfl⟩ := accept_eq_ok.mp h
      refine ⟨rfl, nofun, nofun, ?_⟩
      simp only [encode, operandBits_operandOf]
      exact fmtMul_of_fields hop (field_eq_of_toNat hsel) hz
  · cases h

theorem decodeUn_ok {op : BitVec 5} {ra : Operand → Addr → Instr} {rr : Operand → Operand → Instr}
    (hop : field w 27 5 = op) (h : decodeUn ra rr w = .ok i)
    (ha : ∀ d a, IsWordOf (fmtUnA op (operandBits d) a) (ra d a))
    (hr : ∀ d o, IsWordOf (fmtUnR op (operandBits d) (operandBits o)) (rr d o)) : IsWordOf w i := by
  unfold decodeUn at h
  dsimp only at h
  split at h
  · next h20 =>
    obtain ⟨hz, rfl⟩ := accept_eq_ok.mp h
    rw [fieldZero_iff] at h20 hz
    have : fmtUnA op (field w 21 5) (field w 0 20) = w :=
      eq_of_sameFields [5, 1, 5, 1, 20] (by simp [SameFields, fmtUnA_fields, hop, h20, hz])
    simpa [this] using ha (operandOf (field w 21 5)) (field w 0 20)
  · next h20 =>
    obtain ⟨hz, rfl⟩ := accept_eq_ok.mp h
    rw [bit_eq_one_iff] at h20
    rw [Bool.and_eq_true, fieldZero_iff, fieldZero_iff] at hz
    have : fmtUnR op (field w 21 5) (field w 0 5) = w :=
      eq_of_sameFields [5, 1, 5, 1, 15, 5] (by simp [SameFields, fmtUnR_fields, hop, h20, hz])
    simpa [this] using hr (operandOf (field w 21 5)) (operandOf (field w 0 5))

theorem decodeShf_ok (hop : field w 27 5 = 0b10000#5) (h : decodeShf w = .ok i) : IsWordOf w i := by
  unfold decodeShf at h
  dsimp only at h
  split at h
  iterate 3
    next hsel =>
      obtain ⟨hz, rfl⟩ := accept_eq_ok.mp h
      rw [fieldZero_iff] at hz
      refine ⟨rfl, nofun, nofun, eq_of_sameFields [5, 2, 10, 5, 5, 5] ?_⟩
      simp [SameFields, encode, fmtShf_fields, hop, field_eq_of_toNat hsel, hz]
  · cases h

/-- The condition bits of a jump are those read (R97). -/
theorem fmtJumpA_of_fields {n p z : Bool} (hop : field w 27 5 = 0b10111#5) (hn : (!fieldZero w 26 1) = n)
    (hp : (!fieldZero w 25 1) = p) (hz : (!fieldZero w 24 1) = z) (h20 : fieldZero w 20 1 = true)
    (h21 : fieldZero w 21 3 = true) : fmtJumpA n p z (field w 0 20) = w := by
  subst hn hp hz
  rw [fieldZero_iff] at h20 h21
  refine eq_of_sameFields [5, 1, 1, 1, 3, 1, 20] ?_
  simp [SameFields, fmtJumpA_fields, hop, bit_eq_ofBool w 26, bit_eq_ofBool w 25, bit_eq_ofBool w 24, h20, h21]

theorem fmtJumpR_of_fields {n p z : Bool} (hop : field w 27 5 = 0b10111#5) (hn : (!fieldZero w 26 1) = n)
    (hp : (!fieldZero w 25 1) = p) (hz : (!fieldZero w 24 1) = z) (h20 : ¬fieldZero w 20 1 = true)
    (h21 : fieldZero w 21 3 = true) (h4 : fieldZero w 4 16 = true) : fmtJumpR n p z (field w 0 4) = w := by
  subst hn hp hz
  rw [fieldZero_iff] at h21 h4
  rw [bit_eq_one_iff] at h20
  refine eq_of_sameFields [5, 1, 1, 1, 3, 1, 16, 4] ?_
  simp [SameFields, fmtJumpR_fields, hop, bit_eq_ofBool w 26, bit_eq_ofBool w 25, bit_eq_ofBool w 24, h20, h21, h4]

theorem decodeJump_ok (hop : field w 27 5 = 0b10111#5) (h : decodeJump w = .ok i) : IsWordOf w i := by
  unfold decodeJump at h
  dsimp only at h
  generalize hn : (!fieldZero w 26 1) = n at h
  generalize hp : (!fieldZero w 25 1) = p at h
  generalize hz : (!fieldZero w 24 1) = z at h
  split at h
  · next h20 =>
    obtain ⟨h21, rfl⟩ := accept_eq_ok.mp h
    have hw := fmtJumpA_of_fields hop hn hp hz h20 h21
    split
    · next hall =>
      simp only [Bool.and_eq_true] at hall
      obtain ⟨⟨rfl, rfl⟩, rfl⟩ := hall
      exact ⟨rfl, nofun, nofun, hw⟩
    · next hall => exact ⟨by simp [Instr.wellFormed, Instr.conditionsOk, hall], nofun, nofun, hw⟩
  · next h20 =>
    obtain ⟨hzero, rfl⟩ := accept_eq_ok.mp h
    obtain ⟨h21, h4⟩ := Bool.and_eq_true_iff.mp hzero
    have hw := fmtJumpR_of_fields hop hn hp hz h20 h21 h4
    split
    · next hall =>
      simp only [Bool.and_eq_true] at hall
      obtain ⟨⟨rfl, rfl⟩, rfl⟩ := hall
      exact ⟨rfl, nofun, nofun, hw⟩
    · next hall => exact ⟨by simp [Instr.wellFormed, Instr.conditionsOk, hall], nofun, nofun, hw⟩

theorem decodeCall_ok (hop : field w 27 5 = 0b01000#5) (h : decodeCall w = .ok i) : IsWordOf w i := by
  unfold decodeCall at h
  split at h
  · next h26 =>
    rw [fieldZero_iff] at h26
    split at h
    · next h20 =>
      obtain ⟨hz, rfl⟩ := accept_eq_ok.mp h
      rw [fieldZero_iff] at h20 hz
      refine ⟨rfl, nofun, nofun, eq_of_sameFields [5, 1, 5, 1, 20] ?_⟩
      simp [SameFields, encode, fmtCallA_fields, hop, h26, h20, hz]
    · next h20 =>
      obtain ⟨hz, rfl⟩ := accept_eq_ok.mp h
      rw [bit_eq_one_iff] at h20
      rw [Bool.and_eq_true, fieldZero_iff, fieldZero_iff] at hz
      refine ⟨rfl, nofun, nofun, eq_of_sameFields [5, 1, 5, 1, 16, 4] ?_⟩
      simp [SameFields, encode, fmtCallR_fields, hop, h26, h20, hz]
  · next h26 =>
    obtain ⟨hz, rfl⟩ := accept_eq_ok.mp h
    rw [bit_eq_one_iff] at h26
    rw [fieldZero_iff] at hz
    refine ⟨rfl, nofun, nofun, eq_of_sameFields [5, 1, 21, 5] ?_⟩
    simp [SameFields, encode, fmtScl_fields, hop, h26, hz]

theorem decodeRet_ok (hop : field w 27 5 = 0b00011#5) (h : decodeRet w = .ok i) : IsWordOf w i := by
  obtain ⟨hz, rfl⟩ := accept_eq_ok.mp h
  rw [fieldZero_iff] at hz
  split
  · next h26 =>
    rw [fieldZero_iff] at h26
    refine ⟨rfl, nofun, nofun, eq_of_sameFields [5, 1, 26] ?_⟩
    simp [SameFields, encode, fmtRet_fields, hop, h26, hz]
  · next h26 =>
    rw [bit_eq_one_iff] at h26
    refine ⟨rfl, nofun, nofun, eq_of_sameFields [5, 1, 26] ?_⟩
    simp [SameFields, encode, fmtRet_fields, hop, h26, hz]

theorem decodeLdSize_ok {size : BitVec 2} {ra : RegNum → Addr → Instr} {rr : RegNum → RegNum → Instr}
    (hop : field w 27 5 = 0b01001#5) (hsize : field w 25 2 = size) (h : decodeLdSize ra rr w = .ok i)
    (ha : ∀ d a, IsWordOf (fmtLdA size d a) (ra d a)) (hr : ∀ d r, IsWordOf (fmtLdR size d r) (rr d r)) :
    IsWordOf w i := by
  unfold decodeLdSize at h
  dsimp only at h
  split at h
  · next h20 =>
    obtain rfl := Except.ok.inj h
    rw [fieldZero_iff] at h20
    have : fmtLdA size (field w 21 4) (field w 0 20) = w :=
      eq_of_sameFields [5, 2, 4, 1, 20] (by simp [SameFields, fmtLdA_fields, hop, hsize, h20])
    simpa only [this] using ha (field w 21 4) (field w 0 20)
  · next h20 =>
    obtain ⟨hz, rfl⟩ := accept_eq_ok.mp h
    rw [bit_eq_one_iff] at h20
    rw [fieldZero_iff] at hz
    have : fmtLdR size (field w 21 4) (field w 0 4) = w :=
      eq_of_sameFields [5, 2, 4, 1, 16, 4] (by simp [SameFields, fmtLdR_fields, hop, hsize, h20, hz])
    simpa only [this] using hr (field w 21 4) (field w 0 4)

theorem decodeLd_ok (hop : field w 27 5 = 0b01001#5) (h : decodeLd w = .ok i) : IsWordOf w i := by
  unfold decodeLd at h
  split at h
  iterate 3
    next hsel =>
      exact decodeLdSize_ok hop (field_eq_of_toNat hsel) h (fun _ _ => ⟨rfl, nofun, nofun, rfl⟩)
        (fun _ _ => ⟨rfl, nofun, nofun, rfl⟩)
  · cases h

theorem decodeStSize_ok {size : BitVec 2} {ra : Addr → RegNum → Instr} {rr : RegNum → RegNum → Instr}
    (hop : field w 27 5 = 0b00001#5) (hsize : field w 25 2 = size) (h : decodeStSize ra rr w = .ok i)
    (ha : ∀ a r, IsWordOf (fmtStA size a r) (ra a r)) (hr : ∀ d r, IsWordOf (fmtStR size d r) (rr d r)) :
    IsWordOf w i := by
  unfold decodeStSize at h
  dsimp only at h
  split at h
  · next h24 =>
    obtain rfl := Except.ok.inj h
    rw [fieldZero_iff] at h24
    have : fmtStA size (field w 4 20) (field w 0 4) = w :=
      eq_of_sameFields [5, 2, 1, 20, 4] (by simp [SameFields, fmtStA_fields, hop, hsize, h24])
    simpa only [this] using ha (field w 4 20) (field w 0 4)
  · next h24 =>
    obtain ⟨hz, rfl⟩ := accept_eq_ok.mp h
    rw [bit_eq_one_iff] at h24
    rw [fieldZero_iff] at hz
    have : fmtStR size (field w 4 4) (field w 0 4) = w :=
      eq_of_sameFields [5, 2, 1, 16, 4, 4] (by simp [SameFields, fmtStR_fields, hop, hsize, h24, hz])
    simpa only [this] using hr (field w 4 4) (field w 0 4)

theorem decodeSt_ok (hop : field w 27 5 = 0b00001#5) (h : decodeSt w = .ok i) : IsWordOf w i := by
  unfold decodeSt at h
  split at h
  iterate 3
    next hsel =>
      exact decodeStSize_ok hop (field_eq_of_toNat hsel) h (fun _ _ => ⟨rfl, nofun, nofun, rfl⟩)
        (fun _ _ => ⟨rfl, nofun, nofun, rfl⟩)
  · cases h

theorem decodeCpy_ok (hop : field w 27 5 = 0b00010#5) (h : decodeCpy w = .ok i) : IsWordOf w i := by
  unfold decodeCpy at h
  dsimp only at h
  split at h
  iterate 2
    next hsel =>
      obtain ⟨hz, rfl⟩ := accept_eq_ok.mp h
      rw [fieldZero_iff] at hz
      refine ⟨rfl, nofun, nofun, eq_of_sameFields [5, 5, 4, 2, 16] ?_⟩
      simp [SameFields, encode, fmtCpyI_fields, hop, field_eq_of_toNat hsel, hz]
  · next hsel =>
    obtain ⟨hz, rfl⟩ := accept_eq_ok.mp h
    rw [Bool.and_eq_true, fieldZero_iff, fieldZero_iff] at hz
    refine ⟨rfl, nofun, nofun, eq_of_sameFields [5, 5, 4, 2, 12, 4] ?_⟩
    simp [SameFields, encode, fmtCpy_fields, hop, field_eq_of_toNat hsel, hz]
  · cases h

theorem decodeStackSize_ok {pop : BitVec 1} {size : BitVec 2} {ra : Addr → Instr} {rr : Operand → Instr}
    (hop : field w 27 5 = 0b11111#5) (hsel : field w 24 3 = pop ++ size) (h : decodeStackSize ra rr w = .ok i)
    (ha : ∀ a, IsWordOf (fmtStackA pop size a) (ra a))
    (hr : ∀ o, IsWordOf (fmtStackR pop size (operandBits o)) (rr o)) : IsWordOf w i := by
  unfold decodeStackSize at h
  split at h
  · next h20 =>
    obtain ⟨hz, rfl⟩ := accept_eq_ok.mp h
    rw [fieldZero_iff] at h20 hz
    have : fmtStackA pop size (field w 0 20) = w := eq_of_sameFields [5, 3, 3, 1, 20]
      (by simp [SameFields, fmtStackA_fields, fmtStackA_selector, hop, hsel, h20, hz])
    simpa only [this] using ha (field w 0 20)
  · next h20 =>
    obtain ⟨hz, rfl⟩ := accept_eq_ok.mp h
    rw [bit_eq_one_iff] at h20
    rw [Bool.and_eq_true, fieldZero_iff, fieldZero_iff] at hz
    have : fmtStackR pop size (field w 0 5) = w := eq_of_sameFields [5, 3, 3, 1, 15, 5]
      (by simp [SameFields, fmtStackR_fields, fmtStackR_selector, hop, hsel, h20, hz])
    simpa [this] using hr (operandOf (field w 0 5))

theorem decodeStack_ok (hop : field w 27 5 = 0b11111#5) (h : decodeStack w = .ok i) : IsWordOf w i := by
  unfold decodeStack at h
  split at h
  · next hsel =>
    obtain ⟨hz, rfl⟩ := accept_eq_ok.mp h
    have hsel := field_eq_of_toNat hsel
    rw [fieldZero_iff] at hz
    split
    · next h16 =>
      rw [fieldZero_iff] at h16
      refine ⟨rfl, nofun, nofun, eq_of_sameFields [5, 3, 7, 1, 16] ?_⟩
      simp [SameFields, encode, fmtPushI_fields, fmtPushI_selector, hop, hsel, h16, hz]
    · next h16 =>
      rw [bit_eq_one_iff] at h16
      refine ⟨rfl, nofun, nofun, eq_of_sameFields [5, 3, 7, 1, 16] ?_⟩
      simp [SameFields, encode, fmtPushI_fields, fmtPushI_selector, hop, hsel, h16, hz]
  iterate 3
    next hsel =>
      exact decodeStackSize_ok (pop := 0#1) hop (field_eq_of_toNat hsel) h (fun _ => ⟨rfl, nofun, nofun, rfl⟩)
        (fun _ => ⟨rfl, nofun, nofun, rfl⟩)
  iterate 3
    next hsel =>
      exact decodeStackSize_ok (pop := 1#1) hop (field_eq_of_toNat hsel) h (fun _ => ⟨rfl, nofun, nofun, rfl⟩)
        (fun _ => ⟨rfl, nofun, nofun, rfl⟩)
  · cases h

theorem decodeIo_ok (hop : field w 27 5 = 0b01110#5) (h : decodeIo w = .ok i) : IsWordOf w i := by
  unfold decodeIo at h
  split at h
  · next h26 =>
    obtain ⟨hz, rfl⟩ := accept_eq_ok.mp h
    rw [fieldZero_iff] at h26 hz
    split
    · next h5 =>
      rw [fieldZero_iff] at h5
      refine ⟨rfl, nofun, nofun, eq_of_sameFields [5, 1, 15, 5, 1, 5] ?_⟩
      simp [SameFields, encode, fmtIn_fields, hop, h26, h5, hz]
    · next h5 =>
      rw [bit_eq_one_iff] at h5
      refine ⟨rfl, nofun, nofun, eq_of_sameFields [5, 1, 15, 5, 1, 5] ?_⟩
      simp [SameFields, encode, fmtIn_fields, hop, h26, h5, hz]
  · next h26 =>
    obtain ⟨hz, rfl⟩ := accept_eq_ok.mp h
    rw [bit_eq_one_iff] at h26
    rw [fieldZero_iff] at hz
    split
    · next h10 =>
      rw [fieldZero_iff] at h10
      refine ⟨rfl, nofun, nofun, eq_of_sameFields [5, 1, 15, 1, 5, 5] ?_⟩
      simp [SameFields, encode, fmtOut_fields, hop, h26, h10, hz]
    · next h10 =>
      rw [bit_eq_one_iff] at h10
      refine ⟨rfl, nofun, nofun, eq_of_sameFields [5, 1, 15, 1, 5, 5] ?_⟩
      simp [SameFields, encode, fmtOut_fields, hop, h26, h10, hz]

theorem decodeSssp_ok (hop : field w 27 5 = 0b00110#5) (h : decodeSssp w = .ok i) : IsWordOf w i := by
  unfold decodeSssp at h
  split at h
  · next h20 =>
    obtain ⟨hz, rfl⟩ := accept_eq_ok.mp h
    rw [fieldZero_iff] at h20 hz
    refine ⟨rfl, nofun, nofun, eq_of_sameFields [5, 6, 1, 20] ?_⟩
    simp [SameFields, encode, fmtSsspA_fields, hop, h20, hz]
  · next h20 =>
    obtain ⟨hz, rfl⟩ := accept_eq_ok.mp h
    rw [bit_eq_one_iff] at h20
    rw [Bool.and_eq_true, fieldZero_iff, fieldZero_iff] at hz
    refine ⟨rfl, nofun, nofun, eq_of_sameFields [5, 6, 1, 15, 5] ?_⟩
    simp [SameFields, encode, fmtSsspR_fields, hop, h20, hz]

/-- HALT: bits 31 to 20 are fixed, the others are ignored (R108). -/
theorem decodeHalt_ok (hop : field w 27 5 = 0b10001#5) (h : decodeHalt w = .ok i) :
    i = .halt ∧ w.toNat / 2 ^ 20 = 0x880 := by
  obtain ⟨hz, rfl⟩ := accept_eq_ok.mp h
  rw [fieldZero_iff, field_eq_iff] at hz
  rw [field_eq_iff] at hop
  simp only [BitVec.toNat_ofNat] at hz hop
  exact ⟨rfl, by omega⟩

/-- What the decoder reads from a word: an instruction whose word it is, or HALT. -/
theorem decode_ok (h : decode w = .ok i) : IsWordOf w i ∨ i = .halt ∧ w.toNat / 2 ^ 20 = 0x880 := by
  unfold decode at h
  split at h
  case h_14 hop => exact .inr (decodeHalt_ok (field_eq_of_toNat hop) h)
  case h_21 => cases h
  all_goals refine .inl ?_
  all_goals rename_i hop
  all_goals replace hop := field_eq_of_toNat hop
  case h_1 | h_5 | h_6 | h_10 | h_15 =>
    exact decodeAlu_ok hop h (fun _ _ _ => ⟨rfl, nofun, nofun, rfl⟩) (fun _ _ _ => ⟨rfl, nofun, nofun, rfl⟩)
  case h_2 => exact decodeSt_ok hop h
  case h_3 => exact decodeCpy_ok hop h
  case h_4 => exact decodeRet_ok hop h
  case h_7 => exact decodeSssp_ok hop h
  case h_8 => exact decodeCall_ok hop h
  case h_9 => exact decodeLd_ok hop h
  case h_11 => exact decodeIo_ok hop h
  case h_12 => exact decodeMul_ok hop h
  case h_13 => exact decodeShf_ok hop h
  case h_16 | h_18 =>
    exact decodeUn_ok hop h (fun _ _ => ⟨rfl, nofun, nofun, rfl⟩) (fun _ _ => ⟨rfl, nofun, nofun, rfl⟩)
  case h_17 => exact decodeJump_ok hop h
  case h_19 => exact decodeCmp_ok hop h
  case h_20 => exact decodeStack_ok hop h

end

/-- Settles O8: each decoder reads all the fields of its format. -/
theorem encodeInvertsDecode : Obligations.EncodeInvertsDecode := by
  intro w i h
  obtain ⟨hwf, hrets, hhalt, hw⟩ | ⟨rfl, hw⟩ := decode_ok h
  · exact ⟨hwf, hrets, fun _ => hw, fun e => absurd e hhalt⟩
  · exact ⟨rfl, nofun, fun e => absurd rfl e, fun _ => hw⟩

/-! ### Illegal words (R112) -/

/-- A decoder of an assigned opcode: it finds a selector unassigned exactly where `bad` holds. -/
def SelectorError (x : Except DecodeError Instr) (bad : Prop) : Prop :=
  x ≠ .error .unassignedOpcode ∧ (x = .error .unassignedSelector ↔ bad)

theorem ok_selectorError (i : Instr) : SelectorError (.ok i) False := ⟨nofun, nofun, nofun⟩

theorem accept_selectorError (z : Bool) (i : Instr) : SelectorError (accept z i) False := by
  cases z with
  | true => exact ok_selectorError i
  | false => exact ⟨nofun, nofun, nofun⟩

section
variable (w : Word)

theorem decodeAlu_selectorError (rr : Operand → Operand → Operand → Instr)
    (ri : Operand → Operand → BitVec 16 → Instr) : SelectorError (decodeAlu rr ri w) False := by
  unfold decodeAlu
  dsimp only
  split
  · exact accept_selectorError _ _
  · exact ok_selectorError _

theorem decodeCmp_selectorError : SelectorError (decodeCmp w) False := by
  unfold decodeCmp
  dsimp only
  split <;> exact accept_selectorError _ _

theorem decodeUn_selectorError (ra : Operand → Addr → Instr) (rr : Operand → Operand → Instr) :
    SelectorError (decodeUn ra rr w) False := by
  unfold decodeUn
  dsimp only
  split <;> exact accept_selectorError _ _

theorem decodeJump_selectorError : SelectorError (decodeJump w) False := by
  unfold decodeJump
  dsimp only
  split <;> exact accept_selectorError _ _

theorem decodeCall_selectorError : SelectorError (decodeCall w) False := by
  unfold decodeCall
  split
  · split <;> exact accept_selectorError _ _
  · exact accept_selectorError _ _

theorem decodeLdSize_selectorError (ra : RegNum → Addr → Instr) (rr : RegNum → RegNum → Instr) :
    SelectorError (decodeLdSize ra rr w) False := by
  unfold decodeLdSize
  dsimp only
  split
  · exact ok_selectorError _
  · exact accept_selectorError _ _

theorem decodeStSize_selectorError (ra : Addr → RegNum → Instr) (rr : RegNum → RegNum → Instr) :
    SelectorError (decodeStSize ra rr w) False := by
  unfold decodeStSize
  dsimp only
  split
  · exact ok_selectorError _
  · exact accept_selectorError _ _

theorem decodeStackSize_selectorError (ra : Addr → Instr) (rr : Operand → Instr) :
    SelectorError (decodeStackSize ra rr w) False := by
  unfold decodeStackSize
  split <;> exact accept_selectorError _ _

theorem decodeIo_selectorError : SelectorError (decodeIo w) False := by
  unfold decodeIo
  split <;> exact accept_selectorError _ _

theorem decodeSssp_selectorError : SelectorError (decodeSssp w) False := by
  unfold decodeSssp
  split <;> exact accept_selectorError _ _

/-- Where `bad` does not hold, no selector is unassigned. -/
theorem SelectorError.of_not {x : Except DecodeError Instr} {bad : Prop} (h : SelectorError x False) (hb : ¬bad) :
    SelectorError x bad := by
  rwa [← iff_false_intro hb] at h

theorem selectorError_of_bad {bad : Prop} (hb : bad) : SelectorError (.error .unassignedSelector) bad :=
  ⟨nofun, fun _ => hb, fun _ => rfl⟩

theorem field_toNat (lo len : Nat) : (field w lo len).toNat = w.toNat / 2 ^ lo % 2 ^ len :=
  field_eq_iff.mp rfl ▸ rfl

theorem decodeMul_selectorError : SelectorError (decodeMul w) (w.toNat / 2 ^ 24 % 4 = 0) := by
  unfold decodeMul
  dsimp only
  rw [field_toNat]
  split
  iterate 6 exact (accept_selectorError _ _).of_not (by omega)
  · simp only [imp_false] at *
    exact selectorError_of_bad (by omega)

theorem decodeShf_selectorError : SelectorError (decodeShf w) (w.toNat / 2 ^ 25 % 4 = 1) := by
  unfold decodeShf
  dsimp only
  rw [field_toNat]
  split
  iterate 3 exact (accept_selectorError _ _).of_not (by omega)
  · simp only [imp_false] at *
    exact selectorError_of_bad (by omega)

theorem decodeLd_selectorError : SelectorError (decodeLd w) (w.toNat / 2 ^ 25 % 4 = 0) := by
  unfold decodeLd
  rw [field_toNat]
  split
  iterate 3 exact (decodeLdSize_selectorError w _ _).of_not (by omega)
  · simp only [imp_false] at *
    exact selectorError_of_bad (by omega)

theorem decodeSt_selectorError : SelectorError (decodeSt w) (w.toNat / 2 ^ 25 % 4 = 0) := by
  unfold decodeSt
  rw [field_toNat]
  split
  iterate 3 exact (decodeStSize_selectorError w _ _).of_not (by omega)
  · simp only [imp_false] at *
    exact selectorError_of_bad (by omega)

theorem decodeCpy_selectorError : SelectorError (decodeCpy w) (w.toNat / 2 ^ 16 % 4 = 3) := by
  unfold decodeCpy
  dsimp only
  rw [field_toNat]
  split
  iterate 3 exact (accept_selectorError _ _).of_not (by omega)
  · simp only [imp_false] at *
    exact selectorError_of_bad (by omega)

theorem decodeStack_selectorError : SelectorError (decodeStack w) (w.toNat / 2 ^ 24 % 8 = 4) := by
  unfold decodeStack
  rw [field_toNat]
  split
  · exact (accept_selectorError _ _).of_not (by omega)
  iterate 6 exact (decodeStackSize_selectorError w _ _).of_not (by omega)
  · simp only [imp_false] at *
    exact selectorError_of_bad (by omega)

/-- Which of the two errors the decoder of an assigned opcode answers. -/
theorem SelectorError.iffs {x : Except DecodeError Instr} {bad p q : Prop} (h : SelectorError x bad) (hp : ¬p)
    (hq : bad ↔ q) : (x = .error .unassignedOpcode ↔ p) ∧ (x = .error .unassignedSelector ↔ q) :=
  ⟨iff_of_false h.1 hp, h.2.trans hq⟩

/-- The opcodes that no mnemonic has (R112). -/
def unassignedOpcodes : List Nat :=
  [0b00111, 0b01010, 0b01011, 0b01100, 0b10010, 0b10011, 0b10100, 0b11001, 0b11010, 0b11011, 0b11101, 0b11110]

/-- The selectors that no table gives (R112). -/
def BadSelector (w : Word) : Prop :=
  (w.toNat / 2 ^ 27 = 0b01111 ∧ w.toNat / 2 ^ 24 % 4 = 0) ∨ (w.toNat / 2 ^ 27 = 0b10000 ∧ w.toNat / 2 ^ 25 % 4 = 1) ∨
  (w.toNat / 2 ^ 27 = 0b01001 ∧ w.toNat / 2 ^ 25 % 4 = 0) ∨ (w.toNat / 2 ^ 27 = 0b00001 ∧ w.toNat / 2 ^ 25 % 4 = 0) ∨
  (w.toNat / 2 ^ 27 = 0b00010 ∧ w.toNat / 2 ^ 16 % 4 = 3) ∨ (w.toNat / 2 ^ 27 = 0b11111 ∧ w.toNat / 2 ^ 24 % 8 = 4)

/-- The decoder answers an unassigned opcode or selector for the words that have one, and no others. -/
theorem decode_unassigned :
    (decode w = .error .unassignedOpcode ↔ w.toNat / 2 ^ 27 ∈ unassignedOpcodes) ∧
      (decode w = .error .unassignedSelector ↔ BadSelector w) := by
  have hop : (field w 27 5).toNat = w.toNat / 2 ^ 27 := by
    have := w.isLt
    rw [field_toNat]
    omega
  unfold decode
  rw [hop]
  unfold BadSelector
  split
  case h_21 =>
    have := w.isLt
    simp only [imp_false] at *
    simp only [unassignedOpcodes, List.mem_cons, List.not_mem_nil, or_false, true_iff, reduceCtorEq, false_iff,
      Except.error.injEq]
    constructor <;> omega
  all_goals rename_i hn
  all_goals simp only [hn]
  case h_1 | h_5 | h_6 | h_10 | h_15 => exact (decodeAlu_selectorError w _ _).iffs (by decide) (by simp)
  case h_2 => exact (decodeSt_selectorError w).iffs (by decide) (by simp)
  case h_3 => exact (decodeCpy_selectorError w).iffs (by decide) (by simp)
  case h_4 | h_14 => exact (accept_selectorError _ _).iffs (by decide) (by simp)
  case h_7 => exact (decodeSssp_selectorError w).iffs (by decide) (by simp)
  case h_8 => exact (decodeCall_selectorError w).iffs (by decide) (by simp)
  case h_9 => exact (decodeLd_selectorError w).iffs (by decide) (by simp)
  case h_11 => exact (decodeIo_selectorError w).iffs (by decide) (by simp)
  case h_12 => exact (decodeMul_selectorError w).iffs (by decide) (by simp)
  case h_13 => exact (decodeShf_selectorError w).iffs (by decide) (by simp)
  case h_16 | h_18 => exact (decodeUn_selectorError w _ _).iffs (by decide) (by simp)
  case h_17 => exact (decodeJump_selectorError w).iffs (by decide) (by simp)
  case h_19 => exact (decodeCmp_selectorError w).iffs (by decide) (by simp)
  case h_20 => exact (decodeStack_selectorError w).iffs (by decide) (by simp)

/-- Every word with the twelve fixed bits of HALT is HALT (R108, D24). -/
theorem decode_halt_word (h : w.toNat / 2 ^ 20 = 0x880) : decode w = .ok .halt := by
  have hop : field w 27 5 = 0b10001#5 := field_eq_iff.mpr (by rw [BitVec.toNat_ofNat]; omega)
  have hzero : fieldZero w 20 7 = true := fieldZero_iff.mpr (field_eq_iff.mpr (by rw [BitVec.toNat_ofNat]; omega))
  rw [decode_halt hop, decodeHalt, hzero]
  rfl

/-- A word is illegal where it is no instruction's word and not HALT's. -/
theorem decode_error_iff :
    (∃ e, decode w = .error e) ↔
      (∀ i : Instr, i.wellFormed = true → encode i ≠ w) ∧ w.toNat / 2 ^ 20 ≠ 0x880 := by
  constructor
  · rintro ⟨e, he⟩
    refine ⟨fun i hwf hi => ?_, fun hhalt => ?_⟩
    · rw [← hi, decode_encode hwf] at he
      cases he
    · rw [decode_halt_word w hhalt] at he
      cases he
  · rintro ⟨hno, hhalt⟩
    cases hd : decode w with
    | error e => exact ⟨e, rfl⟩
    | ok i =>
      obtain ⟨hwf, -, -, hw⟩ | ⟨-, hw⟩ := decode_ok hd
      · exact absurd hw (hno i hwf)
      · exact absurd hw hhalt

end

/-- Settles O9: which decoder finds which selector unassigned, and the round trips of decoder and encoder. -/
theorem illegalWords : Obligations.IllegalWords := fun w =>
  ⟨(decode_unassigned w).1, (decode_unassigned w).2, decode_error_iff w⟩

/-- Settles O10: sixteen words, each decoded by evaluation. -/
theorem wordsOfTheSpecDecode : Obligations.WordsOfTheSpecDecode := by
  unfold Obligations.WordsOfTheSpecDecode
  decide

end Sys2Proof

/-! # The cycle (70_reset_and_hazards.md sections 2 and 4)

What one step does, as one lemma per way it can go; then the invariant along a step, and the rules of a halted and of a
quiet machine. -/

namespace Sys2Proof.Machine

/-! ### One step -/

theorem step_halted {s : State} (h : s.halted = true) : step s = .next s := by
  rw [step, cycle, h, if_pos rfl]

section
variable {s u : State}

/-- An error of step 1 ends the cycle. -/
theorem step_of_interrupt_error {f : Fault} (h : s.halted = false)
    (hi : handleInterrupts (deliverArrivals s) = .error f) : step s = .fault f := by
  rw [step, cycle, h, if_neg (by decide), hi]

/-- An error of the fetch ends the cycle. -/
theorem step_of_fetch_error {k : ErrorKind} (h : s.halted = false)
    (hi : handleInterrupts (deliverArrivals s) = .ok u) (hf : accessError u.mode 4 u.pc = some k) :
    step s = .fault (raise k u) := by
  have hfetch : fetch u = .error (raise k u) := by rw [fetch, loadWord_eq, hf, checked_some]
  rw [step, cycle, h, if_neg (by decide), hi]
  dsimp only
  rw [hfetch]

/-- After step 1 and a fetch that passes its checks, the word at the program counter is run. -/
theorem step_of_fetch {s u : State} (h : s.halted = false) (hi : handleInterrupts (deliverArrivals s) = .ok u)
    (hf : accessError u.mode 4 u.pc = none) : step s = runWord (u.wordAt u.pc.toNat) u := by
  have hfetch : fetch u = .ok (u.wordAt u.pc.toNat) := by rw [fetch, loadWord_eq, hf, checked_none]
  rw [step, cycle, h, if_neg (by decide), hi]
  dsimp only
  rw [hfetch]

theorem runWord_of_decode {w : Word} {i : Instr} (h : decode w = .ok i) : runWord w u = exec i u.advancePC := by
  rw [runWord, h]

theorem runWord_of_illegal {w : Word} {e : DecodeError} (h : decode w = .error e) :
    runWord w u = .fault (.illegalInstruction u.advancePC) := by
  rw [runWord, h]
  rfl

/-- All that a step which completes can have done: nothing where the machine is halted; else step 1, the fetch of a word
that decodes, and the instruction read from it. -/
theorem step_next {t : State} (h : step s = .next t) :
    (s.halted = true ∧ t = s) ∨ (s.halted = false ∧ ∃ u i, handleInterrupts (deliverArrivals s) = .ok u ∧
      accessError u.mode 4 u.pc = none ∧ decode (u.wordAt u.pc.toNat) = .ok i ∧ exec i u.advancePC = .next t) := by
  cases hs : s.halted with
  | true =>
    rw [step_halted hs] at h
    exact .inl ⟨rfl, (Host.Outcome.next.inj h).symm⟩
  | false =>
    refine .inr ⟨rfl, ?_⟩
    cases hi : handleInterrupts (deliverArrivals s) with
    | error f => rw [step_of_interrupt_error hs hi] at h; cases h
    | ok u =>
      cases ha : accessError u.mode 4 u.pc with
      | some k => rw [step_of_fetch_error hs hi ha] at h; cases h
      | none =>
        rw [step_of_fetch hs hi ha] at h
        cases hd : decode (u.wordAt u.pc.toNat) with
        | error e => rw [runWord_of_illegal hd] at h; cases h
        | ok i => exact ⟨u, i, rfl, ha, hd, by rwa [runWord_of_decode hd] at h⟩

/-! ### Quiet cycles -/

theorem deliverArrivals_nil (h : s.arrivals = []) : deliverArrivals s = s := by
  rw [deliverArrivals, h]

theorem deliverArrivals_cons {es : List DeviceEvent} {rest : List (List DeviceEvent)} (h : s.arrivals = es :: rest) :
    deliverArrivals s = es.foldl deviceEvent { s with arrivals := rest } := by
  rw [deliverArrivals, h]

theorem deliverArrivals_quiet (h : Quiet s) : deliverArrivals s = s.nextArrivals := by
  obtain ⟨-, ha⟩ := h
  unfold State.nextArrivals
  cases he : s.arrivals with
  | nil =>
    rw [deliverArrivals_nil he, List.tail_nil, ← he]
  | cons es rest =>
    rw [he, List.headD_cons] at ha
    rw [deliverArrivals_cons he, ha]
    rfl

theorem handleInterrupts_quiet (h : Quiet s) : handleInterrupts (deliverArrivals s) = .ok s.nextArrivals := by
  rw [deliverArrivals_quiet h, handleInterrupts, State.nextArrivals_pending, h.1]
  rfl

end

/-- Settles O2: the table's values, and a first cycle that is quiet and whose fetch passes its checks. -/
theorem resetHiddenState : Obligations.ResetHiddenState := by
  refine ⟨rfl, rfl, rfl, rfl, rfl, rfl, ?_⟩
  have hcheck : accessError State.reset.nextArrivals.mode 4 State.reset.nextArrivals.pc = none :=
    accessError_eq_none.mpr ⟨rfl, by simp [State.reset_mode]⟩
  exact step_of_fetch rfl (handleInterrupts_quiet ⟨rfl, rfl⟩) hcheck

/-- Settles O3: every part of the invariant is read off the reset state. -/
theorem invHoldsAtReset : Obligations.InvHoldsAtReset :=
  ⟨rfl, rfl, by decide, Memory.wf_reset, List.Pairwise.nil⟩

/-- The decoder on the four bytes at an address is the decoder on the word there (R52). -/
theorem decodeBytes_byteAt (u : State) (a : Nat) :
    decodeBytes [u.byteAt a, u.byteAt (a + 1), u.byteAt (a + 2), u.byteAt (a + 3)] =
      (decode (u.wordAt a)).map fun i => (i, []) := by
  show (match decode (u.wordAt a) with
    | .ok i => Except.ok (i, [])
    | .error e => .error e) = _
  cases decode (u.wordAt a) <;> rfl

theorem decode_wellFormed {w : Word} {i : Instr} (h : decode w = .ok i) : i.wellFormed = true :=
  (encodeInvertsDecode w i h).1

/-- Settles O11: the ways of one step. -/
theorem stepRunsDecodedInstruction : Obligations.StepRunsDecodedInstruction := by
  intro s u hs
  refine ⟨handleInterrupts_quiet, fun f => step_of_interrupt_error hs, fun hi =>
    ⟨fun k => step_of_fetch_error hs hi, fun hn => ⟨?_, ?_⟩⟩⟩
  · intro i rest hd
    rw [decodeBytes_byteAt] at hd
    cases he : decode (u.wordAt u.pc.toNat) with
    | error e => rw [he] at hd; cases hd
    | ok j =>
      rw [he] at hd
      cases hd
      refine ⟨decode_wellFormed he, ?_⟩
      rw [step_of_fetch hs hi hn]
      exact runWord_of_decode he
  · intro e hd
    rw [decodeBytes_byteAt] at hd
    cases he : decode (u.wordAt u.pc.toNat) with
    | ok j => rw [he] at hd; cases hd
    | error e' =>
      rw [step_of_fetch hs hi hn]
      exact runWord_of_illegal he

/-- Settles O12: the stored word is read back by the fetch of the next cycle, which is quiet too. -/
theorem storeSeenByNextFetch : Obligations.StoreSeenByNextFetch := by
  intro s t w i hq hs hd hst
  obtain ⟨ha, rfl⟩ := checked_eq_ok.mp hst
  have hi := handleInterrupts_quiet (s := s.putBytes s.pc 4 w) hq
  have hw : (s.putBytes s.pc 4 w).nextArrivals.wordAt (s.putBytes s.pc 4 w).nextArrivals.pc.toNat = w :=
    State.wordAt_putBytes_self s s.pc w
  have hcheck : accessError (s.putBytes s.pc 4 w).nextArrivals.mode 4 (s.putBytes s.pc 4 w).nextArrivals.pc = none := ha
  rw [step_of_fetch (s := s.putBytes s.pc 4 w) hs hi hcheck, hw]
  exact runWord_of_decode hd

theorem run_succ_of_next {s t : core.State} (k : Nat) (h : core.step s = .next t) :
    core.run (k + 1) s = core.run k t := by
  rw [Host.Core.run, h]

/-- Settles O13: by induction on the number of cycles. -/
theorem haltedIsFinal : Obligations.HaltedIsFinal := by
  intro k s hs
  induction k with
  | zero => exact ⟨rfl, trivial⟩
  | succ k ih =>
    obtain ⟨hrun, hsafe⟩ := ih
    exact ⟨(run_succ_of_next k (step_halted hs)).trans hrun, s, step_halted hs, hsafe⟩

/-! ### The invariant -/

/-- A write into `MS` leaves its reserved bits zero (R37). -/
theorem MsWrite.Holds.reservedZero {k : MsWrite} {s t : State} (h : k.Holds s.ms t.ms)
    (hs : msReservedZero s.ms = true) : msReservedZero t.ms = true := by
  cases k with
  | keep =>
    rw [show t.ms = s.ms from h]
    exact hs
  | flags =>
    obtain ⟨w, v, hms⟩ := h
    rw [hms]
    exact setFlags_reservedZero s v hs
  | enter =>
    rw [show t.ms = s.setMI.ms from h]
    exact setMI_reservedZero s hs
  | load => exact h

/-- What stays within a footprint keeps the invariant. -/
theorem Within.stateInv {f : Footprint} {s t : State} (h : Within f s t) (hs : StateInv s) : StateInv t := by
  obtain ⟨hpc, hssp, hms, hwf, hpend⟩ := hs
  refine ⟨h.aligned hpc, ?_, h.ms.reservedZero hms, h.wf hwf, h.pending ▸ hpend⟩
  have := h.ssp
  split at this
  · exact this
  · rw [this]
    exact hssp

theorem stateInv_raiseVector {s : State} (hs : StateInv s) (v : IntVec) : StateInv (s.raiseVector v) := by
  obtain ⟨hpc, hssp, hms, hwf, hpend⟩ := hs
  exact ⟨hpc, hssp, hms, hwf, pairwise_insertVector v hpend⟩

theorem stateInv_deviceEvent {s : State} (hs : StateInv s) (e : DeviceEvent) : StateInv (deviceEvent s e) := by
  cases e with
  | vector v =>
    unfold deviceEvent
    dsimp only
    split
    · exact hs
    · exact stateInv_raiseVector hs v
  | char c =>
    unfold deviceEvent
    dsimp only
    split
    · exact hs
    · exact stateInv_raiseVector hs charVector

theorem stateInv_deviceEvents {s : State} (hs : StateInv s) (es : List DeviceEvent) :
    StateInv (es.foldl deviceEvent s) := by
  induction es generalizing s with
  | nil => exact hs
  | cons e es ih => exact ih (stateInv_deviceEvent hs e)

theorem stateInv_deliverArrivals {s : State} (hs : StateInv s) : StateInv (deliverArrivals s) := by
  cases he : s.arrivals with
  | nil =>
    rw [deliverArrivals_nil he]
    exact hs
  | cons es rest =>
    rw [deliverArrivals_cons he]
    exact stateInv_deviceEvents (s := { s with arrivals := rest }) hs es

theorem stateInv_service {v : IntVec} {s t : State} (hs : StateInv s) (h : service v s = .ok t) : StateInv t := by
  obtain rfl | hw := service_within h
  · exact hs
  · exact hw.stateInv hs

/-- Fewer pending vectors are still ascending. -/
theorem StateInv.pending_sublist {s : State} (hs : StateInv s) {p : List IntVec} (hp : p.Sublist s.pending) (n : Nat) :
    StateInv { s with pending := p, freeTick := n } := by
  obtain ⟨hpc, hssp, hms, hwf, hpend⟩ := hs
  exact ⟨hpc, hssp, hms, hwf, hpend.sublist hp⟩

theorem stateInv_serviceInterrupts {n : Nat} {s t : State} (hs : StateInv s) (h : serviceInterrupts n s = .ok t) :
    StateInv t := by
  induction n generalizing s with
  | zero =>
    obtain rfl := Except.ok.inj h
    exact hs
  | succ n ih =>
    unfold serviceInterrupts at h
    split at h
    · obtain rfl := Except.ok.inj h
      exact hs
    · exact stateInv_service (hs.pending_sublist (List.nil_sublist _) s.freeTick) h
    · next v w others hp =>
      obtain ⟨u, hu, h⟩ := except_bind_ok.mp h
      have hinv : StateInv u :=
        stateInv_service (hs.pending_sublist (hp ▸ List.erase_sublist) (s.freeTick + 1)) hu
      split at h
      · exact ih hinv h
      · obtain rfl := Except.ok.inj h
        exact hinv

theorem stateInv_advancePC {s : State} (hs : StateInv s) : StateInv s.advancePC := by
  obtain ⟨hpc, hssp, hms, hwf, hpend⟩ := hs
  refine ⟨?_, hssp, hms, hwf, hpend⟩
  rw [State.advancePC_pc]
  bv_omega

/-- Settles O4: device events and interrupt service keep the invariant, an instruction stays within its footprint. -/
theorem invKeptByStep : Obligations.InvKeptByStep := by
  intro s t hs h
  obtain ⟨-, rfl⟩ | ⟨-, u, i, hi, -, -, hexec⟩ := step_next h
  · exact hs
  · have hu : StateInv u := stateInv_serviceInterrupts (stateInv_deliverArrivals hs) hi
    exact (exec_within hexec).stateInv (stateInv_advancePC hu)

/-! ### Isolation: what user mode can change (60_exceptions.md section 4) -/

/-- In user mode an instruction that does not enter supervisor mode changes no protected byte and nothing of the
system. -/
theorem exec_user_keeps_protected {i : Instr} {s t : State} (hs : s.mi = false) (h : exec i s = .next t)
    (ht : t.mi = false) : (∀ x, x < protectedBelow → t.byteAt x = s.byteAt x) ∧ SystemKept s t := by
  have hw := exec_within h
  have hcall : isSystemCall i = false := by
    by_contra hc
    rw [exec_mi_of_systemCall h (by simpa using hc)] at ht
    cases ht
  have hpriv : (footprint s i).priv = .user := by
    simp only [footprint, hcall, Bool.false_eq_true, if_false]
    exact s.mode_eq_user_iff.mpr hs
  refine ⟨fun x hx => hw.mem x ?_, hw.system hs⟩
  have := hw.allowed hpriv
  omega

/-- Settles O56: a quiet cycle is its instruction, which keeps what is protected. -/
theorem userModeCannotChangeProtected : Obligations.UserModeCannotChangeProtected := by
  intro s t hq hs h ht
  obtain ⟨-, rfl⟩ | ⟨-, u, i, hi, -, -, hexec⟩ := step_next h
  · exact ⟨fun _ _ => rfl, rfl, rfl, rfl, rfl, rfl, rfl, rfl⟩
  · rw [handleInterrupts_quiet hq] at hi
    obtain rfl := Except.ok.inj hi
    obtain ⟨hmem, hssp, hhalted, hpend, havl, hch, hbusy, hout, -, -⟩ :=
      exec_user_keeps_protected (s := s.nextArrivals.advancePC) hs hexec ht
    exact ⟨hmem, hssp, hhalted, hpend, havl, hch, hbusy, hout⟩

end Sys2Proof.Machine

/-! # Isolation: what user mode can learn (60_exceptions.md section 4)

A relation between the runs of one operation from two states that differ only in protected memory: both answer, with
related answers, or both stop, with the same error at related states. Every operation user mode can complete keeps
it, part by part along its definition. -/

namespace Sys2Proof.Machine

/-! ### States that differ only in protected memory -/

section
variable {s t : State}

theorem SameOutsideProtected.fields (h : SameOutsideProtected s t) :
    ∃ m, t = { s with mem := m } ∧ ∀ x, protectedBelow ≤ x → s.byteAt x = Memory.byte m x := by
  obtain ⟨hmem, hrest⟩ := h
  refine ⟨t.mem, ?_, hmem⟩
  have := congrArg (fun u : State => { u with mem := t.mem }) hrest
  exact this.symm

theorem SameOutsideProtected.reg_eq (h : SameOutsideProtected s t) (r : RegNum) : t.reg r = s.reg r := by
  obtain ⟨m, rfl, -⟩ := h.fields
  rfl

theorem SameOutsideProtected.mode_eq (h : SameOutsideProtected s t) : t.mode = s.mode := by
  obtain ⟨m, rfl, -⟩ := h.fields
  rfl

theorem SameOutsideProtected.mi_eq (h : SameOutsideProtected s t) : t.mi = s.mi := by
  obtain ⟨m, rfl, -⟩ := h.fields
  rfl

theorem SameOutsideProtected.pc_eq (h : SameOutsideProtected s t) : t.pc = s.pc := by
  obtain ⟨m, rfl, -⟩ := h.fields
  rfl

theorem SameOutsideProtected.destOf_eq (h : SameOutsideProtected s t) (d : Operand) : destOf d t = destOf d s := by
  cases d with
  | reg n => rfl
  | ind n => rw [destOf, destOf, h.reg_eq]

theorem SameOutsideProtected.setReg (h : SameOutsideProtected s t) (n : RegNum) (v : Word) :
    SameOutsideProtected (s.setReg n v) (t.setReg n v) := by
  obtain ⟨m, rfl, hm⟩ := h.fields
  exact ⟨hm, rfl⟩

theorem SameOutsideProtected.setFlags (h : SameOutsideProtected s t) {w : Nat} (v : BitVec w) :
    SameOutsideProtected (s.setFlags v) (t.setFlags v) := by
  obtain ⟨m, rfl, hm⟩ := h.fields
  exact ⟨hm, rfl⟩

theorem SameOutsideProtected.popped (h : SameOutsideProtected s t) : SameOutsideProtected s.popped t.popped := by
  rw [State.popped, State.popped, h.reg_eq]
  exact h.setReg sp _

theorem SameOutsideProtected.setPC (h : SameOutsideProtected s t) (a : Addr) :
    SameOutsideProtected { s with pc := a } { t with pc := a } := by
  obtain ⟨m, rfl, hm⟩ := h.fields
  exact ⟨hm, rfl⟩

theorem SameOutsideProtected.advancePC (h : SameOutsideProtected s t) :
    SameOutsideProtected s.advancePC t.advancePC := by
  obtain ⟨m, rfl, hm⟩ := h.fields
  exact ⟨hm, rfl⟩

theorem SameOutsideProtected.nextArrivals (h : SameOutsideProtected s t) :
    SameOutsideProtected s.nextArrivals t.nextArrivals := by
  obtain ⟨m, rfl, hm⟩ := h.fields
  exact ⟨hm, rfl⟩

theorem SameOutsideProtected.putBytes (h : SameOutsideProtected s t) (a : Addr) (n : Nat) {w : Nat} (v : BitVec w) :
    SameOutsideProtected (s.putBytes a n v) (t.putBytes a n v) := by
  obtain ⟨m, rfl, hm⟩ := h.fields
  refine ⟨fun x hx => ?_, rfl⟩
  rw [State.byteAt_putBytes, State.byteAt_putBytes]
  split
  · rfl
  · exact hm x hx

/-- Above the protected range the two memories are one. -/
theorem SameOutsideProtected.byteAt_eq (h : SameOutsideProtected s t) {x : Nat} (hx : protectedBelow ≤ x) :
    t.byteAt x = s.byteAt x := (h.1 x hx).symm

theorem SameOutsideProtected.wordAt_eq (h : SameOutsideProtected s t) {x : Nat} (hx : protectedBelow ≤ x) :
    t.wordAt x = s.wordAt x :=
  State.wordAt_congr fun _ _ => h.byteAt_eq (Nat.le_add_right_of_le hx)

end

/-! ### Results that agree -/

/-- Both results are values, related by `R`, or both are the same error, at states that differ only in protected
memory. -/
def Agree {α : Type} (R : α → α → Prop) : Except Fault α → Except Fault α → Prop
  | .ok a, .ok b => R a b
  | .error f, .error g => f.kind = g.kind ∧ SameOutsideProtected f.state g.state
  | _, _ => False

section
variable {α β : Type} {s t : State}

theorem Agree.bind {R : α → α → Prop} {Q : β → β → Prop} {x y : Except Fault α} {f g : α → Except Fault β}
    (h : Agree R x y) (hfg : ∀ a b, R a b → Agree Q (f a) (g b)) : Agree Q (x >>= f) (y >>= g) := by
  cases x with
  | error e =>
    cases y with
    | error e' => exact h
    | ok b => exact h.elim
  | ok a =>
    cases y with
    | error e' => exact h.elim
    | ok b => exact hfg a b h

/-- After the same value is read on both sides. -/
theorem Agree.bind_value {Q : β → β → Prop} {x y : Except Fault α} {f g : α → Except Fault β} (h : Agree Eq x y)
    (hfg : ∀ a, Agree Q (f a) (g a)) : Agree Q (x >>= f) (y >>= g) :=
  h.bind fun a _ hab => hab ▸ hfg a

theorem Agree.map {x y : Except Fault α} (h : Agree Eq x y) (f : α → β) : Agree Eq (x.map f) (y.map f) := by
  cases x with
  | error e =>
    cases y with
    | error e' => exact h
    | ok b => exact h.elim
  | ok a =>
    cases y with
    | error e' => exact h.elim
    | ok b => exact congrArg f h

theorem Agree.raise {R : α → α → Prop} (k : ErrorKind) (h : SameOutsideProtected s t) :
    Agree R (.error (raise k s)) (.error (raise k t)) := by
  refine ⟨?_, ?_⟩
  · rw [raise_kind, raise_kind]
  · rwa [raise_state, raise_state]

theorem Agree.checked {R : α → α → Prop} {e : Option ErrorKind} {x y : α} (h : SameOutsideProtected s t)
    (hxy : e = none → R x y) : Agree R (checked e s x) (checked e t y) := by
  cases e with
  | none => exact hxy rfl
  | some k => exact .raise k h

theorem Agree.outcomeOf {x y : Except Fault State} (h : Agree SameOutsideProtected x y) :
    SameAnswer (outcomeOf x) (outcomeOf y) := by
  cases x with
  | error e =>
    cases y with
    | error e' => exact h
    | ok b => exact h.elim
  | ok a =>
    cases y with
    | error e' => exact h.elim
    | ok b => exact h

theorem setFlags_agree {w : Nat} {x y : Except Fault State} (hxy : Agree SameOutsideProtected x y) (v : BitVec w) :
    Agree SameOutsideProtected (x >>= fun u => .ok (u.setFlags v)) (y >>= fun u => .ok (u.setFlags v)) :=
  hxy.bind fun _ _ hu => hu.setFlags v

/-! ### The shared operations, in user mode -/

variable (h : SameOutsideProtected s t)
include h

theorem loadByte_agree (a : Addr) : Agree Eq (loadByte .user a s) (loadByte .user a t) :=
  .checked h fun he => (h.byteAt_eq ((accessError_eq_none.mp he).2 rfl)).symm

theorem loadShort_agree (a : Addr) : Agree Eq (loadShort .user a s) (loadShort .user a t) := by
  refine .checked h fun he => ?_
  have ha := (accessError_eq_none.mp he).2 rfl
  have h0 : t.byteAt a.toNat = s.byteAt a.toNat := h.byteAt_eq ha
  have h1 : t.byteAt (a.toNat + 1) = s.byteAt (a.toNat + 1) := h.byteAt_eq (by omega)
  exact (congrArg₂ (· ++ ·) h1 h0).symm

theorem loadWord_agree (a : Addr) : Agree Eq (loadWord .user a s) (loadWord .user a t) :=
  .checked h fun he => (h.wordAt_eq ((accessError_eq_none.mp he).2 rfl)).symm

theorem store_agree (priv : Mode) (a : Addr) (n : Nat) {w : Nat} (v : BitVec w) :
    Agree SameOutsideProtected (store priv a n v s) (store priv a n v t) :=
  .checked h fun _ => h.putBytes a n v

theorem setPC_agree (a : Addr) : Agree SameOutsideProtected (setPC a s) (setPC a t) := by
  rw [setPC_eq, setPC_eq]
  exact .checked h fun _ => h.setPC a

theorem stackAddr_agree : Agree Eq (stackAddr s) (stackAddr t) := by
  rw [stackAddr_eq, stackAddr_eq, h.reg_eq]
  split
  · exact .raise _ h
  · exact rfl

theorem stackTop_agree : Agree Eq (stackTop .user s) (stackTop .user t) :=
  (stackAddr_agree h).bind_value (loadWord_agree h)

theorem push_agree (priv : Mode) (v : Word) : Agree SameOutsideProtected (push priv v s) (push priv v t) := by
  rw [push_eq, push_eq, h.reg_eq]
  exact .checked (h.setReg sp _) fun _ => (h.setReg sp _).putBytes _ 4 v

theorem readOperand_agree (o : Operand) : Agree Eq (readOperand .user o s) (readOperand .user o t) := by
  cases o with
  | reg r => exact (h.reg_eq r).symm
  | ind r =>
    rw [readOperand, readOperand, h.reg_eq]
    exact loadWord_agree h _

theorem writeDest_agree (priv : Mode) (d : Dest) (v : Word) :
    Agree SameOutsideProtected (writeDest priv d v s) (writeDest priv d v t) := by
  cases d with
  | reg r => exact h.setReg r v
  | mem a => exact store_agree h priv a 4 v

theorem storePart_agree (priv : Mode) (a : Addr) (n : Nat) {w : Nat} (v : BitVec w) :
    Agree SameOutsideProtected (storePart priv a n v s) (storePart priv a n v t) := by
  unfold storePart
  split
  · exact .raise _ h
  · exact store_agree h priv a n v

theorem writeDestByte_agree (priv : Mode) (d : Dest) (b : Byte) :
    Agree SameOutsideProtected (writeDestByte priv d b s) (writeDestByte priv d b t) := by
  cases d with
  | reg r =>
    rw [writeDestByte, writeDestByte, h.reg_eq]
    exact h.setReg r _
  | mem a => exact storePart_agree h priv a 1 b

theorem writeDestShort_agree (priv : Mode) (d : Dest) (v : BitVec 16) :
    Agree SameOutsideProtected (writeDestShort priv d v s) (writeDestShort priv d v t) := by
  cases d with
  | reg r =>
    rw [writeDestShort, writeDestShort, h.reg_eq]
    exact h.setReg r _
  | mem a => exact storePart_agree h priv a 2 v

theorem writeDestDouble_agree (priv : Mode) (d : Dest) (v : BitVec 64) :
    Agree SameOutsideProtected (writeDestDouble priv d v s) (writeDestDouble priv d v t) := by
  cases d with
  | reg r => exact (h.setReg r _).setReg (nextReg r) _
  | mem a => exact store_agree h priv a 8 v

theorem writeResult_agree (d : Operand) (v : Word) :
    Agree SameOutsideProtected (writeResult d v s) (writeResult d v t) := by
  unfold writeResult
  rw [h.mode_eq, h.destOf_eq]
  exact setFlags_agree (writeDest_agree h _ _ v) v

/-! ### The shapes of instruction, in user mode -/

variable (hs : s.mode = .user)
include hs

theorem binaryOp_agree (f : Word → Word → Word) (d o1 o2 : Operand) :
    Agree SameOutsideProtected (binaryOp f d o1 o2 s) (binaryOp f d o1 o2 t) := by
  unfold binaryOp
  rw [h.mode_eq, hs]
  exact (readOperand_agree h o1).bind_value fun a => (readOperand_agree h o2).bind_value fun b =>
    writeResult_agree h d _

theorem binaryImm_agree (f : Word → Word → Word) (d o1 : Operand) (imm : BitVec 16) :
    Agree SameOutsideProtected (binaryImm f d o1 imm s) (binaryImm f d o1 imm t) := by
  unfold binaryImm
  rw [h.mode_eq, hs]
  exact (readOperand_agree h o1).bind_value fun a => writeResult_agree h d _

theorem unaryOp_agree (f : Word → Word) (d o : Operand) :
    Agree SameOutsideProtected (unaryOp f d o s) (unaryOp f d o t) := by
  unfold unaryOp
  rw [h.mode_eq, hs]
  exact (readOperand_agree h o).bind_value fun a => writeResult_agree h d _

theorem unaryAbs_agree (f : Word → Word) (d : Operand) (a : Addr) :
    Agree SameOutsideProtected (unaryAbs f d a s) (unaryAbs f d a t) := by
  unfold unaryAbs
  rw [h.mode_eq, hs]
  exact (loadWord_agree h a).bind_value fun v => writeResult_agree h d _

theorem binaryShort_agree (f : Word → Word → BitVec 16) (d o1 o2 : Operand) :
    Agree SameOutsideProtected (binaryShort f d o1 o2 s) (binaryShort f d o1 o2 t) := by
  unfold binaryShort
  rw [h.mode_eq, hs, h.destOf_eq]
  exact (readOperand_agree h o1).bind_value fun a => (readOperand_agree h o2).bind_value fun b =>
    setFlags_agree (writeDestShort_agree h _ _ _) _

theorem binaryDouble_agree (f : Word → Word → BitVec 64) (d o1 o2 : Operand) :
    Agree SameOutsideProtected (binaryDouble f d o1 o2 s) (binaryDouble f d o1 o2 t) := by
  unfold binaryDouble
  rw [h.mode_eq, hs, h.destOf_eq]
  exact (readOperand_agree h o1).bind_value fun a => (readOperand_agree h o2).bind_value fun b =>
    setFlags_agree (writeDestDouble_agree h _ _ _) _

theorem compareWith_agree (o : Operand) {x y : Except Fault Word} (hxy : Agree Eq x y) :
    Agree SameOutsideProtected (compareWith o x s) (compareWith o y t) := by
  unfold compareWith
  rw [h.mode_eq, hs]
  exact (readOperand_agree h o).bind_value fun a => hxy.bind_value fun b => h.setFlags _

theorem loadByteInto_agree (dr : RegNum) (a : Addr) :
    Agree SameOutsideProtected (loadByteInto dr a s) (loadByteInto dr a t) := by
  unfold loadByteInto
  rw [h.mode_eq, hs]
  exact (loadByte_agree h a).bind_value fun v => (h.setReg dr _).setFlags _

theorem loadShortInto_agree (dr : RegNum) (a : Addr) :
    Agree SameOutsideProtected (loadShortInto dr a s) (loadShortInto dr a t) := by
  unfold loadShortInto
  rw [h.mode_eq, hs]
  exact (loadShort_agree h a).bind_value fun v => (h.setReg dr _).setFlags _

theorem loadWordInto_agree (dr : RegNum) (a : Addr) :
    Agree SameOutsideProtected (loadWordInto dr a s) (loadWordInto dr a t) := by
  unfold loadWordInto
  rw [h.mode_eq, hs]
  exact (loadWord_agree h a).bind_value fun v => (h.setReg dr _).setFlags _

omit hs in
theorem jumpIf_agree (taken : Bool) (a : Addr) :
    Agree SameOutsideProtected (jumpIf taken a s) (jumpIf taken a t) := by
  cases taken with
  | true => exact setPC_agree h a
  | false => exact h

omit hs in
theorem callTo_agree (a : Addr) : Agree SameOutsideProtected (callTo a s) (callTo a t) := by
  unfold callTo
  rw [h.mode_eq, h.pc_eq]
  exact (push_agree h _ _).bind fun _ _ hu => setPC_agree hu a

theorem returnFromCall_agree : Agree SameOutsideProtected (returnFromCall s) (returnFromCall t) := by
  unfold returnFromCall
  rw [h.mode_eq, hs]
  exact (stackTop_agree h).bind_value fun v => setPC_agree h.popped _

omit hs in
theorem pushOperand_agree {x y : Except Fault Word} (hxy : Agree Eq x y) :
    Agree SameOutsideProtected (pushOperand x s) (pushOperand y t) := by
  unfold pushOperand
  rw [h.mode_eq]
  exact hxy.bind_value fun v => push_agree h _ v

theorem popByte_agree {f g : Byte → State → Except Fault State}
    (hfg : ∀ b, Agree SameOutsideProtected (f b s) (g b t)) :
    Agree SameOutsideProtected (popByte f s) (popByte g t) := by
  unfold popByte
  rw [h.mode_eq, hs]
  exact (stackAddr_agree h).bind_value fun a => (loadByte_agree h a).bind_value fun b =>
    (hfg b).bind fun _ _ hu => hu.popped

theorem popShort_agree {f g : BitVec 16 → State → Except Fault State}
    (hfg : ∀ v, Agree SameOutsideProtected (f v s) (g v t)) :
    Agree SameOutsideProtected (popShort f s) (popShort g t) := by
  unfold popShort
  rw [h.mode_eq, hs]
  exact (stackAddr_agree h).bind_value fun a => (loadShort_agree h a).bind_value fun b =>
    (hfg b).bind fun _ _ hu => hu.popped

theorem popWord_agree {f g : Word → State → Except Fault State}
    (hfg : ∀ v, Agree SameOutsideProtected (f v s) (g v t)) :
    Agree SameOutsideProtected (popWord f s) (popWord g t) := by
  unfold popWord
  rw [h.mode_eq, hs]
  exact (stackTop_agree h).bind_value fun v => (hfg v).bind fun _ _ hu => hu.popped

/-- In user mode the privilege test stops both. -/
theorem privileged_agree {R : β → β → Prop} (f g : State → Except Fault β) :
    Agree R (privileged s >>= f) (privileged t >>= g) := by
  have hmi := s.mode_eq_user_iff.mp hs
  rw [privileged_user hmi, privileged_user (h.mi_eq.trans hmi)]
  exact ⟨rfl, h⟩

/-- An instruction other than SCL agrees in two states of user mode that differ only in protected memory. -/
theorem exec_agree {i : Instr} (hc : isSystemCall i = false) : SameAnswer (exec i s) (exec i t) := by
  obtain ⟨m, rfl, -⟩ := h.fields
  have hread : ∀ o, Agree Eq (readOperand s.mode o s) (readOperand s.mode o { s with mem := m }) := by
    rw [hs]
    exact readOperand_agree h
  have hbyte : ∀ a, Agree Eq (loadByte s.mode a s) (loadByte s.mode a { s with mem := m }) := by
    rw [hs]
    exact loadByte_agree h
  have hshort : ∀ a, Agree Eq (loadShort s.mode a s) (loadShort s.mode a { s with mem := m }) := by
    rw [hs]
    exact loadShort_agree h
  have hword : ∀ a, Agree Eq (loadWord s.mode a s) (loadWord s.mode a { s with mem := m }) := by
    rw [hs]
    exact loadWord_agree h
  cases i with
  | addR | subR | andR | orR | xorR | imulS | umulS => exact (binaryOp_agree h hs _ _ _ _).outcomeOf
  | addI | subI | andI | orI | xorI => exact (binaryImm_agree h hs _ _ _ _).outcomeOf
  | imulB | umulB => exact (binaryShort_agree h hs _ _ _ _).outcomeOf
  | imulW | umulW => exact (binaryDouble_agree h hs _ _ _ _).outcomeOf
  | negA | notA => exact (unaryAbs_agree h hs _ _ _).outcomeOf
  | negR | notR | shfl | shfrl | shfra => exact (unaryOp_agree h hs _ _ _).outcomeOf
  | cmpR o1 o2 => exact (compareWith_agree h hs o1 (hread o2)).outcomeOf
  | cmpI o1 imm => exact (compareWith_agree h hs o1 (x := .ok _) (y := .ok _) rfl).outcomeOf
  | jcA n p z a => exact (jumpIf_agree h (jumpTaken n p z s) a).outcomeOf
  | jcR n p z sr => exact (jumpIf_agree h (jumpTaken n p z s) (addrOf (s.reg sr))).outcomeOf
  | jmpA a => exact (setPC_agree h a).outcomeOf
  | jmpR sr => exact (setPC_agree h (addrOf (s.reg sr))).outcomeOf
  | callA a => exact (callTo_agree h a).outcomeOf
  | callR sr => exact (callTo_agree h (addrOf (s.reg sr))).outcomeOf
  | scl => cases hc
  | ret => exact (returnFromCall_agree h hs).outcomeOf
  | reti | rets | inI | halt => exact (privileged_agree h hs _ _).outcomeOf
  | ldbA dr a => exact (loadByteInto_agree h hs dr a).outcomeOf
  | ldbR dr sr => exact (loadByteInto_agree h hs dr (addrOf (s.reg sr))).outcomeOf
  | ldsA dr a => exact (loadShortInto_agree h hs dr a).outcomeOf
  | ldsR dr sr => exact (loadShortInto_agree h hs dr (addrOf (s.reg sr))).outcomeOf
  | ldwA dr a => exact (loadWordInto_agree h hs dr a).outcomeOf
  | ldwR dr sr => exact (loadWordInto_agree h hs dr (addrOf (s.reg sr))).outcomeOf
  | stbA a sr | stsA a sr | stwA a sr => exact (store_agree h s.mode a _ (s.reg sr)).outcomeOf
  | stbR dr sr | stsR dr sr | stwR dr sr =>
    exact (store_agree h s.mode (addrOf (s.reg dr)) _ (s.reg sr)).outcomeOf
  | cpyI dr imm => exact h.setReg dr (signImm imm)
  | cpyU dr imm => exact h.setReg dr (zeroImm imm)
  | cpy dr sr => exact h.setReg dr (s.reg sr)
  | pushI | pushU => exact (push_agree h s.mode _).outcomeOf
  | pushbA a => exact (pushOperand_agree h ((hbyte a).map _)).outcomeOf
  | pushsA a => exact (pushOperand_agree h ((hshort a).map _)).outcomeOf
  | pushwA a => exact (pushOperand_agree h (hword a)).outcomeOf
  | pushbR o | pushsR o => exact (pushOperand_agree h ((hread o).map _)).outcomeOf
  | pushwR o => exact (pushOperand_agree h (hread o)).outcomeOf
  | popbA a => exact (popByte_agree h hs fun b => store_agree h s.mode a 1 b).outcomeOf
  | popsA a => exact (popShort_agree h hs fun v => store_agree h s.mode a 2 v).outcomeOf
  | popwA a => exact (popWord_agree h hs fun v => store_agree h s.mode a 4 v).outcomeOf
  | popbR d =>
    cases d <;> exact (popByte_agree h hs fun b => writeDestByte_agree h s.mode (destOf _ s) b).outcomeOf
  | popsR d =>
    cases d <;> exact (popShort_agree h hs fun v => writeDestShort_agree h s.mode (destOf _ s) v).outcomeOf
  | popwR d =>
    cases d <;> exact (popWord_agree h hs fun v => writeDest_agree h s.mode (destOf _ s) v).outcomeOf
  | inR d o => exact ((hread o).bind_value fun _ => privileged_agree h hs _ _).outcomeOf
  | outI p o => exact ((hread o).bind_value fun _ => privileged_agree h hs _ _).outcomeOf
  | outR d o =>
    exact ((hread d).bind_value fun _ => (hread o).bind_value fun _ => privileged_agree h hs _ _).outcomeOf
  | ssspA a => exact ((hword a).bind_value fun _ => privileged_agree h hs _ _).outcomeOf
  | ssspR o => exact ((hread o).bind_value fun _ => privileged_agree h hs _ _).outcomeOf

/-- A quiet cycle of user mode agrees, unless the word it fetches is SCL's. -/
theorem step_agree (hq : Quiet s) (hword : ∀ n, decode (s.wordAt s.pc.toNat) ≠ .ok (.scl n)) :
    SameAnswer (step s) (step t) := by
  have hqt : Quiet t := by
    obtain ⟨m, rfl, -⟩ := h.fields
    exact hq
  have hhalt : t.halted = s.halted := by
    obtain ⟨m, rfl, -⟩ := h.fields
    rfl
  have hnext := h.nextArrivals
  cases hrun : s.halted with
  | true =>
    rw [step_halted hrun, step_halted (hhalt.trans hrun)]
    exact h
  | false =>
    have hi := handleInterrupts_quiet hq
    have hit := handleInterrupts_quiet hqt
    have hcheck : accessError t.nextArrivals.mode 4 t.nextArrivals.pc =
        accessError s.nextArrivals.mode 4 s.nextArrivals.pc := by rw [hnext.mode_eq, hnext.pc_eq]
    cases he : accessError s.nextArrivals.mode 4 s.nextArrivals.pc with
    | some k =>
      rw [step_of_fetch_error hrun hi he, step_of_fetch_error (hhalt.trans hrun) hit (hcheck.trans he)]
      exact Agree.raise (R := SameOutsideProtected) k hnext
    | none =>
      have hpc : protectedBelow ≤ s.nextArrivals.pc.toNat := (accessError_eq_none.mp he).2 hs
      rw [step_of_fetch hrun hi he, step_of_fetch (hhalt.trans hrun) hit (hcheck.trans he), hnext.pc_eq,
        hnext.wordAt_eq hpc]
      cases hd : decode (s.nextArrivals.wordAt s.nextArrivals.pc.toNat) with
      | error e =>
        rw [runWord_of_illegal hd, runWord_of_illegal hd]
        exact ⟨rfl, hnext.advancePC⟩
      | ok i =>
        have hc : isSystemCall i = false := by
          cases i with
          | scl n => exact absurd hd (hword n)
          | _ => rfl
        rw [runWord_of_decode hd, runWord_of_decode hd]
        exact exec_agree hnext.advancePC hs hc

end

/-- Settles O57: every instruction but SCL agrees, and so does the cycle that fetches it. -/
theorem userModeCannotLearnProtected : Obligations.UserModeCannotLearnProtected :=
  ⟨fun _ s _ hs h hc => exec_agree h (s.mode_eq_user_iff.mpr hs) hc,
    fun s _ hq hs h hword => step_agree h (s.mode_eq_user_iff.mpr hs) hq hword⟩

end Sys2Proof.Machine

/-! # Entering a handler and returning from it (42_control.md SCL and RET, 60_exceptions.md sections 1 to 3)

Entering a handler is pushing a list of words on a stack and then taking the handler's address. One lemma says what a
list of pushes does where the stack has room and one where it has not; the system call and the two interrupt entries are
read off them. Returning from a handler reads the words back. -/

namespace Sys2Proof.Machine

/-! ### Accesses made as supervisor -/

theorem addrOf_mod_four (v : Word) : (addrOf v).toNat % 4 = v.toNat % 4 := by
  rw [addrOf_toNat]
  omega

theorem stackError_range {priv : Mode} {n : Nat} {v : Word} (h : 2 ^ 20 ≤ v.toNat) :
    stackError priv n v = some .addressRange := by
  rw [stackError, if_pos h]

theorem stackError_misaligned {priv : Mode} {v : Word} (h : v.toNat < 2 ^ 20) (ha : v.toNat % 4 ≠ 0) :
    stackError priv 4 v = some .alignment := by
  rw [stackError, if_neg (Nat.not_le.mpr h), accessError, addrOf_mod_four, if_pos ha]

theorem stackError_supervisor {v : Word} (h : v.toNat < 2 ^ 20) (ha : v.toNat % 4 = 0) :
    stackError .supervisor 4 v = none :=
  stackError_eq_none.mpr ⟨h, accessError_eq_none.mpr ⟨by rw [addrOf_mod_four, ha], nofun⟩⟩

theorem loadWord_supervisor {a : Addr} (s : State) (ha : a.toNat % 4 = 0) :
    loadWord .supervisor a s = .ok (s.wordAt a.toNat) := by
  have hcheck : accessError .supervisor 4 a = none := accessError_eq_none.mpr ⟨ha, nofun⟩
  rw [loadWord_eq, hcheck, checked_none]

/-! ### A list of words on a stack -/

/-- From `s` the words listed were pushed on a stack whose top was at `top`, and nothing else was done. -/
structure OnStack (s t : State) (top : Nat) (ws : List Word) : Prop where
  frame : FramePushed s t top ws
  sp : (t.reg sp).toNat + 4 * ws.length = top
  ms : t.ms = s.ms
  pc : t.pc = s.pc

/-- Pushes made one after the other as supervisor (R59). -/
def pushWords : List Word → State → Except Fault State
  | [], t => .ok t
  | v :: vs, t => do
    let u ← push .supervisor v t
    pushWords vs u

theorem framePushed_nil (s : State) (v : Word) (top : Nat) : FramePushed s (s.setReg sp v) top [] :=
  ⟨nofun, fun _ _ => rfl, regsKept_setReg s sp v, systemKept_putOperand s (.reg sp) v⟩

theorem onStack_setReg (s : State) (v : Word) : OnStack s (s.setReg sp v) v.toNat [] :=
  ⟨framePushed_nil s v _, by rw [State.setReg_reg_self]; rfl, rfl, rfl⟩

theorem onStack_self (s : State) : OnStack s s (s.reg sp).toNat [] :=
  ⟨⟨nofun, fun _ _ => rfl, regsKept_refl s _, systemKept_refl s⟩, rfl, rfl, rfl⟩

/-- Moving the stack pointer leaves the frame. -/
theorem FramePushed.setReg {s t : State} {top : Nat} {ws : List Word} (h : FramePushed s t top ws) (v : Word) :
    FramePushed s (t.setReg sp v) top ws := by
  obtain ⟨hwords, hbytes, hregs, hsys⟩ := h
  refine ⟨hwords, hbytes, fun r hr => ?_, hsys⟩
  rw [State.setReg_reg_ne t v (by simpa using hr)]
  exact hregs r hr

section
variable {s t : State} {top : Nat} {ws : List Word}

/-- A word stored just below the last one extends the frame. -/
theorem FramePushed.putBytes (h : FramePushed s t top ws) {a : Addr} (ha : a.toNat + 4 * (ws.length + 1) = top)
    (v : Word) : FramePushed s (t.putBytes a 4 v) top (ws ++ [v]) := by
  obtain ⟨hwords, hbytes, hregs, hsys⟩ := h
  refine ⟨fun k hk => ?_, fun x hx => ?_, hregs, hsys⟩
  · rw [List.length_append, List.length_singleton] at hk
    rw [List.getElem_append]
    split
    · next hlt =>
      rw [State.wordAt_putBytes_disjoint t a 4 _ v (by omega)]
      exact hwords k hlt
    · next hge =>
      have hlast : top - 4 * (k + 1) = a.toNat := by omega
      rw [List.getElem_singleton, hlast]
      exact State.wordAt_putBytes_self t a v
  · rw [List.length_append, List.length_singleton] at hx
    rw [State.byteAt_putBytes, if_neg (by omega)]
    exact hbytes x (by omega)

/-- A push where the stack has room for it. -/
theorem OnStack.push (h : OnStack s t top ws) (htop : top % 4 = 0) (hmax : top ≤ 2 ^ 20)
    (hroom : 4 * (ws.length + 1) ≤ top) (v : Word) :
    ∃ u, push .supervisor v t = .ok u ∧ OnStack s u top (ws ++ [v]) := by
  have hsp := h.sp
  have hsub : (t.reg Machine.sp - 4#32).toNat + 4 = (t.reg Machine.sp).toNat := by bv_omega
  have hlt : (t.reg Machine.sp - 4#32).toNat < 2 ^ 20 := by omega
  rw [push_eq, stackError_supervisor hlt (by omega), checked_none]
  refine ⟨_, rfl, (h.frame.setReg _).putBytes ?_ v, ?_, h.ms, h.pc⟩
  · rw [addrOf_toNat_of_lt hlt]
    omega
  · rw [State.putBytes_reg, State.setReg_reg_self, List.length_append, List.length_singleton]
    omega

/-- A push where the stack pointer is at 0: it stops with the stack pointer past the end of memory (R14). -/
theorem OnStack.push_full (h : OnStack s t top ws) (hfull : top = 4 * ws.length) (v : Word) :
    Machine.push .supervisor v t = .error (.addressRange (t.setReg Machine.sp 0xfffffffc#32)) := by
  have hsp := h.sp
  have hsub : t.reg Machine.sp - 4#32 = 0xfffffffc#32 := by bv_omega
  rw [push_eq, hsub, stackError_range (by decide), checked_some]
  rfl

/-- All the pushes are made where the stack has room for them. -/
theorem OnStack.pushWords {vs : List Word} (h : OnStack s t top ws) (htop : top % 4 = 0) (hmax : top ≤ 2 ^ 20)
    (hroom : 4 * (ws.length + vs.length) ≤ top) : ∃ u, pushWords vs t = .ok u ∧ OnStack s u top (ws ++ vs) := by
  induction vs generalizing t ws with
  | nil => exact ⟨t, rfl, by rwa [List.append_nil]⟩
  | cons v vs ih =>
    rw [List.length_cons] at hroom
    obtain ⟨u, hu, hon⟩ := h.push htop hmax (by omega) v
    obtain ⟨u', hu', hon'⟩ := ih hon (by rw [List.length_append, List.length_singleton]; omega)
    refine ⟨u', ?_, ?_⟩
    · rw [Machine.pushWords, hu]
      exact hu'
    · rwa [List.append_assoc, List.singleton_append] at hon'

/-- Where the stack is too low, the pushes that fit are made, and the next one stops. -/
theorem OnStack.pushWords_full {vs : List Word} (h : OnStack s t top ws) (htop : top % 4 = 0) (hmax : top ≤ 2 ^ 20)
    (hroom : top < 4 * (ws.length + vs.length)) :
    ∃ u, Machine.pushWords vs t = .error (.addressRange u) ∧ u.reg Machine.sp = 0xfffffffc#32 ∧ u.ms = s.ms ∧
      u.pc = s.pc ∧ FramePushed s u top ((ws ++ vs).take (top / 4)) := by
  induction vs generalizing t ws with
  | nil =>
    have := h.sp
    rw [List.length_nil] at hroom
    omega
  | cons v vs ih =>
    rw [List.length_cons] at hroom
    have hsp := h.sp
    by_cases hfit : 4 * (ws.length + 1) ≤ top
    · obtain ⟨u, hu, hon⟩ := h.push htop hmax hfit v
      obtain ⟨u', hu', hrest⟩ := ih hon (by rw [List.length_append, List.length_singleton]; omega)
      rw [List.append_assoc, List.singleton_append] at hrest
      refine ⟨u', ?_, hrest⟩
      rw [Machine.pushWords, hu]
      exact hu'
    · have hfull : top = 4 * ws.length := by omega
      refine ⟨t.setReg Machine.sp 0xfffffffc#32, ?_, State.setReg_reg_self _ _ _, h.ms, h.pc, ?_⟩
      · rw [Machine.pushWords, h.push_full hfull v]
        rfl
      · rw [hfull, Nat.mul_div_cancel_left _ (by decide), List.take_left]
        exact (hfull ▸ h.frame).setReg _

/-- The first push stops at any other stack pointer (R14, R60). -/
theorem pushWords_error {k : ErrorKind} {v : Word} {vs : List Word}
    (h : stackError .supervisor 4 (t.reg sp - 4#32) = some k) :
    pushWords (v :: vs) t = .error (raise k (t.setReg sp (t.reg sp - 4#32))) := by
  rw [pushWords, push_eq, h, checked_some]
  rfl

end

/-! ### Entering a handler as a list of pushes -/

/-- The words of a handler's frame, in the order they are pushed (R163, R247). -/
def frameWords (switch : Bool) (s : State) : List Word :=
  if switch then [s.reg sp, s.ms, BitVec.ofNat 32 s.pc.toNat] else [s.ms, BitVec.ofNat 32 s.pc.toNat]

/-- The state before the pushes: the stack pointer at `SSP` where the stack is switched. -/
def frameBase (switch : Bool) (s : State) : State :=
  if switch then s.setReg sp (BitVec.ofNat 32 s.ssp.toNat) else s

theorem except_bind_congr {α β : Type} {x : Except Fault α} {f g : α → Except Fault β}
    (h : ∀ a, x = .ok a → f a = g a) : (x >>= f) = (x >>= g) := by
  cases x with
  | error e => rfl
  | ok a => exact h a rfl

theorem push_keeps_ms_pc {priv : Mode} {v : Word} {s t : State} (h : push priv v s = .ok t) :
    t.ms = s.ms ∧ t.pc = s.pc := by
  obtain ⟨-, -, -, -, rfl⟩ := push_ok h
  exact ⟨rfl, rfl⟩

/-- `MS` and `PC` are pushed as they are in the state `s` before the entry. -/
theorem push_ms_pc {s t : State} (hms : t.ms = s.ms) (hpc : t.pc = s.pc) (f : State → Except Fault State) :
    (push .supervisor t.ms t >>= fun s2 => push .supervisor (s2.pc.setWidth 32) s2 >>= f) =
      pushWords [s.ms, BitVec.ofNat 32 s.pc.toNat] t >>= f := by
  simp only [pushWords, bind_assoc, except_ok_bind]
  rw [hms]
  refine except_bind_congr fun s2 h2 => ?_
  rw [BitVec.ofNat_toNat, (push_keeps_ms_pc h2).2, hpc]

theorem enterHandler_eq {e : Word} {switch : Bool} {s : State} (h : entryReservedZero e = true) :
    enterHandler e switch s =
      pushWords (frameWords switch s) (frameBase switch s) >>= fun u => setPC (addrOf e) u.setMI := by
  unfold enterHandler
  rw [h]
  cases switch with
  | false => exact push_ms_pc rfl rfl _
  | true =>
    have hbase : frameBase true s = s.setReg sp (s.ssp.setWidth 32) := by
      rw [frameBase, if_pos rfl, BitVec.ofNat_toNat]
    show (push .supervisor (s.reg sp) (s.setReg sp (s.ssp.setWidth 32)) >>= fun s1 => _) =
      (push .supervisor (s.reg sp) (frameBase true s) >>= fun u => pushWords _ u) >>= _
    rw [hbase, bind_assoc]
    refine except_bind_congr fun s1 h1 => ?_
    obtain ⟨hms, hpc⟩ := push_keeps_ms_pc h1
    exact push_ms_pc hms hpc _

/-! ### The parts of a table entry -/

theorem entryReservedZero_iff (e : Word) : entryReservedZero e = true ↔ e.toNat / 2 ^ 20 % 2 ^ 11 = 0 := by
  rw [entryReservedZero, beq_iff_eq, ← BitVec.toNat_inj, BitVec.extractLsb'_toNat, Nat.shiftRight_eq_div_pow]
  rfl

theorem sctEntry_toNat (n : BitVec 5) : (sctEntry n).toNat = 0x00100 + 4 * n.toNat := by
  have := n.isLt
  rw [sctEntry, BitVec.toNat_ofNat]
  omega

/-- A system call reads its entry and enters the handler where it is enabled (R163). -/
theorem systemCall_eq (n : BitVec 5) (s : State) :
    systemCall n s = if (s.wordAt (0x00100 + 4 * n.toNat)).getLsbD 31 = true then
        enterHandler (s.wordAt (0x00100 + 4 * n.toNat)) true s
      else .error (.sctDisabled s) := by
  have ha : (sctEntry n).toNat % 4 = 0 := by
    rw [sctEntry_toNat]
    omega
  rw [systemCall, loadWord_supervisor s ha, sctEntry_toNat, except_ok_bind, entryEnabled]
  cases (s.wordAt (0x00100 + 4 * n.toNat)).getLsbD 31 <;> rfl

/-- Service of a vector reads its entry and enters the handler where it is enabled (R247). -/
theorem service_eq (v : IntVec) (s : State) :
    service v s = if (s.wordAt (4 * v.val)).getLsbD 31 = true then enterHandler (s.wordAt (4 * v.val)) (!s.mi) s
      else .ok s := by
  have ha : (ivtEntry v).toNat % 4 = 0 := by
    rw [ivtEntry_toNat]
    omega
  rw [service, loadWord_supervisor s ha, ivtEntry_toNat, except_ok_bind, entryEnabled]
  cases (s.wordAt (4 * v.val)).getLsbD 31 <;> rfl

theorem enterHandler_reserved {e : Word} {switch : Bool} {s : State} (h : e.toNat / 2 ^ 20 % 2 ^ 11 ≠ 0) :
    enterHandler e switch s = .error (.reservedValue s) := by
  have hr : entryReservedZero e = false := by
    rwa [← Bool.not_eq_true, entryReservedZero_iff]
  rw [enterHandler, hr]
  rfl

/-! ### Where the frame is pushed, and where not -/

/-- The stack a handler's frame is pushed on: its top. -/
def frameTop (switch : Bool) (s : State) : Nat := if switch then s.ssp.toNat else (s.reg sp).toNat

theorem frameBase_sp (switch : Bool) (s : State) : ((frameBase switch s).reg sp).toNat = frameTop switch s := by
  cases switch with
  | false => rfl
  | true =>
    have := s.ssp.isLt
    rw [frameBase, if_pos rfl, State.setReg_reg_self, frameTop, if_pos rfl, BitVec.toNat_ofNat]
    omega

theorem onStack_frameBase (switch : Bool) (s : State) : OnStack s (frameBase switch s) (frameTop switch s) [] := by
  have hsp := frameBase_sp switch s
  cases switch with
  | false => exact onStack_self s
  | true =>
    have h := onStack_setReg s (BitVec.ofNat 32 s.ssp.toNat)
    rw [frameBase, if_pos rfl, State.setReg_reg_self] at hsp
    rwa [hsp] at h

/-- A frame on the stack, with `MI` set, is what entering a handler leaves before it jumps. -/
theorem OnStack.handlerFrame {s u : State} {top : Nat} {ws : List Word} (h : OnStack s u top ws) :
    HandlerFrame s u.setMI top ws := by
  refine ⟨by have := h.sp; rw [State.setMI_reg]; omega, h.frame, State.setMI_mi u, fun i hi => ?_⟩
  rw [State.setMI_ms, setMI_getLsbD, h.ms, decide_eq_false hi, Bool.or_false]

section
variable {e : Word} {switch : Bool} {s : State} (hres : e.toNat / 2 ^ 20 % 2 ^ 11 = 0)
include hres

/-- The handler is entered where its stack has room and its address is aligned. -/
theorem enterHandler_enters (halign : e.toNat % 4 = 0) (htop : frameTop switch s % 4 = 0)
    (hmax : frameTop switch s ≤ 2 ^ 20) (hroom : 4 * (frameWords switch s).length ≤ frameTop switch s) :
    ∃ t, enterHandler e switch s = .ok t ∧ EnteredHandler s t (frameTop switch s) (frameWords switch s) e := by
  obtain ⟨u, hu, hon⟩ := (onStack_frameBase switch s).pushWords (vs := frameWords switch s) htop hmax
    (by rwa [List.length_nil, Nat.zero_add])
  rw [enterHandler_eq ((entryReservedZero_iff e).mpr hres), hu, except_ok_bind, setPC_eq,
    targetError_eq_none.mpr (by rwa [addrOf_mod_four]), checked_none]
  exact ⟨_, rfl, hon.handlerFrame, rfl⟩

/-- At a misaligned handler address it stops after the frame is pushed (R243). -/
theorem enterHandler_misaligned (halign : e.toNat % 4 ≠ 0) (htop : frameTop switch s % 4 = 0)
    (hmax : frameTop switch s ≤ 2 ^ 20) (hroom : 4 * (frameWords switch s).length ≤ frameTop switch s) :
    ∃ u, enterHandler e switch s = .error (.alignment u) ∧ u.pc = s.pc ∧
      HandlerFrame s u (frameTop switch s) (frameWords switch s) := by
  obtain ⟨u, hu, hon⟩ := (onStack_frameBase switch s).pushWords (vs := frameWords switch s) htop hmax
    (by rwa [List.length_nil, Nat.zero_add])
  have htarget : targetError (addrOf e) = some .alignment := by
    rw [targetError, addrOf_mod_four, if_pos halign]
  rw [enterHandler_eq ((entryReservedZero_iff e).mpr hres), hu, except_ok_bind, setPC_eq, htarget, checked_some]
  exact ⟨_, rfl, hon.pc, hon.handlerFrame⟩

/-- Where its stack is too low it stops at the push that does not fit. -/
theorem enterHandler_full (htop : frameTop switch s % 4 = 0) (hmax : frameTop switch s ≤ 2 ^ 20)
    (hroom : frameTop switch s < 4 * (frameWords switch s).length) :
    ∃ u, enterHandler e switch s = .error (.addressRange u) ∧ u.reg sp = 0xfffffffc#32 ∧ u.ms = s.ms ∧ u.pc = s.pc ∧
      FramePushed s u (frameTop switch s) ((frameWords switch s).take (frameTop switch s / 4)) := by
  obtain ⟨u, hu, hrest⟩ := (onStack_frameBase switch s).pushWords_full (vs := frameWords switch s) htop hmax
    (by rwa [List.length_nil, Nat.zero_add])
  rw [enterHandler_eq ((entryReservedZero_iff e).mpr hres), hu]
  exact ⟨u, rfl, hrest⟩

/-- Where the first push fails, it stops there. -/
theorem enterHandler_first_push {k : ErrorKind}
    (h : stackError .supervisor 4 ((frameBase switch s).reg sp - 4#32) = some k) :
    enterHandler e switch s =
      .error (raise k ((frameBase switch s).setReg sp ((frameBase switch s).reg sp - 4#32))) := by
  obtain ⟨v, vs, hws⟩ : ∃ v vs, frameWords switch s = v :: vs := by
    cases switch with
    | false => exact ⟨_, _, rfl⟩
    | true => exact ⟨_, _, rfl⟩
  rw [enterHandler_eq ((entryReservedZero_iff e).mpr hres), hws, pushWords_error h]
  rfl

end

/-! ### System calls -/

theorem exec_scl (n : BitVec 5) (s : State) : exec (.scl n) s = outcomeOf (systemCall n s) := rfl

/-- A system call through an enabled entry. -/
theorem exec_scl_enabled {n : BitVec 5} {s : State} (h : (s.wordAt (0x00100 + 4 * n.toNat)).getLsbD 31 = true) :
    exec (.scl n) s = outcomeOf (enterHandler (s.wordAt (0x00100 + 4 * n.toNat)) true s) := by
  rw [exec_scl, systemCall_eq, if_pos h]

/-- Settles O27: three words fit on a supervisor stack whose top is at 12 or above. -/
theorem systemCallEnters : Obligations.SystemCallEnters := by
  rintro n s _ rfl hen hres halign htop hroom
  obtain ⟨t, ht, hentered⟩ :=
    enterHandler_enters (switch := true) hres halign htop (Nat.le_of_lt s.ssp.isLt) hroom
  refine ⟨t, ?_, hentered⟩
  rw [exec_scl_enabled hen, ht, outcomeOf_ok]

/-- Settles O28: the entry's own errors, then those of the pushes, then that of the handler's address. -/
theorem systemCallErrors : Obligations.SystemCallErrors := by
  rintro n s _ rfl
  have hmax : frameTop true s ≤ 2 ^ 20 := Nat.le_of_lt s.ssp.isLt
  refine ⟨fun hdis => ?disabled, fun hen hres => ?reserved, fun hen hres htop hlow => ?low,
    fun hen hres hmis => ?odd, fun hen hres htop hroom halign => ?target⟩
  case disabled =>
    rw [exec_scl, systemCall_eq, if_neg (by rw [hdis]; decide), outcomeOf_error]
  case reserved => rw [exec_scl_enabled hen, enterHandler_reserved hres, outcomeOf_error]
  case low =>
    obtain ⟨u, hu, hsp, hms, hpc, hframe⟩ := enterHandler_full (switch := true) hres htop hmax hlow
    refine ⟨u, by rw [exec_scl_enabled hen, hu, outcomeOf_error], hsp, hms, hpc, ?_⟩
    have htake : (frameWords true s).take (s.ssp.toNat / 4) = [s.reg sp, s.ms].take (s.ssp.toNat / 4) := by
      have : s.ssp.toNat / 4 < 3 := by omega
      interval_cases s.ssp.toNat / 4 <;> rfl
    rwa [← htake]
  case odd =>
    have hlt := s.ssp.isLt
    have hsub : (BitVec.ofNat 32 s.ssp.toNat - 4#32).toNat =
        if s.ssp.toNat < 4 then s.ssp.toNat + 2 ^ 32 - 4 else s.ssp.toNat - 4 := by
      split <;> bv_omega
    have herr : stackError .supervisor 4 (BitVec.ofNat 32 s.ssp.toNat - 4#32) =
        some (if s.ssp.toNat < 4 then .addressRange else .alignment) := by
      split
      · next hlow =>
        rw [if_pos hlow] at hsub
        exact stackError_range (by omega)
      · next hlow =>
        rw [if_neg hlow] at hsub
        exact stackError_misaligned (by omega) (by omega)
    have hbase : frameBase true s = s.setReg sp (BitVec.ofNat 32 s.ssp.toNat) := rfl
    rw [exec_scl_enabled hen, enterHandler_first_push hres (by rwa [hbase, State.setReg_reg_self]), outcomeOf_error,
      hbase, State.setReg_reg_self, State.setReg_setReg]
  case target =>
    obtain ⟨u, hu, hpc, hframe⟩ := enterHandler_misaligned (switch := true) hres halign htop hmax hroom
    exact ⟨u, by rw [exec_scl_enabled hen, hu, outcomeOf_error], hpc, hframe⟩

/-! ### Interrupts -/

theorem service_enabled {v : IntVec} {s : State} (h : (s.wordAt (4 * v.val)).getLsbD 31 = true) :
    service v s = enterHandler (s.wordAt (4 * v.val)) (!s.mi) s := by
  rw [service_eq, if_pos h]

/-- Settles O44: from user mode the frame is that of a system call. -/
theorem interruptEntersFromUserMode : Obligations.InterruptEntersFromUserMode := by
  rintro v s _ rfl hmi hen hres halign htop hroom
  rw [service_enabled hen, hmi]
  exact enterHandler_enters (switch := true) hres halign htop (Nat.le_of_lt s.ssp.isLt) hroom

/-- Settles O45: from supervisor mode the frame has two words, on the current stack. -/
theorem interruptEntersFromSupervisorMode : Obligations.InterruptEntersFromSupervisorMode := by
  rintro v s _ _ rfl hmi hen hres halign rfl htop hroom hmax
  rw [service_enabled hen, hmi]
  exact enterHandler_enters (switch := false) hres halign htop hmax hroom

/-- The stack pointer after the first push, as a number: it goes round below 4. -/
theorem sub_four_toNat (v : Word) :
    (v - 4#32).toNat = if v.toNat < 4 then v.toNat + 2 ^ 32 - 4 else v.toNat - 4 := by
  split <;> bv_omega

/-- The error of the first push at a misaligned stack pointer, or one out of range (R14, R60). -/
theorem first_push_error (v : Word) :
    (v.toNat < 4 ∨ 2 ^ 20 + 4 ≤ v.toNat → stackError .supervisor 4 (v - 4#32) = some .addressRange) ∧
      (4 ≤ v.toNat → v.toNat < 2 ^ 20 + 4 → v.toNat % 4 ≠ 0 →
        stackError .supervisor 4 (v - 4#32) = some .alignment) := by
  have hsub := sub_four_toNat v
  have hlt := v.isLt
  refine ⟨fun hout => stackError_range ?_, fun hlow hhigh hmis => stackError_misaligned ?_ ?_⟩
  · split at hsub <;> omega
  · rw [if_neg (by omega)] at hsub
    omega
  · rw [if_neg (by omega)] at hsub
    omega

/-- Settles O46: a disabled vector is lost; else the errors of entering a handler, on the stack of the mode. -/
theorem interruptNotEntered : Obligations.InterruptNotEntered := by
  rintro v s _ _ rfl rfl
  refine ⟨fun hdis => ?disabled, fun hen hres => ?reserved, fun hen hres => ?_⟩
  case disabled => rw [service_eq, if_neg (by rw [hdis]; decide)]
  case reserved => rw [service_enabled hen, enterHandler_reserved hres]
  rw [service_enabled hen]
  have hmax : frameTop true s ≤ 2 ^ 20 := Nat.le_of_lt s.ssp.isLt
  have hbase : ((frameBase true s).reg sp).toNat = s.ssp.toNat := frameBase_sp true s
  refine ⟨fun hmi htop hlow => ?_, fun hmi hmis => ?_, fun hmi htop hout => ?_, fun hmi _ hout => ?_,
    fun hmi hmis hlow hhigh => ?_, fun halign hstack => ?_⟩
  · rw [hmi]
    obtain ⟨u, hu, -⟩ := enterHandler_full (switch := true) hres htop hmax hlow
    exact ⟨u, hu⟩
  · rw [hmi]
    have hlt := s.ssp.isLt
    obtain ⟨hrange, halign⟩ := first_push_error ((frameBase true s).reg sp)
    rw [hbase] at hrange halign
    split
    · next hlow => exact ⟨_, enterHandler_first_push (switch := true) hres (hrange (.inl hlow))⟩
    · next hlow =>
      exact ⟨_, enterHandler_first_push (switch := true) hres (halign (by omega) (by omega) hmis)⟩
  · rw [hmi]
    by_cases hmax : (s.reg sp).toNat ≤ 2 ^ 20
    · obtain ⟨u, hu, -⟩ := enterHandler_full (switch := false) hres htop hmax
        (show (s.reg sp).toNat < 8 by omega)
      exact ⟨u, hu⟩
    · exact ⟨_, enterHandler_first_push (switch := false) hres
        ((first_push_error (s.reg sp)).1 (.inr (by omega)))⟩
  · rw [hmi]
    exact ⟨_, enterHandler_first_push (switch := false) hres ((first_push_error (s.reg sp)).1 hout)⟩
  · rw [hmi]
    exact ⟨_, enterHandler_first_push (switch := false) hres ((first_push_error (s.reg sp)).2 hlow hhigh hmis)⟩
  · obtain ⟨hmi, htop, hroom⟩ | ⟨hmi, htop, hroom, hmax'⟩ := hstack
    · rw [hmi]
      obtain ⟨u, hu, -⟩ := enterHandler_misaligned (switch := true) hres halign htop hmax hroom
      exact ⟨u, hu⟩
    · rw [hmi]
      obtain ⟨u, hu, -⟩ := enterHandler_misaligned (switch := false) hres halign htop hmax' hroom
      exact ⟨u, hu⟩

/-! ### Returning from a handler -/

section
variable {s : State}

/-- The word at the stack top, where the stack pointer is in range and aligned. -/
theorem stackTop_supervisor (hlt : (s.reg sp).toNat < 2 ^ 20) (ha : (s.reg sp).toNat % 4 = 0) :
    stackTop .supervisor s = .ok (s.wordAt (s.reg sp).toNat) := by
  rw [stackTop_eq, stackError_supervisor hlt ha, checked_none, addrOf_toNat_of_lt hlt]

theorem stackTop_range (h : 2 ^ 20 ≤ (s.reg sp).toNat) : stackTop .supervisor s = .error (.addressRange s) := by
  rw [stackTop_eq, stackError_range h, checked_some]
  rfl

theorem stackTop_misaligned (h : (s.reg sp).toNat < 2 ^ 20) (ha : (s.reg sp).toNat % 4 ≠ 0) :
    stackTop .supervisor s = .error (.alignment s) := by
  rw [stackTop_eq, stackError_misaligned h ha, checked_some]
  rfl

theorem popped_sp_toNat (h : (s.reg sp).toNat < 2 ^ 20) : (s.popped.reg sp).toNat = (s.reg sp).toNat + 4 := by
  rw [State.popped_reg_sp]
  bv_omega

theorem setPC_aligned {a : Addr} (h : a.toNat % 4 = 0) : setPC a s = .ok { s with pc := a } := by
  rw [setPC_eq, targetError_eq_none.mpr h, checked_none]

theorem setPC_misaligned {a : Addr} (h : a.toNat % 4 ≠ 0) : setPC a s = .error (.alignment s) := by
  rw [setPC_eq, targetError, if_pos h, checked_some]
  rfl

/-- After the return address is popped into `PC` (R165). -/
def afterPC (s : State) : State := { s.popped with pc := addrOf (s.wordAt (s.reg sp).toNat) }

/-- RETI and RETS from the loading of `MS` on (R165, D11). -/
def restoreMS (s1 : State) (m : Word) : Except Fault State :=
  if !msReservedZero m then .error (.reservedValue s1)
  else if (State.popped { s1 with ms := m }).mi then .ok (State.popped { s1 with ms := m })
  else stackTop .supervisor (State.popped { s1 with ms := m }) >>= fun u =>
    .ok ((State.popped { s1 with ms := m }).setReg sp u)

theorem returnFromHandler_eq (s : State) :
    returnFromHandler s = stackTop .supervisor s >>= fun t => setPC (addrOf t) s.popped >>= fun s1 =>
      stackTop .supervisor s1 >>= restoreMS s1 := rfl

/-- An error at the stack top. -/
theorem returnFromHandler_top_error {f : Fault} (h : stackTop .supervisor s = .error f) :
    returnFromHandler s = .error f := by
  rw [returnFromHandler_eq, h]
  rfl

section
variable (hlt : (s.reg sp).toNat < 2 ^ 20) (ha : (s.reg sp).toNat % 4 = 0)
include hlt ha

theorem returnFromHandler_misaligned (hw : (s.wordAt (s.reg sp).toNat).toNat % 4 ≠ 0) :
    returnFromHandler s = .error (.alignment s.popped) := by
  rw [returnFromHandler_eq, stackTop_supervisor hlt ha, except_ok_bind,
    setPC_misaligned (by rwa [addrOf_mod_four])]
  rfl

/-- With an aligned return address the next word is the image of `MS`. -/
theorem returnFromHandler_afterPC (hw : (s.wordAt (s.reg sp).toNat).toNat % 4 = 0) :
    returnFromHandler s = stackTop .supervisor (afterPC s) >>= restoreMS (afterPC s) := by
  rw [returnFromHandler_eq, stackTop_supervisor hlt ha, except_ok_bind, setPC_aligned (by rwa [addrOf_mod_four])]
  rfl

end

theorem afterPC_sp : (afterPC s).reg sp = s.reg sp + 4#32 := State.popped_reg_sp s

theorem afterPC_sp_toNat (h : (s.reg sp).toNat < 2 ^ 20) : ((afterPC s).reg sp).toNat = (s.reg sp).toNat + 4 :=
  popped_sp_toNat h

/-- The image of `MS` is the word above the return address. -/
theorem stackTop_afterPC (hlt : (s.reg sp).toNat < 2 ^ 20) (ha : (s.reg sp).toNat % 4 = 0)
    (hlt2 : (s.reg sp).toNat + 4 < 2 ^ 20) :
    stackTop .supervisor (afterPC s) = .ok (s.wordAt ((s.reg sp).toNat + 4)) := by
  have hsp := afterPC_sp_toNat hlt
  rw [stackTop_supervisor (by omega) (by omega), hsp]
  rfl

theorem restoreMS_reserved {m : Word} (h : m &&& 0xFFFEFFF8#32 ≠ 0#32) :
    restoreMS s m = .error (.reservedValue s) := by
  have hz : msReservedZero m = false := beq_false_of_ne h
  rw [restoreMS, hz]
  rfl

theorem restoreMS_supervisor {m : Word} (h : m &&& 0xFFFEFFF8#32 = 0#32) (hmi : m.getLsbD 16 = true) :
    restoreMS s m = .ok (State.popped { s with ms := m }) := by
  have hz : msReservedZero m = true := beq_of_eq h
  have hu : (State.popped { s with ms := m }).mi = true := hmi
  rw [restoreMS, hz, hu]
  rfl

/-- Back in user mode the stack pointer is the third word (R165). -/
theorem restoreMS_user {m : Word} (h : m &&& 0xFFFEFFF8#32 = 0#32) (hmi : m.getLsbD 16 = false) :
    restoreMS s m = stackTop .supervisor (State.popped { s with ms := m }) >>= fun u =>
      .ok ((State.popped { s with ms := m }).setReg sp u) := by
  have hz : msReservedZero m = true := beq_of_eq h
  have hu : (State.popped { s with ms := m }).mi = false := hmi
  rw [restoreMS, hz, hu]
  rfl

/-- The stack pointer two words up, as the last pop leaves it. -/
theorem popped_afterPC (m : Word) :
    State.popped { afterPC s with ms := m } = State.setReg { afterPC s with ms := m } sp (s.reg sp + 8#32) := by
  have h : (afterPC s).reg sp + 4#32 = s.reg sp + 8#32 := by
    rw [afterPC_sp, BitVec.add_assoc]
    rfl
  rw [← h]
  rfl

theorem leftHandler_setReg (m v : Word) :
    LeftHandler s (State.setReg { afterPC s with ms := m } sp v) (addrOf (s.wordAt (s.reg sp).toNat)) m v := by
  refine ⟨rfl, rfl, State.setReg_reg_self _ sp v, fun r hr => ?_, fun _ => rfl, systemKept_refl s⟩
  have hne : r ≠ sp := by simpa using hr
  exact (State.setReg_reg_ne _ v hne).trans (State.popped_reg_ne s hne)

theorem exec_handlerReturn {i : Instr} (hi : i = .reti ∨ i = .rets) : exec i s = outcomeOf (privilegedReturn s) := by
  obtain rfl | rfl := hi <;> rfl

theorem exec_handlerReturn_supervisor {i : Instr} (hi : i = .reti ∨ i = .rets) (hmi : s.mi = true) :
    exec i s = outcomeOf (returnFromHandler s) := by
  rw [exec_handlerReturn hi, privilegedReturn, privileged_supervisor hmi]
  rfl

end

/-- Settles O30: the two or three words at the stack top, read in turn. -/
theorem handlerReturnRestores : Obligations.HandlerReturnRestores := by
  rintro i s _ _ _ hi hmi rfl ha hlt2 rfl rfl hw hm
  have hlt : (s.reg sp).toNat < 2 ^ 20 := by omega
  rw [exec_handlerReturn_supervisor hi hmi, returnFromHandler_afterPC hlt ha hw, stackTop_afterPC hlt ha hlt2,
    except_ok_bind]
  refine ⟨fun hsup => ?_, fun huser hlt3 => ?_⟩
  · rw [restoreMS_supervisor hm hsup, popped_afterPC]
    exact ⟨_, rfl, leftHandler_setReg _ _⟩
  · have hsp3 : (s.reg sp + 8#32).toNat = (s.reg sp).toNat + 8 := by bv_omega
    rw [restoreMS_user hm huser, popped_afterPC,
      stackTop_supervisor (by rw [State.setReg_reg_self]; omega) (by rw [State.setReg_reg_self]; omega),
      State.setReg_reg_self, hsp3, except_ok_bind, State.setReg_setReg]
    exact ⟨_, rfl, leftHandler_setReg _ _⟩

/-- Settles O31: each stop of the same sequence. -/
theorem handlerReturnErrors : Obligations.HandlerReturnErrors := by
  rintro i s _ _ _ _ hi rfl rfl rfl rfl
  refine ⟨fun hmi => ?user, fun hmi hout => ?range, fun hmi hlt hmis => ?odd, fun hmi hlt ha => ?_⟩
  case user =>
    rw [exec_handlerReturn hi, privilegedReturn, privileged_user hmi]
    rfl
  all_goals rw [exec_handlerReturn_supervisor hi hmi]
  case range => rw [returnFromHandler_top_error (stackTop_range hout), outcomeOf_error]
  case odd => rw [returnFromHandler_top_error (stackTop_misaligned hlt hmis), outcomeOf_error]
  have hsp := afterPC_sp_toNat hlt
  refine ⟨fun hw => ?_, fun hw hout => ?_, fun hw hlt2 hm => ?_, fun hw hlt2 hm huser hout => ?_⟩
  · rw [returnFromHandler_misaligned hlt ha hw, outcomeOf_error]
    rfl
  · rw [returnFromHandler_afterPC hlt ha hw, stackTop_range (by omega)]
    rfl
  · rw [returnFromHandler_afterPC hlt ha hw, stackTop_afterPC hlt ha hlt2, except_ok_bind, restoreMS_reserved hm]
    rfl
  · have hsp3 : (s.reg sp + 8#32).toNat = (s.reg sp).toNat + 8 := by bv_omega
    rw [returnFromHandler_afterPC hlt ha hw, stackTop_afterPC hlt ha hlt2, except_ok_bind,
      restoreMS_user hm huser, popped_afterPC, stackTop_range (by rw [State.setReg_reg_self]; omega)]
    rfl

/-! ### The round trip -/

/-- A system call that completes has entered its handler: every other way ends in an error. -/
theorem exec_scl_next {n : BitVec 5} {s t : State} (hssp : s.ssp.toNat % 4 = 0) (h : exec (.scl n) s = .next t) :
    12 ≤ s.ssp.toNat ∧
      EnteredHandler s t s.ssp.toNat (frameWords true s) (s.wordAt (0x00100 + 4 * n.toNat)) := by
  obtain ⟨hdisabled, hreserved, hlow, -, htarget⟩ := systemCallErrors n s _ rfl
  have hen : (s.wordAt (0x00100 + 4 * n.toNat)).getLsbD 31 = true := by
    by_contra hdis
    rw [hdisabled (by simpa using hdis)] at h
    cases h
  have hres : (s.wordAt (0x00100 + 4 * n.toNat)).toNat / 2 ^ 20 % 2 ^ 11 = 0 := by
    by_contra hres
    rw [hreserved hen hres] at h
    cases h
  have hroom : 12 ≤ s.ssp.toNat := by
    by_contra hroom
    obtain ⟨u, hu, -⟩ := hlow hen hres hssp (by omega)
    rw [hu] at h
    cases h
  have halign : (s.wordAt (0x00100 + 4 * n.toNat)).toNat % 4 = 0 := by
    by_contra hmis
    obtain ⟨u, hu, -⟩ := htarget hen hres hssp hroom hmis
    rw [hu] at h
    cases h
  obtain ⟨t', ht', hentered⟩ := systemCallEnters n s _ rfl hen hres halign hssp hroom
  rw [ht'] at h
  obtain rfl := Host.Outcome.next.inj h
  exact ⟨hroom, hentered⟩

section
variable {v : IntVec} {s t : State} (hen : (s.wordAt (4 * v.val)).getLsbD 31 = true) (h : service v s = .ok t)
include hen h

theorem service_ok_reserved : (s.wordAt (4 * v.val)).toNat / 2 ^ 20 % 2 ^ 11 = 0 := by
  by_contra hres
  rw [(interruptNotEntered v s _ _ rfl rfl).2.1 hen hres] at h
  cases h

/-- An interrupt served in user mode has entered its handler. -/
theorem service_ok_user (hmi : s.mi = false) (hssp : s.ssp.toNat % 4 = 0) :
    12 ≤ s.ssp.toNat ∧ EnteredHandler s t s.ssp.toNat (frameWords true s) (s.wordAt (4 * v.val)) := by
  have hres := service_ok_reserved hen h
  obtain ⟨hlow, -, -, -, -, htarget⟩ := (interruptNotEntered v s _ _ rfl rfl).2.2 hen hres
  have hroom : 12 ≤ s.ssp.toNat := by
    by_contra hroom
    obtain ⟨u, hu⟩ := hlow hmi hssp (by omega)
    rw [hu] at h
    cases h
  have halign : (s.wordAt (4 * v.val)).toNat % 4 = 0 := by
    by_contra hmis
    obtain ⟨u, hu⟩ := htarget hmis (.inl ⟨hmi, hssp, hroom⟩)
    rw [hu] at h
    cases h
  obtain ⟨t', ht', hentered⟩ := interruptEntersFromUserMode v s _ rfl hmi hen hres halign hssp hroom
  rw [ht'] at h
  obtain rfl := Except.ok.inj h
  exact ⟨hroom, hentered⟩

/-- An interrupt served in supervisor mode has entered its handler on the current stack. -/
theorem service_ok_supervisor (hmi : s.mi = true) :
    (s.reg sp).toNat % 4 = 0 ∧ 8 ≤ (s.reg sp).toNat ∧ (s.reg sp).toNat ≤ 2 ^ 20 ∧
      EnteredHandler s t (s.reg sp).toNat (frameWords false s) (s.wordAt (4 * v.val)) := by
  have hres := service_ok_reserved hen h
  obtain ⟨-, -, hout, hfar, hmis, htarget⟩ := (interruptNotEntered v s _ _ rfl rfl).2.2 hen hres
  have htop : (s.reg sp).toNat % 4 = 0 := by
    by_contra hodd
    by_cases hin : 4 ≤ (s.reg sp).toNat ∧ (s.reg sp).toNat < 2 ^ 20 + 4
    · obtain ⟨u, hu⟩ := hmis hmi hodd hin.1 hin.2
      rw [hu] at h
      cases h
    · obtain ⟨u, hu⟩ := hfar hmi hodd (by omega)
      rw [hu] at h
      cases h
  have hroom : 8 ≤ (s.reg sp).toNat ∧ (s.reg sp).toNat ≤ 2 ^ 20 := by
    by_contra hroom
    obtain ⟨u, hu⟩ := hout hmi htop (by omega)
    rw [hu] at h
    cases h
  have halign : (s.wordAt (4 * v.val)).toNat % 4 = 0 := by
    by_contra hodd
    obtain ⟨u, hu⟩ := htarget hodd (.inr ⟨hmi, htop, hroom.1, hroom.2⟩)
    rw [hu] at h
    cases h
  obtain ⟨t', ht', hentered⟩ :=
    interruptEntersFromSupervisorMode v s _ _ rfl hmi hen hres halign rfl htop hroom.1 hroom.2
  rw [ht'] at h
  obtain rfl := Except.ok.inj h
  exact ⟨htop, hroom.1, hroom.2, hentered⟩

end

/-- Words that the handler left are read as they were pushed. -/
theorem ReadyToReturn.wordAt_eq {t h : State} {n x : Nat} (hr : ReadyToReturn t h n) (hlow : (t.reg sp).toNat ≤ x)
    (hhigh : x + 4 ≤ (t.reg sp).toNat + n) : h.wordAt x = t.wordAt x :=
  State.wordAt_congr fun k hk => hr.2.2 (x + k) (by omega) (by omega)

/-- With the return address and the image of `MS` of `s` at the stack top, RETI and RETS go back to `s` (R252). -/
theorem exec_return_to {i : Instr} {s h : State} (hi : i = .reti ∨ i = .rets) (hinv : StateInv s) (hmi : h.mi = true)
    (ha : (h.reg sp).toNat % 4 = 0) (hlt : (h.reg sp).toNat + 4 < 2 ^ 20)
    (hpc : h.wordAt (h.reg sp).toNat = BitVec.ofNat 32 s.pc.toNat) (hms : h.wordAt ((h.reg sp).toNat + 4) = s.ms) :
    (s.mi = true → ∃ u, exec i h = .next u ∧ LeftHandler h u s.pc s.ms (h.reg sp + 8#32)) ∧
      (s.mi = false → (h.reg sp).toNat + 8 < 2 ^ 20 →
        ∃ u, exec i h = .next u ∧ LeftHandler h u s.pc s.ms (h.wordAt ((h.reg sp).toNat + 8))) := by
  obtain ⟨hpcAlign, -, hreserved, -, -⟩ := hinv
  have hlt20 := s.pc.isLt
  have hw : (h.wordAt (h.reg sp).toNat).toNat % 4 = 0 := by
    rw [hpc, BitVec.toNat_ofNat]
    omega
  have hback : (h.wordAt (h.reg sp).toNat).extractLsb' 0 20 = s.pc := by
    rw [hpc, ← BitVec.toNat_inj, BitVec.extractLsb'_toNat, BitVec.toNat_ofNat, Nat.shiftRight_zero]
    omega
  have hm : h.wordAt ((h.reg sp).toNat + 4) &&& 0xFFFEFFF8#32 = 0#32 := by
    rw [hms]
    exact beq_iff_eq.mp hreserved
  have hreturn := handlerReturnRestores i h _ _ _ hi hmi rfl ha hlt rfl rfl hw hm
  rwa [hback, hms] at hreturn

/-- The frame of a system call, or of an interrupt taken in user mode, brings `s` back; to supervisor mode the stack
pointer stays in the frame (U26). -/
theorem exec_return_switched {i : Instr} {s t h : State} {e : Word} (hi : i = .reti ∨ i = .rets) (hinv : StateInv s)
    (hroom : 12 ≤ s.ssp.toNat) (hentered : EnteredHandler s t s.ssp.toNat (frameWords true s) e)
    (hr : ReadyToReturn t h 12) :
    (s.mi = false → ∃ u, exec i h = .next u ∧ LeftHandler h u s.pc s.ms (s.reg sp)) ∧
      (s.mi = true → ∃ u, exec i h = .next u ∧ LeftHandler h u s.pc s.ms (BitVec.ofNat 32 (s.ssp.toNat - 4))) := by
  obtain ⟨⟨htsp, ⟨hwords, -, -, -⟩, -, -⟩, -⟩ := hentered
  obtain ⟨hmi, hhsp, -⟩ := id hr
  have hssp := hinv.2.1
  have hmax := s.ssp.isLt
  have hsp : (t.reg sp).toNat = s.ssp.toNat - 12 := htsp
  have hold : t.wordAt (s.ssp.toNat - 4) = s.reg sp := hwords 0 (by decide : 0 < 3)
  have hms : t.wordAt (s.ssp.toNat - 8) = s.ms := hwords 1 (by decide : 1 < 3)
  have hpc : t.wordAt (s.ssp.toNat - 12) = BitVec.ofNat 32 s.pc.toNat := hwords 2 (by decide : 2 < 3)
  have h0 : h.wordAt (s.ssp.toNat - 12) = BitVec.ofNat 32 s.pc.toNat := by
    rw [hr.wordAt_eq (by omega) (by omega), hpc]
  have h1 : h.wordAt (s.ssp.toNat - 12 + 4) = s.ms := by
    rw [hr.wordAt_eq (by omega) (by omega), show s.ssp.toNat - 12 + 4 = s.ssp.toNat - 8 by omega, hms]
  have h2 : h.wordAt (s.ssp.toNat - 12 + 8) = s.reg sp := by
    rw [hr.wordAt_eq (by omega) (by omega), show s.ssp.toNat - 12 + 8 = s.ssp.toNat - 4 by omega, hold]
  have hhsp' : (h.reg sp).toNat = s.ssp.toNat - 12 := by rw [hhsp, hsp]
  obtain ⟨hsup, huser⟩ := exec_return_to hi hinv hmi (by omega) (by omega) (by rwa [hhsp']) (by rwa [hhsp'])
  refine ⟨fun hm => ?_, fun hm => ?_⟩
  · have := huser hm (by omega)
    rwa [hhsp', h2] at this
  · have hup : h.reg sp + 8#32 = BitVec.ofNat 32 (s.ssp.toNat - 4) := by bv_omega
    have := hsup hm
    rwa [hup] at this

/-- The frame of an interrupt taken in supervisor mode brings `s` back. -/
theorem exec_return_unswitched {i : Instr} {s t h : State} {e : Word} (hi : i = .reti ∨ i = .rets)
    (hinv : StateInv s) (hm : s.mi = true) (htop : (s.reg sp).toNat % 4 = 0) (hroom : 8 ≤ (s.reg sp).toNat)
    (hmax : (s.reg sp).toNat ≤ 2 ^ 20) (hentered : EnteredHandler s t (s.reg sp).toNat (frameWords false s) e)
    (hr : ReadyToReturn t h 8) : ∃ u, exec i h = .next u ∧ LeftHandler h u s.pc s.ms (s.reg sp) := by
  obtain ⟨⟨htsp, ⟨hwords, -, -, -⟩, -, -⟩, -⟩ := hentered
  obtain ⟨hmi, hhsp, -⟩ := id hr
  have hsp : (t.reg sp).toNat = (s.reg sp).toNat - 8 := htsp
  have hms : t.wordAt ((s.reg sp).toNat - 4) = s.ms := hwords 0 (by decide : 0 < 2)
  have hpc : t.wordAt ((s.reg sp).toNat - 8) = BitVec.ofNat 32 s.pc.toNat := hwords 1 (by decide : 1 < 2)
  have h0 : h.wordAt ((s.reg sp).toNat - 8) = BitVec.ofNat 32 s.pc.toNat := by
    rw [hr.wordAt_eq (by omega) (by omega), hpc]
  have h1 : h.wordAt ((s.reg sp).toNat - 8 + 4) = s.ms := by
    rw [hr.wordAt_eq (by omega) (by omega), show (s.reg sp).toNat - 8 + 4 = (s.reg sp).toNat - 4 by omega, hms]
  have hhsp' : (h.reg sp).toNat = (s.reg sp).toNat - 8 := by rw [hhsp, hsp]
  have hup : h.reg sp + 8#32 = s.reg sp := by bv_omega
  have := (exec_return_to hi hinv hmi (by omega) (by omega) (by rwa [hhsp']) (by rwa [hhsp'])).1 hm
  rwa [hup] at this

/-- Settles O48: what has completed has entered its handler, and the frame it left brings the state back. -/
theorem handlerReturnUndoesEntry : Obligations.HandlerReturnUndoesEntry := by
  intro s t h i hinv hi
  have hssp := hinv.2.1
  refine ⟨fun n hcall hm hr => ?_, fun n hcall hm hr => ?_, fun v hen hserve hm hr => ?_,
    fun v hen hserve hm hr => ?_⟩
  · obtain ⟨hroom, hentered⟩ := exec_scl_next hssp hcall
    exact (exec_return_switched hi hinv hroom hentered hr).1 hm
  · obtain ⟨hroom, hentered⟩ := exec_scl_next hssp hcall
    exact (exec_return_switched hi hinv hroom hentered hr).2 hm
  · obtain ⟨hroom, hentered⟩ := service_ok_user hen hserve hm hssp
    exact (exec_return_switched hi hinv hroom hentered hr).1 hm
  · obtain ⟨htop, hroom, hmax, hentered⟩ := service_ok_supervisor hen hserve hm
    exact exec_return_unswitched hi hinv hm htop hroom hmax hentered hr

end Sys2Proof.Machine

/-! # The arithmetic and logical instructions (40_arithmetic.md, 41_logic_shift.md)

Each instruction is one of a few shapes applied to a function on words. A shape says when the instruction completes and
what it leaves; a fact about the function says which value that is. -/

namespace Sys2Proof.Machine

/-! ### What a partial or double write leaves -/

@[simp] theorem putByte_ms (s : State) (d : Operand) (b : Byte) : (putByte s d b).ms = s.ms := by
  cases d <;> rfl

@[simp] theorem putByte_pc (s : State) (d : Operand) (b : Byte) : (putByte s d b).pc = s.pc := by
  cases d <;> rfl

theorem systemKept_putByte (s : State) (d : Operand) (b : Byte) : SystemKept s (putByte s d b) := by
  cases d <;> exact systemKept_refl s

@[simp] theorem putShort_ms (s : State) (d : Operand) (h : BitVec 16) : (putShort s d h).ms = s.ms := by
  cases d <;> rfl

@[simp] theorem putShort_pc (s : State) (d : Operand) (h : BitVec 16) : (putShort s d h).pc = s.pc := by
  cases d <;> rfl

theorem systemKept_putShort (s : State) (d : Operand) (h : BitVec 16) : SystemKept s (putShort s d h) := by
  cases d <;> exact systemKept_refl s

@[simp] theorem putDouble_ms (s : State) (d : Operand) (v : BitVec 64) : (putDouble s d v).ms = s.ms := by
  cases d <;> rfl

@[simp] theorem putDouble_pc (s : State) (d : Operand) (v : BitVec 64) : (putDouble s d v).pc = s.pc := by
  cases d <;> rfl

theorem systemKept_putDouble (s : State) (d : Operand) (v : BitVec 64) : SystemKept s (putDouble s d v) := by
  cases d <;> exact systemKept_refl s

/-! ### Shapes -/

theorem CompletesUnless.mono {i : Instr} {s : State} {es : List (Option ErrorKind)} {P Q : State → Prop}
    (h : CompletesUnless i s es P) (hPQ : ∀ t, P t → Q t) : CompletesUnless i s es Q := by
  obtain ⟨hok, herr⟩ := h
  refine ⟨fun hn => ?_, herr⟩
  obtain ⟨t, ht, hP⟩ := hok hn
  exact ⟨t, ht, hPQ t hP⟩

section
variable {i : Instr} {s : State} {d o1 o2 : Operand}

theorem binaryOp_completes {f : Word → Word → Word} (h : exec i s = outcomeOf (binaryOp f d o1 o2 s)) :
    CompletesUnless i s [operandError s o1, operandError s o2, operandError s d]
      (fun t => ResultIn s t d (f (operandValue s o1) (operandValue s o2))) :=
  completesUnless_of_checked (by rw [h, binaryOp_eq]) fun _ => resultIn_putOperand s d _

theorem binaryImm_completes {f : Word → Word → Word} {imm : BitVec 16}
    (h : exec i s = outcomeOf (binaryImm f d o1 imm s)) :
    CompletesUnless i s [operandError s o1, operandError s d]
      (fun t => ResultIn s t d (f (operandValue s o1) (signImm imm))) :=
  completesUnless_of_checked (by rw [h, binaryImm_eq]) fun _ => resultIn_putOperand s d _

theorem unaryOp_completes {f : Word → Word} (h : exec i s = outcomeOf (unaryOp f d o1 s)) :
    CompletesUnless i s [operandError s o1, operandError s d] (fun t => ResultIn s t d (f (operandValue s o1))) :=
  completesUnless_of_checked (by rw [h, unaryOp_eq]) fun _ => resultIn_putOperand s d _

theorem unaryAbs_completes {f : Word → Word} {a : Addr} (h : exec i s = outcomeOf (unaryAbs f d a s)) :
    CompletesUnless i s [accessError s.mode 4 a, operandError s d]
      (fun t => ResultIn s t d (f (s.wordAt a.toNat))) :=
  completesUnless_of_checked (by rw [h, unaryAbs_eq]) fun _ => resultIn_putOperand s d _

/-- The frame of the byte multiplies: the short in the low half of the destination, and its flags. -/
theorem lowResult_putShort (s : State) (d : Operand) (r : BitVec 16) :
    WroteLow s ((putShort s d r).setFlags r) d 2 r ∧ FlagsFrom s ((putShort s d r).setFlags r) r ∧
      ((putShort s d r).setFlags r).pc = s.pc ∧ SystemKept s ((putShort s d r).setFlags r) :=
  ⟨wroteLow_congr (wroteLow_putShort s d r) (fun _ => rfl) (fun _ => rfl), flagsFrom_congr (putShort_ms s d r),
    putShort_pc s d r, systemKept_putShort s d r⟩

/-- The frame of the word multiplies: the doubleword in its destination, and its flags. -/
theorem doubleResult_putDouble (s : State) (d : Operand) (r : BitVec 64) :
    WroteDouble s ((putDouble s d r).setFlags r) d r ∧ FlagsFrom s ((putDouble s d r).setFlags r) r ∧
      ((putDouble s d r).setFlags r).pc = s.pc ∧ SystemKept s ((putDouble s d r).setFlags r) :=
  ⟨wroteDouble_congr (wroteDouble_putDouble s d r) (fun _ => rfl) (fun _ => rfl), flagsFrom_congr (putDouble_ms s d r),
    putDouble_pc s d r, systemKept_putDouble s d r⟩

theorem binaryShort_completes {f : Word → Word → BitVec 16} (h : exec i s = outcomeOf (binaryShort f d o1 o2 s))
    {P : BitVec 16 → Prop} (hP : P (f (operandValue s o1) (operandValue s o2))) :
    CompletesUnless i s [operandError s o1, operandError s o2, operandError s d]
      (fun t => ∃ r, P r ∧ WroteLow s t d 2 r ∧ FlagsFrom s t r ∧ t.pc = s.pc ∧ SystemKept s t) :=
  completesUnless_of_checked (by rw [h, binaryShort_eq]) fun _ => ⟨_, hP, lowResult_putShort s d _⟩

theorem binaryDouble_completes {f : Word → Word → BitVec 64} (h : exec i s = outcomeOf (binaryDouble f d o1 o2 s))
    {P : BitVec 64 → Prop} (hP : P (f (operandValue s o1) (operandValue s o2))) :
    CompletesUnless i s [operandError s o1, operandError s o2, doubleError s d]
      (fun t => ∃ r, P r ∧ WroteDouble s t d r ∧ FlagsFrom s t r ∧ t.pc = s.pc ∧ SystemKept s t) :=
  completesUnless_of_checked (by rw [h, binaryDouble_eq]) fun _ => ⟨_, hP, doubleResult_putDouble s d _⟩

end

/-! ### Sums and differences -/

theorem add_eq_ofInt {w : Nat} (a b : BitVec w) : a + b = BitVec.ofInt w (a.toInt + b.toInt) := by
  rw [BitVec.ofInt_add, BitVec.ofInt_toInt, BitVec.ofInt_toInt]

theorem neg_eq_ofInt {w : Nat} (a : BitVec w) : 0#w - a = BitVec.ofInt w (-a.toInt) := by
  rw [BitVec.ofInt_neg, BitVec.ofInt_toInt, BitVec.zero_sub]

theorem sub_eq_ofInt {w : Nat} (a b : BitVec w) : a - b = BitVec.ofInt w (a.toInt - b.toInt) := by
  rw [Int.sub_eq_add_neg, BitVec.ofInt_add, BitVec.ofInt_neg, BitVec.ofInt_toInt, BitVec.ofInt_toInt,
    BitVec.sub_eq_add_neg]

/-- The sign extension of an immediate is the same integer (R109). -/
theorem signImm_toInt (imm : BitVec 16) : (signImm imm).toInt = imm.toInt :=
  BitVec.toInt_signExtend_of_le (by decide)

/-- Settles O14. -/
theorem addResult : Obligations.AddResult := by
  intro d o1 o2 imm s
  constructor
  · rw [← add_eq_ofInt]
    exact binaryOp_completes rfl
  · rw [← signImm_toInt, ← add_eq_ofInt]
    exact binaryImm_completes rfl

/-- Settles O15. -/
theorem subResult : Obligations.SubResult := by
  intro d o1 o2 imm s
  constructor
  · rw [← sub_eq_ofInt]
    exact binaryOp_completes rfl
  · rw [← signImm_toInt, ← sub_eq_ofInt]
    exact binaryImm_completes rfl

/-- Settles O20. -/
theorem negResult : Obligations.NegResult := by
  intro d o a s
  constructor
  · rw [← neg_eq_ofInt]
    exact unaryAbs_completes rfl
  · rw [← neg_eq_ofInt]
    exact unaryOp_completes rfl

/-- A comparison leaves the flags of the difference, `ZF` where the two are equal, and nothing else (R130). -/
theorem compared_setFlags (s : State) (x y : Word) :
    FlagsFrom s (s.setFlags (x - y)) (x - y) ∧ ((s.setFlags (x - y)).zf = true ↔ x = y) ∧
      RegsKept s (s.setFlags (x - y)) [] ∧ MemKept s (s.setFlags (x - y)) ∧ (s.setFlags (x - y)).pc = s.pc ∧
      SystemKept s (s.setFlags (x - y)) := by
  have hflags := State.setFlags_flagsFrom s (x - y)
  refine ⟨hflags, hflags.1.trans ?_, regsKept_refl s [], memKept_refl s, rfl, systemKept_refl s⟩
  exact sub_eq_zero

/-- Settles O16. -/
theorem cmpFlags : Obligations.CmpFlags := by
  intro o1 o2 imm s
  constructor
  · have hrun : exec (.cmpR o1 o2) s = outcomeOf (compareWith o1 (readOperand s.mode o2 s) s) := rfl
    rw [← sub_eq_ofInt]
    exact completesUnless_of_checked (by rw [hrun, readOperand_eq, compareWith_eq]) fun _ => compared_setFlags s _ _
  · have hrun : exec (.cmpI o1 imm) s = outcomeOf (compareWith o1 (checked none s (signImm imm)) s) := rfl
    have hchecks : firstError [operandError s o1, none] = firstError [operandError s o1] := by
      cases operandError s o1 <;> rfl
    simp only [← signImm_toInt imm, ← sub_eq_ofInt, BitVec.toInt_inj]
    exact completesUnless_of_checked (by rw [hrun, compareWith_eq, hchecks]) fun _ => compared_setFlags s _ _

/-! ### Products -/

/-- A product of two signed values fits twice their width. -/
theorem signedProduct_toInt {n m : Nat} (hn : 0 < n) (hm : m = 2 * n) (a b : BitVec n) :
    (signedProduct m a b).toInt = a.toInt * b.toInt := by
  subst hm
  have hlow := BitVec.le_toInt_mul_toInt (x := a) (y := b)
  have hhigh := BitVec.toInt_mul_toInt_le (x := a) (y := b)
  have hpow : (2 : Int) ^ (n * 2 - 2) < 2 ^ (2 * n - 1) := Int.pow_lt_pow_of_lt (by decide) (by omega)
  exact BitVec.toInt_ofInt_eq_self (by omega) (by omega) (by omega)

/-- A product of two unsigned values fits twice their width. -/
theorem unsignedProduct_toNat {n m : Nat} (hm : m = n * 2) (a b : BitVec n) :
    (unsignedProduct m a b).toNat = a.toNat * b.toNat := by
  subst hm
  exact (BitVec.toNat_ofNat _ _).trans (Nat.mod_eq_of_lt BitVec.toNat_mul_toNat_lt)

/-- The low bits of a word as an integer. -/
theorem low_toInt (v : Word) {k : Nat} (hk : k ≤ 32) : (v.extractLsb' 0 k).toInt = v.toInt.bmod (2 ^ k) := by
  rw [BitVec.toInt_extractLsb', Nat.shiftRight_zero, BitVec.toInt_eq_toNat_bmod,
    Int.bmod_bmod_of_dvd (Nat.pow_dvd_pow 2 hk)]

/-- The low bits of a word as a natural number. -/
theorem low_toNat (v : Word) (k : Nat) : (v.extractLsb' 0 k).toNat = v.toNat % 2 ^ k := by
  rw [BitVec.extractLsb'_toNat, Nat.shiftRight_zero]

/-- Settles O17. -/
theorem byteProducts : Obligations.ByteProducts := by
  intro d o1 o2 s
  constructor
  · refine binaryShort_completes rfl (P := fun r => r.toInt = _) ?_
    rw [signedProduct_toInt (n := 8) (by decide) rfl, low_toInt _ (by decide), low_toInt _ (by decide)]
  · refine binaryShort_completes rfl (P := fun r => r.toNat = _) ?_
    rw [unsignedProduct_toNat (n := 8) rfl, low_toNat, low_toNat]

/-- Settles O18. -/
theorem shortProducts : Obligations.ShortProducts := by
  intro d o1 o2 s
  constructor
  · refine (binaryOp_completes rfl).mono fun t ht => ⟨_, ?_, ht⟩
    rw [signedProduct_toInt (n := 16) (by decide) rfl, low_toInt _ (by decide), low_toInt _ (by decide)]
  · refine (binaryOp_completes rfl).mono fun t ht => ⟨_, ?_, ht⟩
    rw [unsignedProduct_toNat (n := 16) rfl, low_toNat, low_toNat]

/-- Settles O19. -/
theorem wordProducts : Obligations.WordProducts := by
  intro d o1 o2 s
  constructor
  · exact binaryDouble_completes rfl (P := fun r => r.toInt = _) (signedProduct_toInt (by decide) rfl _ _)
  · exact binaryDouble_completes rfl (P := fun r => r.toNat = _) (unsignedProduct_toNat rfl _ _)

/-! ### Logic and shifts -/

/-- The bits of a sign-extended immediate: those above 15 are copies of bit 15 (R109). -/
theorem signImm_getLsbD (imm : BitVec 16) {b : Nat} (hb : b < 32) :
    (signImm imm).getLsbD b = imm.getLsbD (min b 15) := by
  rw [signImm, BitVec.getLsbD_signExtend, decide_eq_true hb, Bool.true_and]
  split
  · rw [Nat.min_eq_left (by omega)]
  · rw [Nat.min_eq_right (by omega), BitVec.msb_eq_getLsbD_last]

/-- Settles O21. -/
theorem logicResults : Obligations.LogicResults := by
  intro d o1 o2 imm s
  constructor
  · rintro i f (⟨rfl, rfl⟩ | ⟨rfl, rfl⟩ | ⟨rfl, rfl⟩)
    · exact (binaryOp_completes rfl).mono fun t ht => ⟨_, ht, fun b _ => BitVec.getLsbD_and⟩
    · exact (binaryOp_completes rfl).mono fun t ht => ⟨_, ht, fun b _ => BitVec.getLsbD_or⟩
    · exact (binaryOp_completes rfl).mono fun t ht => ⟨_, ht, fun b _ => BitVec.getLsbD_xor⟩
  · rintro i f (⟨rfl, rfl⟩ | ⟨rfl, rfl⟩ | ⟨rfl, rfl⟩)
    · refine (binaryImm_completes rfl).mono fun t ht => ⟨_, ht, fun b hb => ?_⟩
      rw [BitVec.getLsbD_and, signImm_getLsbD imm hb]
    · refine (binaryImm_completes rfl).mono fun t ht => ⟨_, ht, fun b hb => ?_⟩
      rw [BitVec.getLsbD_or, signImm_getLsbD imm hb]
    · refine (binaryImm_completes rfl).mono fun t ht => ⟨_, ht, fun b hb => ?_⟩
      rw [BitVec.getLsbD_xor, signImm_getLsbD imm hb]

theorem not_getLsbD (v : Word) {b : Nat} (hb : b < 32) : (~~~v).getLsbD b = !v.getLsbD b := by
  rw [BitVec.getLsbD_not, decide_eq_true hb, Bool.true_and]

/-- Settles O22. -/
theorem notResult : Obligations.NotResult := fun _ _ _ _ =>
  ⟨(unaryAbs_completes rfl).mono fun _ ht => ⟨_, ht, fun _ hb => not_getLsbD _ hb⟩,
    (unaryOp_completes rfl).mono fun _ ht => ⟨_, ht, fun _ hb => not_getLsbD _ hb⟩⟩

theorem shiftLeft_eq_ofNat {w : Nat} (v : BitVec w) (n : Nat) : v <<< n = BitVec.ofNat w (v.toNat * 2 ^ n) := by
  rw [← BitVec.toNat_inj, BitVec.toNat_shiftLeft, BitVec.toNat_ofNat, Nat.shiftLeft_eq]

theorem ushiftRight_eq_ofNat {w : Nat} (v : BitVec w) (n : Nat) : v >>> n = BitVec.ofNat w (v.toNat / 2 ^ n) := by
  rw [← BitVec.toNat_inj, BitVec.toNat_ofNat, ← Nat.shiftRight_eq_div_pow, ← BitVec.toNat_ushiftRight,
    BitVec.toNat_mod_cancel]

/-- An arithmetic shift is the floor of the quotient (R146). -/
theorem sshiftRight_eq_ofInt {w : Nat} (v : BitVec w) (n : Nat) :
    v.sshiftRight n = BitVec.ofInt w (v.toInt.fdiv (2 ^ n)) := by
  rw [BitVec.sshiftRight, Int.shiftRight_eq_div_pow, Int.fdiv_eq_ediv_of_nonneg _ (by positivity)]
  push_cast
  rfl

/-- Settles O23. -/
theorem shiftResults : Obligations.ShiftResults := by
  intro d o n s
  refine ⟨?_, ?_, ?_⟩
  · rw [← shiftLeft_eq_ofNat]
    exact unaryOp_completes (f := (· <<< n.toNat)) rfl
  · rw [← ushiftRight_eq_ofNat]
    exact unaryOp_completes (f := (· >>> n.toNat)) rfl
  · rw [← sshiftRight_eq_ofInt]
    exact unaryOp_completes (f := (·.sshiftRight n.toNat)) rfl

end Sys2Proof.Machine

/-! # Memory accesses (20_memory.md sections 2 to 4) -/

namespace Sys2Proof.Machine

/-! ### Which accesses are made -/

theorem checked_ok_iff {α : Type} {e : Option ErrorKind} {s : State} {x : α} :
    (∃ y, checked e s x = .ok y) ↔ e = none := by
  simp [checked_eq_ok]

section
variable {priv : Mode} {n : Nat} {a : Addr} {s : State}

theorem access_misaligned {α : Type} {x : α} (h : a.toNat % n ≠ 0) :
    checked (accessError priv n a) s x = .error (.alignment s) := by
  rw [accessError, if_pos h, checked_some]
  rfl

theorem access_protected {α : Type} {x : α} (h : a.toNat % n = 0) (hu : priv = .user) (hlow : a.toNat < 0x08000) :
    checked (accessError priv n a) s x = .error (.protection s) := by
  rw [accessError, if_neg (not_not.mpr h), if_pos ⟨hu, hlow⟩, checked_some]
  rfl

theorem accessError_eq_none_iff :
    accessError priv n a = none ↔ a.toNat % n = 0 ∧ (priv = .supervisor ∨ 0x08000 ≤ a.toNat) := by
  rw [accessError_eq_none]
  cases priv <;> simp [protectedBelow]

theorem store_eq {w : Nat} (v : BitVec w) :
    store priv a n v s = checked (accessError priv n a) s (s.putBytes a n v) := rfl

theorem loadByte_eq : loadByte priv a s = checked (accessError priv 1 a) s (s.byteAt a.toNat) := rfl

theorem loadShort_eq : loadShort priv a s =
    checked (accessError priv 2 a) s (s.byteAt (a.toNat + 1) ++ s.byteAt a.toNat) := rfl

end

/-- Settles O5. -/
theorem accessChecks : Obligations.AccessChecks := by
  intro priv a s n v hn
  have hn20 : n ∣ 2 ^ 20 := by rcases hn with rfl | rfl | rfl | rfl <;> decide
  have hbyte : a.toNat % 1 = 0 := Nat.mod_one _
  simp only [store_eq, loadByte_eq, loadShort_eq, loadWord_eq, checked_ok_iff, accessError_eq_none_iff, hbyte,
    true_and]
  exact ⟨access_misaligned, access_protected,
    fun h hp => ⟨access_in_range hn20 (accessError_eq_none_iff.mpr ⟨h, hp⟩), h, hp⟩, access_protected hbyte,
    access_misaligned, access_protected, access_misaligned, access_protected⟩

/-! ### The parts of a stored value -/

section
variable {priv : Mode} {n m k : Nat} {a : Addr}

theorem offset_toNat (hn : n ∣ 2 ^ 20) (ha : accessError priv n a = none) (hk : k < n) :
    (a + BitVec.ofNat 20 k).toNat = a.toNat + k := by
  have hin := access_in_range hn ha
  rw [BitVec.toNat_add, BitVec.toNat_ofNat]
  omega

/-- A part of an access that is made can be accessed alone (R54, R58). -/
theorem accessError_offset (hn : n ∣ 2 ^ 20) (ha : accessError priv n a = none) (hmn : m ∣ n) (hmk : m ∣ k)
    (hk : k < n) : accessError priv m (a + BitVec.ofNat 20 k) = none := by
  obtain ⟨halign, hlow⟩ := accessError_eq_none.mp ha
  rw [accessError_eq_none, offset_toNat hn ha hk]
  refine ⟨Nat.mod_eq_zero_of_dvd (Nat.dvd_add (hmn.trans (Nat.dvd_of_mod_eq_zero halign)) hmk), fun hu => ?_⟩
  exact (hlow hu).trans (Nat.le_add_right _ _)

variable {w : Nat} {v : BitVec w} {t : State}

theorem MemHolds.short (h : MemHolds t a n v) (hk : k + 2 ≤ n) :
    t.byteAt (a.toNat + k + 1) ++ t.byteAt (a.toNat + k) = v.extractLsb' (8 * k) 16 := by
  rw [Nat.add_assoc, h k (by omega), h (k + 1) (by omega)]
  exact BitVec.extractLsb'_append_extractLsb'_eq_extractLsb' (by omega)

theorem MemHolds.word (h : MemHolds t a n v) (hk : k + 4 ≤ n) :
    t.wordAt (a.toNat + k) = v.extractLsb' (8 * k) 32 := by
  have hlow := h.short (k := k) (by omega)
  have hhigh := h.short (k := k + 2) (by omega)
  have hword : t.wordAt (a.toNat + k) = (t.byteAt (a.toNat + (k + 2) + 1) ++ t.byteAt (a.toNat + (k + 2))) ++
      (t.byteAt (a.toNat + k + 1) ++ t.byteAt (a.toNat + k)) := by
    rw [BitVec.append_assoc']
    rfl
  rw [hword, hlow, hhigh]
  exact BitVec.extractLsb'_append_extractLsb'_eq_extractLsb' (by omega)

theorem MemHolds.loadByte (h : MemHolds t a n v) (hn : n ∣ 2 ^ 20) (ha : accessError priv n a = none) (hk : k < n) :
    loadByte priv (a + BitVec.ofNat 20 k) t = .ok (v.extractLsb' (8 * k) 8) := by
  rw [loadByte_eq, accessError_offset hn ha (one_dvd n) (one_dvd k) hk, checked_none, offset_toNat hn ha hk, h k hk]

theorem MemHolds.loadShort (h : MemHolds t a n v) (hn : n ∣ 2 ^ 20) (ha : accessError priv n a = none)
    (h2n : 2 ∣ n) (h2k : 2 ∣ k) (hk : k < n) :
    loadShort priv (a + BitVec.ofNat 20 k) t = .ok (v.extractLsb' (8 * k) 16) := by
  rw [loadShort_eq, accessError_offset hn ha h2n h2k hk, checked_none, offset_toNat hn ha hk, h.short (by omega)]

theorem MemHolds.loadWord (h : MemHolds t a n v) (hn : n ∣ 2 ^ 20) (ha : accessError priv n a = none)
    (h4n : 4 ∣ n) (h4k : 4 ∣ k) (hk : k < n) :
    loadWord priv (a + BitVec.ofNat 20 k) t = .ok (v.extractLsb' (8 * k) 32) := by
  rw [loadWord_eq, accessError_offset hn ha h4n h4k hk, checked_none, offset_toNat hn ha hk, h.word (by omega)]

end

/-- All that a store can do. -/
theorem store_ok {w n : Nat} {priv : Mode} {a : Addr} {v : BitVec w} {s t : State} (h : store priv a n v s = .ok t) :
    accessError priv n a = none ∧ MemHolds t a n v ∧ MemKeptOutside s t a n := by
  obtain ⟨ha, rfl⟩ := checked_eq_ok.mp h
  exact ⟨ha, State.memHolds_putBytes s a n v, State.memKeptOutside_putBytes s a n v⟩

/-- Settles O6. -/
theorem storedValueReadsBack : Obligations.StoredValueReadsBack := by
  intro priv a s t
  have hzero : a + BitVec.ofNat 20 0 = a := BitVec.add_zero a
  refine ⟨fun v hs => ?_, fun v hs => ?_, fun v hs => ?_⟩
  · obtain ⟨ha, hv, hkept⟩ := store_ok hs
    have hword := hv.loadWord (k := 0) (by decide) ha (by decide) (by decide) (by decide)
    have hlow := hv.loadShort (k := 0) (by decide) ha (by decide) (by decide) (by decide)
    have hhigh := hv.loadShort (k := 2) (by decide) ha (by decide) (by decide) (by decide)
    rw [hzero, Nat.mul_zero, BitVec.extractLsb'_eq_self] at hword
    rw [hzero] at hlow
    exact ⟨hword, hlow, hhigh, fun k hk => hv.loadByte (by decide) ha hk, hkept⟩
  · obtain ⟨ha, hv, hkept⟩ := store_ok hs
    have hshort := hv.loadShort (k := 0) (by decide) ha (by decide) (by decide) (by decide)
    have hlow := hv.loadByte (k := 0) (by decide) ha (by decide)
    have hhigh := hv.loadByte (k := 1) (by decide) ha (by decide)
    rw [hzero, Nat.mul_zero, BitVec.extractLsb'_eq_self] at hshort
    rw [hzero] at hlow
    exact ⟨hshort, hlow, hhigh, hkept⟩
  · obtain ⟨ha, hv, hkept⟩ := store_ok hs
    have hlow := hv.loadWord (k := 0) (by decide) ha (by decide) (by decide) (by decide)
    have hhigh := hv.loadWord (k := 4) (by decide) ha (by decide) (by decide) (by decide)
    rw [hzero] at hlow
    exact ⟨hlow, hhigh, hkept⟩

end Sys2Proof.Machine

/-! # Loads, stores, the stack and control transfer (42_control.md, 43_load_store_copy.md, 44_stack.md) -/

namespace Sys2Proof.Machine

/-- The word of a well-formed instruction other than RETS, written out, decodes to it. -/
theorem decode_word {i : Instr} {w : Word} (hw : encode i = w) (hwf : i.wellFormed = true) (hrets : i ≠ .rets) :
    decode w = .ok i := by
  rw [← hw, decode_encode hwf, canonical_of_ne_rets hrets]

/-! ### Loads and stores -/

section
variable {i : Instr} {s : State} {x : Addr}

theorem loadByteInto_completes {dr : RegNum} (h : exec i s = outcomeOf (loadByteInto dr x s)) :
    CompletesUnless i s [accessError s.mode 1 x]
      (fun t => ResultIn s t (.reg dr) (BitVec.ofInt 32 (s.byteAt x.toNat).toInt)) :=
  completesUnless_of_checked (by rw [h, loadByteInto_eq]; rfl) fun _ => resultIn_loadInto s dr _

theorem loadShortInto_completes {dr : RegNum} (h : exec i s = outcomeOf (loadShortInto dr x s)) :
    CompletesUnless i s [accessError s.mode 2 x]
      (fun t => ResultIn s t (.reg dr) (BitVec.ofInt 32 (s.byteAt (x.toNat + 1) ++ s.byteAt x.toNat).toInt)) :=
  completesUnless_of_checked (by rw [h, loadShortInto_eq]; rfl) fun _ => resultIn_loadInto s dr _

theorem loadWordInto_completes {dr : RegNum} (h : exec i s = outcomeOf (loadWordInto dr x s)) :
    CompletesUnless i s [accessError s.mode 4 x] (fun t => ResultIn s t (.reg dr) (s.wordAt x.toNat)) :=
  completesUnless_of_checked (by rw [h, loadWordInto_eq]) fun _ => resultIn_loadInto s dr _

/-- The state a store answers is as `OnlyStored` says. -/
theorem onlyStored_putBytes {w : Nat} (s : State) (x : Addr) (n : Nat) (v : BitVec w) :
    OnlyStored s (s.putBytes x n v) x n v :=
  ⟨State.memHolds_putBytes s x n v, State.memKeptOutside_putBytes s x n v, regsKept_refl s [], rfl, rfl,
    systemKept_refl s⟩

theorem store_completes {n w : Nat} {v : BitVec w} (h : exec i s = outcomeOf (store s.mode x n v s)) :
    CompletesUnless i s [accessError s.mode n x] (fun t => OnlyStored s t x n v) :=
  completesUnless_of_checked (by rw [h, store_eq, firstError_singleton]) fun _ => onlyStored_putBytes s x n v

end

/-- Settles O32. -/
theorem loadResults : Obligations.LoadResults := by
  intro dr sr a s
  refine ⟨decode_word rfl rfl nofun, decode_word rfl rfl nofun, decode_word rfl rfl nofun, decode_word rfl rfl nofun,
    decode_word rfl rfl nofun, decode_word rfl rfl nofun, ?_, ?_, ?_⟩
  · rintro i x (⟨rfl, rfl⟩ | ⟨rfl, rfl⟩)
    · exact loadByteInto_completes rfl
    · exact loadByteInto_completes rfl
  · rintro i x (⟨rfl, rfl⟩ | ⟨rfl, rfl⟩)
    · exact loadShortInto_completes rfl
    · exact loadShortInto_completes rfl
  · rintro i x (⟨rfl, rfl⟩ | ⟨rfl, rfl⟩)
    · exact loadWordInto_completes rfl
    · exact loadWordInto_completes rfl

/-- Settles O33. -/
theorem storeResults : Obligations.StoreResults := by
  intro dr sr a s
  refine ⟨decode_word rfl rfl nofun, decode_word rfl rfl nofun, decode_word rfl rfl nofun, decode_word rfl rfl nofun,
    decode_word rfl rfl nofun, decode_word rfl rfl nofun, ?_, ?_, ?_⟩
  · rintro i x (⟨rfl, rfl⟩ | ⟨rfl, rfl⟩) <;> exact store_completes rfl
  · rintro i x (⟨rfl, rfl⟩ | ⟨rfl, rfl⟩) <;> exact store_completes rfl
  · rintro i x (⟨rfl, rfl⟩ | ⟨rfl, rfl⟩) <;> exact store_completes rfl

/-! ### Jumps -/

/-- Going to a target: `PC` takes an aligned one, a misaligned one stops (R56). -/
theorem outcomeOf_setPC (t : Addr) (s : State) :
    (t.toNat % 4 = 0 → outcomeOf (setPC t s) = .next { s with pc := t }) ∧
      (t.toNat % 4 ≠ 0 → outcomeOf (setPC t s) = .fault (.alignment s)) :=
  ⟨fun h => by rw [setPC_aligned h, outcomeOf_ok], fun h => by rw [setPC_misaligned h, outcomeOf_error]⟩

theorem jumpTaken_iff {n p z : Bool} {s : State} :
    jumpTaken n p z s = true ↔ (n = true ∧ s.nf = true) ∨ (p = true ∧ s.pf = true) ∨ (z = true ∧ s.zf = true) := by
  simp only [jumpTaken, Bool.or_eq_true, Bool.and_eq_true, or_assoc]

theorem conditionsOk_iff {n p z : Bool} : Instr.conditionsOk n p z = true ↔ ¬(n = true ∧ p = true ∧ z = true) := by
  cases n <;> cases p <;> cases z <;> decide

/-- Settles O24. -/
theorem jumpOnCondition : Obligations.JumpOnCondition := by
  intro n p z a sr s hletters
  have hwf : Instr.conditionsOk n p z = true := conditionsOk_iff.mpr hletters
  refine ⟨decode_word (i := .jcA n p z a) rfl hwf nofun, decode_word (i := .jcR n p z sr) rfl hwf nofun, ?_⟩
  intro i t hi
  have hrun : exec i s = outcomeOf (jumpIf (jumpTaken n p z s) t s) := by
    rcases hi with ⟨rfl, rfl⟩ | ⟨rfl, rfl⟩ <;> rfl
  rw [hrun, jumpIf]
  by_cases htaken : jumpTaken n p z s = true
  · rw [if_pos (jumpTaken_iff.mp htaken), if_pos htaken]
    exact outcomeOf_setPC t s
  · rw [if_neg (mt jumpTaken_iff.mpr htaken), if_neg htaken, outcomeOf_ok]

/-- Settles O25. -/
theorem jumpAlways : Obligations.JumpAlways := by
  intro a sr s
  refine ⟨decode_word (i := .jmpA a) rfl rfl nofun, decode_word (i := .jmpR sr) rfl rfl nofun, ?_⟩
  rintro i t (⟨rfl, rfl⟩ | ⟨rfl, rfl⟩)
  · exact outcomeOf_setPC t s
  · exact outcomeOf_setPC _ s

/-! ### Pushes -/

/-- The state in which a push stops, or from which it stores: the stack pointer is 4 lower (R14). -/
def pushBase (s : State) : State := s.setReg sp (s.reg sp - 4#32)

/-- The state a push leaves. -/
def pushedState (s : State) (v : Word) : State := (pushBase s).putBytes (addrOf (s.reg sp - 4#32)) 4 v

theorem push_fits {s : State} (h : pushError s = none) (v : Word) : push s.mode v s = .ok (pushedState s v) := by
  rw [push_mode_eq, h, checked_none]
  rfl

theorem push_stops {s : State} {k : ErrorKind} (h : pushError s = some k) (v : Word) :
    push s.mode v s = .error (raise k (pushBase s)) := by
  rw [push_mode_eq, h, checked_some]
  rfl

theorem pushed_pushedState (s : State) (v : Word) : Pushed s (pushedState s v) v := pushed_put s v

/-- A value obtained by one check, then pushed. -/
theorem pushesUnless_of_checked {i : Instr} {s : State} {es : List (Option ErrorKind)} {v : Word}
    (h : exec i s = outcomeOf (pushOperand (checked (firstError es) s v) s)) : PushesUnless i s es v := by
  refine ⟨fun hes hp => ?_, fun k hes => ?_, fun hes k hp => ?_⟩
  · refine ⟨pushedState s v, ?_, pushed_pushedState s v, rfl⟩
    rw [h, hes, pushOperand, checked_none, except_ok_bind, push_fits hp, outcomeOf_ok]
  · rw [h, hes, pushOperand, checked_some, except_error_bind, outcomeOf_error]
  · rw [h, hes, pushOperand, checked_none, except_ok_bind, push_stops hp, outcomeOf_error]
    rfl

/-- Settles O35. -/
theorem pushImmediates : Obligations.PushImmediates := by
  intro imm s
  refine ⟨pushesUnless_of_checked rfl, ?_⟩
  rw [← zeroImm_eq_ofNat]
  exact pushesUnless_of_checked rfl

theorem pushesUnless_of_loaded {α : Type} {i : Instr} {s : State} {e : Option ErrorKind} {x : α} {f : α → Word}
    (h : exec i s = outcomeOf (pushOperand ((checked e s x).map f) s)) : PushesUnless i s [e] (f x) :=
  pushesUnless_of_checked (by rw [h, checked_map, firstError_singleton])

/-- The sign extension of the low bits of a word, as an integer. -/
theorem signExtend_low (v : Word) {k : Nat} (hk : k ≤ 32) :
    (v.extractLsb' 0 k).signExtend 32 = BitVec.ofInt 32 (v.toInt.bmod (2 ^ k)) := by
  rw [← low_toInt v hk]
  rfl

/-- Settles O36. -/
theorem pushOperands : Obligations.PushOperands := by
  intro o a s
  have hbyte : exec (.pushbR o) s =
      outcomeOf (pushOperand ((readOperand s.mode o s).map (fun v => (v.extractLsb' 0 8).signExtend 32)) s) := rfl
  have hshort : exec (.pushsR o) s =
      outcomeOf (pushOperand ((readOperand s.mode o s).map (fun v => (v.extractLsb' 0 16).signExtend 32)) s) := rfl
  have hword : exec (.pushwR o) s = outcomeOf (pushOperand (readOperand s.mode o s) s) := rfl
  have hwordA : exec (.pushwA a) s = outcomeOf (pushOperand (loadWord s.mode a s) s) := rfl
  rw [readOperand_eq] at hbyte hshort hword
  refine ⟨pushesUnless_of_loaded (f := BitVec.signExtend 32) rfl, ?_,
    pushesUnless_of_loaded (f := BitVec.signExtend 32) rfl, ?_, ?_, ?_⟩
  · rw [← signExtend_low _ (by decide)]
    exact pushesUnless_of_loaded (f := fun v : Word => (v.extractLsb' 0 8).signExtend 32) hbyte
  · rw [← signExtend_low _ (by decide)]
    exact pushesUnless_of_loaded (f := fun v : Word => (v.extractLsb' 0 16).signExtend 32) hshort
  · exact pushesUnless_of_checked (by rw [hwordA, loadWord_eq, firstError_singleton])
  · exact pushesUnless_of_checked (by rw [hword, firstError_singleton])

/-- Settles O26. -/
theorem callPushesAndJumps : Obligations.CallPushesAndJumps := by
  intro a sr s i t hi
  have hrun : exec i s = outcomeOf (callTo t s) := by
    rcases hi with ⟨rfl, rfl⟩ | ⟨rfl, rfl⟩ <;> rfl
  have hpc : s.pc.setWidth 32 = BitVec.ofNat 32 s.pc.toNat := (BitVec.ofNat_toNat 32 s.pc).symm
  have hpushed := pushed_pushedState s (BitVec.ofNat 32 s.pc.toNat)
  rw [hrun, callTo, hpc]
  refine ⟨fun hp ht => ?_, fun k hp => ?_, fun hp ht => ?_⟩
  · rw [push_fits hp, except_ok_bind, setPC_aligned ht]
    exact ⟨_, rfl, hpushed, rfl⟩
  · rw [push_stops hp, except_error_bind]
    rfl
  · rw [push_fits hp, except_ok_bind, setPC_misaligned ht]
    exact ⟨_, rfl, hpushed, rfl⟩

/-! ### Pops -/

/-- Where the stack top can be read, its address is the stack pointer (R14). -/
theorem stackTop_address {priv : Mode} {n : Nat} {v : Word} {es : List (Option ErrorKind)}
    (h : firstError (stackError priv n v :: es) = none) : (addrOf v).toNat = v.toNat := by
  have hstack : stackError priv n v = none := firstError_eq_none.mp h _ (List.mem_cons_self ..)
  exact addrOf_toNat_of_lt (stackError_eq_none.mp hstack).1

/-- Settles O29. -/
theorem returnFromSubroutine : Obligations.ReturnFromSubroutine := by
  intro s
  have hrun : exec .ret s = outcomeOf (returnFromCall s) := rfl
  rw [hrun, returnFromCall, stackTop_eq]
  refine ⟨fun k hk => ?_, fun hnone => ?_⟩
  · rw [hk, checked_some, except_error_bind, outcomeOf_error]
  · rw [hnone, checked_none, except_ok_bind, stackTop_address (es := []) (by rw [hnone]; rfl)]
    obtain ⟨hgo, hstop⟩ := outcomeOf_setPC (addrOf (s.wordAt (s.reg sp).toNat)) s.popped
    rw [addrOf_mod_four] at hgo hstop
    refine ⟨fun ha => ⟨_, hgo ha, rfl, ?_⟩, hstop⟩
    exact ⟨State.popped_reg_sp s, regsKept_setReg s sp _, memKept_refl s, rfl, systemKept_refl s⟩

/-- A pop that writes by one check completes where the stack top can be read and the write can be made. -/
theorem popped_completes {i : Instr} {s : State} {n : Nat} {e : Option ErrorKind} {u : Nat → State}
    {P : State → State → Prop}
    (h : exec i s = outcomeOf (checked (firstError [stackError s.mode n (s.reg sp), e]) s
      (u (addrOf (s.reg sp)).toNat).popped))
    (hP : P (u (s.reg sp).toNat) (u (s.reg sp).toNat).popped) :
    CompletesUnless i s [stackError s.mode n (s.reg sp), e] (fun t => ∃ u, P u t) :=
  completesUnless_of_checked h fun hnone => by
    rw [stackTop_address hnone]
    exact ⟨_, hP⟩

theorem poppedAfter_putBytes {w : Nat} (s : State) (a : Addr) (n : Nat) (v : BitVec w) :
    PoppedAfter s (s.putBytes a n v) (s.putBytes a n v).popped :=
  poppedAfter_popped rfl rfl (systemKept_refl s)

/-- Settles O37. -/
theorem popParts : Obligations.PopParts := by
  rintro d a s _ rfl
  refine ⟨?_, ?_, ?_, ?_⟩
  · refine popped_completes (u := fun x => s.putBytes a 1 (s.byteAt x))
      (congrArg outcomeOf (popByte_eq _ _ _ s rfl)) ?_
    exact ⟨onlyStored_putBytes s a 1 _, poppedAfter_putBytes s a 1 _⟩
  · refine popped_completes (u := fun x => putByte s d (s.byteAt x))
      (congrArg outcomeOf (popByte_eq _ _ _ s (writeDestByte_eq d _ s))) ?_
    exact ⟨wroteLow_putByte s d _,
      poppedAfter_popped (putByte_ms s d _) (putByte_pc s d _) (systemKept_putByte s d _)⟩
  · refine popped_completes (u := fun x => s.putBytes a 2 (s.byteAt (x + 1) ++ s.byteAt x))
      (congrArg outcomeOf (popShort_eq _ _ _ s rfl)) ?_
    exact ⟨onlyStored_putBytes s a 2 _, poppedAfter_putBytes s a 2 _⟩
  · refine popped_completes (u := fun x => putShort s d (s.byteAt (x + 1) ++ s.byteAt x))
      (congrArg outcomeOf (popShort_eq _ _ _ s (writeDestShort_eq d _ s))) ?_
    exact ⟨wroteLow_putShort s d _,
      poppedAfter_popped (putShort_ms s d _) (putShort_pc s d _) (systemKept_putShort s d _)⟩

/-- Settles O38. (The name `popWord` is the model's.) -/
theorem popWord_holds : Obligations.PopWord := by
  rintro d a s _ rfl
  constructor
  · refine popped_completes (u := fun x => s.putBytes a 4 (s.wordAt x))
      (congrArg outcomeOf (popWord_eq _ _ _ s rfl)) ?_
    exact ⟨onlyStored_putBytes s a 4 _, poppedAfter_putBytes s a 4 _⟩
  · refine popped_completes (u := fun x => putOperand s d (s.wordAt x))
      (congrArg outcomeOf (popWord_eq _ _ _ s (writeDest_eq d _ s))) ?_
    refine ⟨wroteWord_putOperand s d _,
      poppedAfter_popped (putOperand_ms s d _) (putOperand_pc s d _) (systemKept_putOperand s d _), ?_⟩
    rintro rfl
    rw [State.popped_reg_sp, putOperand, State.setReg_reg_self]

end Sys2Proof.Machine

/-! # The port and system instructions (45_io_system.md, 60_exceptions.md section 5) -/

namespace Sys2Proof.Machine

/-! ### The fields of a word -/

/-- Two vectors joined, as a number. -/
theorem append_toNat {m n : Nat} (x : BitVec m) (y : BitVec n) : (x ++ y).toNat = x.toNat * 2 ^ n + y.toNat := by
  rw [BitVec.toNat_append, ← Nat.shiftLeft_add_eq_or_of_lt y.isLt, Nat.shiftLeft_eq]

/-- The date of the clock has a day from 1 on and a month from 1 to 12 (R257). -/
theorem clockDate_ranges (t : Nat) :
    1 ≤ (clockDate t).toNat / 2 ^ 20 % 32 ∧ 1 ≤ (clockDate t).toNat / 2 ^ 16 % 16 ∧
      (clockDate t).toNat / 2 ^ 16 % 16 ≤ 12 := by
  have hyear := (Config.clockYear t).isLt
  simp only [clockDate, append_toNat, BitVec.toNat_ofNat]
  omega

/-- The time of the clock is one of a day (R257). -/
theorem clockTime_ranges (t : Nat) :
    (clockTime t).toNat / 2 ^ 12 % 32 ≤ 23 ∧ (clockTime t).toNat / 2 ^ 6 % 64 ≤ 59 ∧ (clockTime t).toNat % 64 ≤ 59 := by
  simp only [clockTime, append_toNat, BitVec.toNat_ofNat]
  omega

/-- The character device's word holds `AVL` at its top and the code at its bottom (R258). -/
theorem charWord_fields (s : State) : (charWord s).getLsbD 31 = s.avl ∧ (charWord s).toNat % 128 = s.ch.toNat := by
  constructor
  · rw [charWord, BitVec.getLsbD_append, if_neg (by decide), BitVec.getLsbD_append, if_neg (by decide),
      BitVec.getLsbD_ofBool]
    rfl
  · have hch := s.ch.isLt
    rw [charWord, append_toNat]
    omega

/-! ### The ports -/

theorem portNumber_eq_ofNat (p : BitVec 5) : portNumber p = BitVec.ofNat 6 p.toNat := (BitVec.ofNat_toNat 6 p).symm

theorem portNumber_eq_iff (p : BitVec 5) {k : Nat} (hk : k < 64) : portNumber p = BitVec.ofNat 6 k ↔ p.toNat = k := by
  have hp := p.isLt
  rw [portNumber_eq_ofNat, ← BitVec.toNat_inj, BitVec.toNat_ofNat, BitVec.toNat_ofNat]
  omega

/-- A port of IN reads what the device at it gives (R257, R258, R260). -/
theorem portReads_portValue (s : State) (p : BitVec 5) : PortReads s p.toNat (portValue (portNumber p) s) := by
  unfold PortReads portValue
  simp only [portNumber_eq_iff p (k := 4) (by decide), portNumber_eq_iff p (k := 5) (by decide),
    portNumber_eq_iff p (k := 8) (by decide)]
  split_ifs
  · exact clockDate_ranges s.freeTick
  · exact clockTime_ranges s.freeTick
  · exact charWord_fields s
  · rw [portNumber_eq_ofNat]

/-- What a port of OUT does (R257 to R260). -/
theorem portWrite_portNumber (p : BitVec 5) (v : Word) (s : State) :
    if p.toNat = 8 then portWrite (portNumber p) v s = if v = 0#32 then { s with avl := false, busy := false } else s
    else if p.toNat = 12 then
      portWrite (portNumber p) v s = { s with outTrace := s.outTrace ++ [BitVec.ofNat 7 v.toNat] }
    else portWrite (portNumber p) v s = s := by
  unfold portWrite
  simp only [portNumber_eq_iff p (k := 8) (by decide), portNumber_eq_iff p (k := 12) (by decide)]
  split_ifs <;> rfl

/-! ### IN -/

section
variable {s : State}

/-- What IN leaves: the port's value in the destination, the flags from it, the counter of free values one up. -/
theorem inputFrom_supervisor {d : Operand} {p : Port} (hmi : s.mi = true) (hd : operandError s d = none) :
    ∃ t, inputFrom d p s = .ok t ∧ WroteWord s t d (portValue p s) ∧ FlagsFrom s t (portValue p s) ∧ t.pc = s.pc ∧
      t.freeTick = s.freeTick + 1 ∧ SystemKept s { t with freeTick := s.freeTick } := by
  refine ⟨(putOperand s.afterPortRead d (portValue p s)).setFlags (portValue p s), ?_, ?_, ?_, ?_, ?_, ?_⟩
  · rw [inputFrom_eq, if_pos hmi, hd, checked_none]
  · have hwrote : WroteWord s (putOperand s.afterPortRead d (portValue p s)) d (portValue p s) := by
      cases d with
      | reg n => exact wroteWord_putOperand s.afterPortRead (.reg n) _
      | ind n => exact wroteWord_putOperand s.afterPortRead (.ind n) _
    exact wroteWord_congr hwrote (fun _ => rfl) (fun _ => rfl)
  · exact flagsFrom_congr (putOperand_ms s.afterPortRead d _)
  · exact putOperand_pc s.afterPortRead d _
  · cases d <;> rfl
  · cases d <;> exact systemKept_refl s

theorem inputFrom_user {d : Operand} {p : Port} (hmi : s.mi = false) :
    inputFrom d p s = .error (.privilegeViolation s) := by
  rw [inputFrom_eq, hmi]
  rfl

/-- The port is read before the destination is checked (R220). -/
theorem inputFrom_blocked {d : Operand} {p : Port} {k : ErrorKind} (hmi : s.mi = true)
    (hd : operandError s d = some k) : inputFrom d p s = .error (raise k s.afterPortRead) := by
  rw [inputFrom_eq, if_pos hmi, hd, checked_some]

/-- The low 5 bits of an operand are its port (R220, R221). -/
theorem low5_toNat (v : Word) : (v.extractLsb' 0 5).toNat = v.toNat % 32 := low_toNat v 5

/-- IN is the input from a port, once an operand naming it is read. -/
theorem exec_in {d o : Operand} {imm : BitVec 5} {i : Instr} {p : Nat}
    (hi : (i = .inI d imm ∧ p = imm.toNat) ∨
      (i = .inR d o ∧ operandError s o = none ∧ p = (operandValue s o).toNat % 32)) :
    ∃ q : BitVec 5, p = q.toNat ∧ exec i s = outcomeOf (inputFrom d (portNumber q) s) := by
  rcases hi with ⟨rfl, rfl⟩ | ⟨rfl, ho, rfl⟩
  · exact ⟨imm, rfl, rfl⟩
  · have hrun : exec (.inR d o) s = outcomeOf (inputOperand d o s) := rfl
    refine ⟨(operandValue s o).extractLsb' 0 5, (low5_toNat _).symm, ?_⟩
    rw [hrun, inputOperand, readOperand_eq, ho, checked_none, except_ok_bind]

end

/-- Settles O39. -/
theorem inputResult : Obligations.InputResult := by
  intro d o imm s
  refine ⟨fun k hk => ?_, fun i p hi => ?_⟩
  · have hrun : exec (.inR d o) s = outcomeOf (inputOperand d o s) := rfl
    rw [hrun, inputOperand, readOperand_eq, hk, checked_some, except_error_bind, outcomeOf_error]
  · obtain ⟨q, rfl, hrun⟩ := exec_in hi
    rw [hrun]
    refine ⟨fun hmi => ?_, fun hmi k hk => ?_, fun hmi hd => ?_⟩
    · rw [inputFrom_user hmi, outcomeOf_error]
    · rw [inputFrom_blocked hmi hk, outcomeOf_error]
      rfl
    · obtain ⟨t, ht, hafter⟩ := inputFrom_supervisor (p := portNumber q) hmi hd
      exact ⟨t, portValue (portNumber q) s, outcomeOf_eq_next.mpr ht, portReads_portValue s q, hafter⟩

/-! ### OUT, SSSP and HALT -/

theorem outputTo_eq (p : Port) (v : Word) (s : State) :
    outputTo p v s = checked (firstError [privilegeError s]) s (portWrite p v s) := by
  rw [outputTo, privileged_eq]
  exact checked_bind _ [] _ _ _ _ rfl

/-- OUT reads its operand and writes it to the port (R221). -/
theorem exec_out {d o : Operand} {imm : BitVec 5} {s : State} {i : Instr} {p : Nat}
    (hi : (i = .outI imm o ∧ p = imm.toNat) ∨
      (i = .outR d o ∧ operandError s d = none ∧ p = (operandValue s d).toNat % 32)) :
    ∃ q : BitVec 5, p = q.toNat ∧ exec i s = outcomeOf (checked (firstError [operandError s o, privilegeError s]) s
      (portWrite (portNumber q) (operandValue s o) s)) := by
  rcases hi with ⟨rfl, rfl⟩ | ⟨rfl, hd, rfl⟩
  · have hrun : exec (.outI imm o) s = outcomeOf (outputImm imm o s) := rfl
    refine ⟨imm, rfl, ?_⟩
    rw [hrun, outputImm, readOperand_eq]
    exact congrArg outcomeOf (checked_bind _ _ _ _ _ _ (outputTo_eq _ _ s))
  · have hrun : exec (.outR d o) s = outcomeOf (outputOperand d o s) := rfl
    refine ⟨(operandValue s d).extractLsb' 0 5, (low5_toNat _).symm, ?_⟩
    rw [hrun, outputOperand, readOperand_eq, hd, checked_none, except_ok_bind, readOperand_eq]
    exact congrArg outcomeOf (checked_bind _ _ _ _ _ _ (outputTo_eq _ _ s))

/-- Settles O40. -/
theorem outputResult : Obligations.OutputResult := by
  rintro d o imm s _ rfl
  refine ⟨fun k hk => ?_, fun i p hi => ?_⟩
  · have hrun : exec (.outR d o) s = outcomeOf (outputOperand d o s) := rfl
    rw [hrun, outputOperand, readOperand_eq, hk, checked_some, except_error_bind, outcomeOf_error]
  · obtain ⟨q, rfl, hrun⟩ := exec_out hi
    exact completesUnless_of_checked hrun fun _ => portWrite_portNumber q _ s

/-- SSSP of a value obtained by one check (R222). -/
theorem setSSP_loaded (e : Option ErrorKind) (v : Word) (s : State) :
    (checked e s v >>= fun v => setSSP (addrOf v) s) =
      checked (firstError [e, privilegeError s, targetError (addrOf v)]) s { s with ssp := addrOf v } :=
  checked_bind _ _ _ _ _ _ (setSSP_eq (addrOf v) s)

/-- Settles O41. -/
theorem setSupervisorStack : Obligations.SetSupervisorStack := by
  intro o a s
  have habs : exec (.ssspA a) s = outcomeOf (loadWord s.mode a s >>= fun v => setSSP (addrOf v) s) := rfl
  have hoperand : exec (.ssspR o) s = outcomeOf (readOperand s.mode o s >>= fun v => setSSP (addrOf v) s) := rfl
  rw [loadWord_eq, setSSP_loaded] at habs
  rw [readOperand_eq, setSSP_loaded] at hoperand
  exact ⟨completesUnless_of_checked habs fun _ => rfl, completesUnless_of_checked hoperand fun _ => rfl⟩

theorem haltMachine_eq (s : State) :
    haltMachine s = checked (firstError [privilegeError s]) s { s with halted := true } := by
  rw [haltMachine, privileged_eq]
  exact checked_bind _ [] _ _ _ _ rfl

/-- Settles O42. -/
theorem haltStops : Obligations.HaltStops := by
  intro x s
  constructor
  · apply decode_halt_word
    have hx := x.isLt
    rw [append_toNat]
    have hhead : (0b10001#5 ++ 0#6 ++ 0#1).toNat = 0x880 := by decide
    omega
  · exact completesUnless_of_checked (congrArg outcomeOf (haltMachine_eq s)) fun _ => rfl

end Sys2Proof.Machine

/-! # Pending vectors and device events (60_exceptions.md sections 2 and 5)

The services of step 1 of a cycle do not read the model's counter of free values; so the run that advances it between
two services and the run that leaves it answer the same but for the counter. -/

namespace Sys2Proof.Machine

/-! ### The counter of free values -/

/-- The state with another value of the counter. -/
def State.retick (n : Nat) (s : State) : State := { s with freeTick := n }

/-- A result with another value of the counter in its state. -/
def reticked (n : Nat) : Except Fault State → Except Fault State
  | .ok s => .ok (s.retick n)
  | .error f => .error (raise f.kind (f.state.retick n))

theorem reticked_raise (n : Nat) (k : ErrorKind) (s : State) :
    reticked n (.error (raise k s)) = .error (raise k (s.retick n)) := by
  rw [reticked, raise_kind, raise_state]

theorem reticked_reticked (m n : Nat) (r : Except Fault State) : reticked m (reticked n r) = reticked m r := by
  cases r with
  | ok s => rfl
  | error f => rw [reticked, reticked_raise]; rfl

theorem reticked_checked (n : Nat) (e : Option ErrorKind) (s t : State) :
    checked e (s.retick n) (t.retick n) = reticked n (checked e s t) := by
  cases e with
  | none => rfl
  | some k => exact (reticked_raise n k s).symm

/-- A sequence that starts from a state with another counter. -/
theorem reticked_bind (n : Nat) (r : Except Fault State) {g : State → Except Fault State}
    (hg : ∀ s, g (s.retick n) = reticked n (g s)) : (reticked n r >>= g) = reticked n (r >>= g) := by
  cases r with
  | ok s => exact hg s
  | error f => rfl

section
variable (n : Nat) (s : State)

theorem push_retick (priv : Mode) (v : Word) : push priv v (s.retick n) = reticked n (push priv v s) := by
  rw [push_eq, push_eq]
  exact reticked_checked n _ (pushBase s) (pushedState s v)

theorem setPC_retick (a : Addr) : setPC a (s.retick n) = reticked n (setPC a s) := by
  rw [setPC_eq, setPC_eq]
  exact reticked_checked n _ s { s with pc := a }

theorem handlerStack_retick (switch : Bool) :
    handlerStack switch (s.retick n) = reticked n (handlerStack switch s) := by
  cases switch with
  | false => rfl
  | true => exact push_retick n (s.setReg sp (s.ssp.setWidth 32)) .supervisor (s.reg sp)

theorem enterHandler_retick (e : Word) (switch : Bool) :
    enterHandler e switch (s.retick n) = reticked n (enterHandler e switch s) := by
  unfold enterHandler
  cases entryReservedZero e with
  | false => exact (reticked_raise n .reservedValue s).symm
  | true =>
    rw [handlerStack_retick]
    refine reticked_bind n _ fun s1 => ?_
    rw [push_retick]
    refine reticked_bind n _ fun s2 => ?_
    rw [push_retick]
    exact reticked_bind n _ fun s3 => setPC_retick n s3.setMI (addrOf e)

theorem service_retick (v : IntVec) : service v (s.retick n) = reticked n (service v s) := by
  have hentry : (s.retick n).wordAt (4 * v.val) = s.wordAt (4 * v.val) := rfl
  have hmi : (s.retick n).mi = s.mi := rfl
  rw [service_eq, service_eq, hentry, hmi]
  by_cases henabled : (s.wordAt (4 * v.val)).getLsbD 31 = true
  · rw [if_pos henabled, if_pos henabled]
    exact enterHandler_retick n s _ _
  · rw [if_neg henabled, if_neg henabled]
    rfl

theorem serveInTurn_retick (vs : List IntVec) : serveInTurn vs (s.retick n) = reticked n (serveInTurn vs s) := by
  induction vs generalizing s with
  | nil => rfl
  | cons v vs ih =>
    have hfirst := service_retick n { s with pending := s.pending.erase v } v
    calc serveInTurn (v :: vs) (s.retick n)
      _ = (reticked n (service v { s with pending := s.pending.erase v }) >>= serveInTurn vs) := by rw [← hfirst]; rfl
      _ = reticked n (serveInTurn (v :: vs) s) := reticked_bind n _ ih

end

/-! ### Step 1 of the cycle -/

/-- Serving a vector leaves the pending set as it is. -/
theorem service_pending {v : IntVec} {s t : State} (h : service v s = .ok t) : t.pending = s.pending := by
  rcases service_within h with rfl | hw
  · rfl
  · exact hw.pending

/-- Serving one vector is serving a list of one. -/
theorem serveInTurn_one (v : IntVec) (s : State) :
    serveInTurn [v] s = service v { s with pending := s.pending.erase v } := by
  rw [serveInTurn]
  cases service v { s with pending := s.pending.erase v } <;> rfl

/-- A result is that of serving some of the pending vectors in turn, but for the counter of free values. -/
def ServesInTurn (s : State) (vs : List IntVec) (r : Except Fault State) : Prop :=
  vs.Subperm s.pending ∧ ∃ n, r = reticked n (serveInTurn vs s)

theorem servesInTurn_nil (s : State) : ServesInTurn s [] (.ok s) := ⟨List.nil_subperm, s.freeTick, rfl⟩

theorem servesInTurn_one {v : IntVec} {s : State} (hv : v ∈ s.pending) (n : Nat) :
    ServesInTurn s [v] (service v { s with pending := s.pending.erase v, freeTick := n }) := by
  refine ⟨List.singleton_subperm_iff.mpr hv, n, ?_⟩
  rw [serveInTurn_one]
  exact service_retick n { s with pending := s.pending.erase v } v

theorem servesInTurn_cons {v : IntVec} {vs : List IntVec} {s u : State} {r : Except Fault State} {n : Nat}
    (hv : v ∈ s.pending) (hu : service v { s with pending := s.pending.erase v, freeTick := n } = .ok u)
    (hr : ServesInTurn u vs r) : ServesInTurn s (v :: vs) r := by
  obtain ⟨hsub, m, rfl⟩ := hr
  have hpending : u.pending = s.pending.erase v := service_pending hu
  refine ⟨?_, m, ?_⟩
  · rw [hpending] at hsub
    exact ((List.subperm_cons v).mpr hsub).trans (List.perm_cons_erase hv).symm.subperm
  · have hserve : service v { s with pending := s.pending.erase v, freeTick := n } = _ :=
      service_retick n { s with pending := s.pending.erase v } v
    rw [serveInTurn]
    rw [hu] at hserve
    cases ht : service v { s with pending := s.pending.erase v } with
    | error f =>
      rw [ht] at hserve
      cases hserve
    | ok t =>
      rw [ht] at hserve
      obtain rfl : u = t.retick n := Except.ok.inj hserve
      rw [serveInTurn_retick, reticked_reticked, except_ok_bind]

section
variable {m : Nat} {s : State}

theorem serviceInterrupts_none (h : s.pending = []) : serviceInterrupts (m + 1) s = .ok s := by
  simp only [serviceInterrupts, h]

theorem serviceInterrupts_one {v : IntVec} (h : s.pending = [v]) :
    serviceInterrupts (m + 1) s = service v { s with pending := [] } := by
  simp only [serviceInterrupts, h]

/-- Where several vectors are pending, a chosen one is served and step 1 goes on or ends (R248). -/
theorem serviceInterrupts_many {v w : IntVec} {others : List IntVec} (h : s.pending = v :: w :: others) :
    ∃ u ∈ s.pending, ∃ goesOn : Bool, serviceInterrupts (m + 1) s =
      (service u { s with pending := s.pending.erase u, freeTick := s.freeTick + 1 } >>= fun s1 =>
        if goesOn then serviceInterrupts m s1 else .ok s1) := by
  refine ⟨chosenVector s.freeTick s.pending, chosenVector_mem _ (by rw [h]; nofun),
    Config.irqContinue s.freeTick s.pending, ?_⟩
  simp only [serviceInterrupts, h]

end

/-- Step 1 serves some of the pending vectors in turn, at least one where it may and can (R248). -/
theorem serviceInterrupts_servesInTurn (m : Nat) (s : State) :
    ∃ vs, (0 < m → s.pending ≠ [] → vs ≠ []) ∧ ServesInTurn s vs (serviceInterrupts m s) := by
  induction m generalizing s with
  | zero => exact ⟨[], nofun, servesInTurn_nil s⟩
  | succ m ih =>
    rcases hp : s.pending with _ | ⟨v, _ | ⟨w, others⟩⟩
    · rw [serviceInterrupts_none hp]
      exact ⟨[], fun _ hne => absurd rfl hne, servesInTurn_nil s⟩
    · have hone := servesInTurn_one (s := s) (v := v) (by rw [hp]; exact List.mem_singleton_self v) s.freeTick
      rw [hp, List.erase_cons_head] at hone
      rw [serviceInterrupts_one hp]
      exact ⟨[v], fun _ _ => nofun, hone⟩
    · obtain ⟨u, hu, goesOn, hrun⟩ := serviceInterrupts_many (m := m) hp
      have hone := servesInTurn_one hu (s.freeTick + 1)
      rw [hrun]
      cases hs1 : service u { s with pending := s.pending.erase u, freeTick := s.freeTick + 1 } with
      | error f =>
        rw [hs1] at hone
        exact ⟨[u], fun _ _ => nofun, hone⟩
      | ok s1 =>
        cases goesOn with
        | false =>
          rw [hs1] at hone
          exact ⟨[u], fun _ _ => nofun, hone⟩
        | true =>
          obtain ⟨vs, -, hvs⟩ := ih s1
          exact ⟨u :: vs, fun _ _ => nofun, servesInTurn_cons hu hs1 hvs⟩

/-- Settles O47: the run of step 1 and that of its services in turn differ in the counter of free values alone. -/
theorem pendingVectorsServedInTurn : Obligations.PendingVectorsServedInTurn := by
  intro s
  refine ⟨fun hp => ?_, fun v hp => ?_, fun hne => ?_⟩
  · rw [handleInterrupts, hp]
    rfl
  · rw [handleInterrupts, hp]
    exact serviceInterrupts_one hp
  · obtain ⟨vs, hvs, hsub, n, hrun⟩ := serviceInterrupts_servesInTurn s.pending.length s
    rw [handleInterrupts, hrun]
    refine ⟨vs, hvs (List.length_pos_iff.mpr hne) hne, hsub, ?_⟩
    cases serveInTurn vs s with
    | ok u =>
      refine ⟨fun t ht => ⟨u, rfl, ?_⟩, nofun⟩
      obtain rfl : u.retick n = t := Except.ok.inj ht
      rfl
    | error g =>
      refine ⟨nofun, fun f hf => ⟨g, rfl, ?_⟩⟩
      obtain rfl : raise g.kind (g.state.retick n) = f := Except.error.inj hf
      exact raise_kind _ _

/-! ### Device events -/

/-- What device events leave of a busy character device (R258). -/
def BusyKept (s t : State) : Prop := 8 ∉ t.pending ∧ t.busy = true ∧ t.ch = s.ch ∧ t.avl = s.avl

theorem BusyKept.deviceEvent {s t : State} (h : BusyKept s t) (e : DeviceEvent) : BusyKept s (deviceEvent t e) := by
  obtain ⟨hvec, hbusy, hch, havl⟩ := h
  cases e with
  | vector v =>
    by_cases hv : v = charVector
    · rw [Machine.deviceEvent, if_pos hv]
      exact ⟨hvec, hbusy, hch, havl⟩
    · rw [Machine.deviceEvent, if_neg hv]
      refine ⟨fun hmem => ?_, hbusy, hch, havl⟩
      exact (mem_insertVector.mp hmem).elim (fun h8 => hv h8.symm) hvec
  | char c =>
    rw [Machine.deviceEvent, if_pos hbusy]
    exact ⟨hvec, hbusy, hch, havl⟩

theorem BusyKept.deviceEvents {s t : State} (h : BusyKept s t) (es : List DeviceEvent) :
    BusyKept s (es.foldl Machine.deviceEvent t) := by
  induction es generalizing t with
  | nil => exact h
  | cons e es ih => exact ih (h.deviceEvent e)

/-- Settles O49. -/
theorem deviceEvents : Obligations.DeviceEvents := by
  intro s
  refine ⟨fun v hv => ?_, fun c hfree => ?_, fun es hbusy hvec => ?_⟩
  · have hevent : deviceEvent s (.vector v) = s.raiseVector v := if_neg hv
    exact ⟨_, hevent, fun u => mem_insertVector, rfl⟩
  · have hevent : deviceEvent s (.char c) =
        State.raiseVector { s with avl := true, ch := c, busy := true } charVector := by
      rw [deviceEvent, hfree]
      rfl
    exact ⟨_, hevent, fun u => mem_insertVector, rfl⟩
  · exact BusyKept.deviceEvents ⟨hvec, hbusy, rfl, rfl⟩ es

end Sys2Proof.Machine
